-- ==== Sys2Proof/Word.lean ====
section
/-! DEFINITION. Sys2Proof/Word.lean: the machine's words, bytes and register ids (00_scope.md R6, R8, R9). -/

namespace Sys2Proof

/-- A register's contents, and an address while it is computed: 64 bits (R5 `XLEN`, R6). -/
abbrev Word := BitVec 64

/-- A byte of the arena or of the instruction stream (R41). -/
abbrev Byte := BitVec 8

/-- A register id, one operand byte: every one of the 256 values names a register (R23). -/
abbrev RegId := BitVec 8

/-- The word `i mod 2^64`, written `U(i)` in R8. -/
abbrev Word.ofSigned (i : Int) : Word := BitVec.ofInt 64 i

/-- The two's-complement reading of a word, written `S(v)` in R8. -/
abbrev Word.signed (v : Word) : Int := v.toInt

/-- The word that reads as `-1`: `2^64 - 1`, the source's "unsigned-max" (R8). -/
def Word.minusOne : Word := 0xFFFFFFFFFFFFFFFF#64

end Sys2Proof
end

