-- ==== Sys2Proof/Config.lean ====
section
/-! DEFINITION. Sys2Proof/Config.lean: the implementation parameters of 00_scope.md R5 and the free values. The two maps are
types here: a launch gives their values, the decoder, the encoder and the machine take them as arguments, and the spec's
defaults are `Opmap.default` and `Crmap.default`. The opaque constants have no body: nothing can be proved of their values. -/

namespace Sys2Proof

/-- `OPMAP`: the opcode byte of each of the 80 mnemonics, in the order of the table of 30_encoding.md R97; injective (R5, D1). -/
structure Opmap where
  codes : List Byte
  complete : codes.length = 80
  injective : codes.Nodup
deriving DecidableEq, Repr

/-- `CRMAP`: the register id of each of the 27 control registers (10_state.md R24); no two share one, and nothing else is
asked of the ids (R5, R24, D2). -/
structure Crmap where
  /-- `A0` to `A15`, the argument range (R35): no rule uses it implicitly -/
  args : Vector RegId 16
  /-- `AB`, arena base (R26) -/
  ab : RegId
  /-- `AL`, arena length (R27) -/
  al : RegId
  /-- `CS`, code segment base (R28) -/
  cs : RegId
  /-- `DS`, data segment base (R29) -/
  ds : RegId
  /-- `SS`, stack segment base (R30) -/
  ss : RegId
  /-- `IP`, the instruction pointer (R31) -/
  ip : RegId
  /-- `SB`, stack base, the frame pointer (R32) -/
  sb : RegId
  /-- `ST`, stack top, the stack pointer (R33) -/
  st : RegId
  /-- `CT`, the counter slot (R34): no rule uses it implicitly -/
  ct : RegId
  /-- `ER`, the error code (R36) -/
  er : RegId
  /-- `EX`, the exit code (R37) -/
  ex : RegId
  injective : (args.toList ++ [ab, al, cs, ds, ss, ip, sb, st, ct, er, ex]).Nodup
deriving DecidableEq, Repr

namespace Config

/-- `PRE_SIZE`: bytes of the Pre segment, so also the address of the first code byte (R5, R77). -/
def preSize : Nat := 16

/-- One finished exchange on the host port (49_host_io_data_misc.md R240): what the core asked and what the host answered.
The model's own record (log 8). -/
inductive HostExchange where
  | opened (path mode : List Byte) (err handle : Word)
  | read (handle : Word) (max : Nat) (bytes : List Byte)
  | wrote (handle : Word) (bytes : List Byte) (count : Nat)
deriving DecidableEq, Repr

/-- `HostOpen(path, mode)`: the words `(err, handle)`, any two words (R240). FREE VALUE, drawn per call from the seed and
the exchanges so far (log 8). -/
opaque hostOpen (seed : Nat) (log : List HostExchange) (path mode : List Byte) : Word × Word

/-- The byte string `HostRead(handle, max)` delivers; whoever asks cuts it to `max` bytes (R240). FREE VALUE (log 8). -/
opaque hostRead (seed : Nat) (log : List HostExchange) (handle : Word) (max : Nat) : List Byte

/-- The count `HostWrite(handle, bytes)` answers; whoever asks bounds it by the string's length (R240). FREE VALUE (log 8). -/
opaque hostWrite (seed : Nat) (log : List HostExchange) (handle : Word) (bytes : List Byte) : Nat

/-- `MAGIC`, the 4-byte magic of the boot image (70_reset_and_hazards.md R290), not in the source. FREE VALUE (log 27). -/
opaque magic : BitVec 32

/-- Whether the Loader can allocate an arena of this many bytes (R292). FREE VALUE (log 27). -/
opaque canAllocate (size : Nat) : Bool

end Config

end Sys2Proof
end

