-- ==== Sys2Proof/Machine/Bytes.lean ====
section
/-! DEFINITION. Sys2Proof/Machine/Bytes.lean: byte strings as big-endian numbers and back (20_memory.md R62 to R64, R84), the
one place where the byte order is decided. -/

namespace Sys2Proof

/-- A byte string as a big-endian number: its first byte is the most significant (R63). -/
def beNat : List Byte → Nat
  | [] => 0
  | b :: bs => b.toNat * 256 ^ bs.length + beNat bs

/-- The low `8n` bits of `v` as `n` big-endian bytes (R64). -/
def beBytes : Nat → Nat → List Byte
  | 0, _ => []
  | n + 1, v => BitVec.ofNat 8 (v / 256 ^ n) :: beBytes n v

/-- `n` bytes of a number whose bits are numbered with bit 0 in the FIRST byte: byte `k` is bits `8k + 7` to `8k`, the
numbering of spec/opcode_table.json. -/
def tableBytes : Nat → Nat → List Byte
  | 0, _ => []
  | n + 1, w => BitVec.ofNat 8 w :: tableBytes n (w / 256)

end Sys2Proof
end

