-- ==== Sys2Proof/Syntax.lean ====
section
/-! DEFINITION. Sys2Proof/Syntax.lean: the 80 instructions of spec/opcode_table.json, one constructor per row, operands in
stream order under the letters of the row's rule (30_encoding.md R92, R93, R97). A literal is held as a word; that it fits
the width its opcode gives it is `Instr.WF` (R102). The payload of `Data` is no operand: the decoder skips it and nothing
interprets it (R95, R245), so the syntax holds its length only. -/

namespace Sys2Proof

inductive Instr where
  -- control, 40_control.md
  | nop
  | exit
  | goto (t : RegId)
  | ifGo (c t : RegId)
  | ifNG (c t : RegId)
  | svIp (d : RegId)
  | loop (c t : RegId)
  | call (t : RegId)
  | ret
  | htl
  | data (d : RegId) (len : Word)
  -- unsigned arithmetic, 41_arith_unsigned.md
  | add (d a b : RegId)
  | sub (d a b : RegId)
  | mul (d a b : RegId)
  | div (q r a b : RegId)
  | inc (d : RegId)
  | dec (d : RegId)
  -- signed arithmetic, 42_arith_signed.md
  | iMul (d a b : RegId)
  | iDiv (q r a b : RegId)
  | iThan (d a b : RegId)
  | iLess (d a b : RegId)
  | iMore (d a b : RegId)
  | iLMov (d a s : RegId)
  | iRMov (d a s : RegId)
  -- unsigned comparison, 43_compare.md
  | than (d a b : RegId)
  | less (d a b : RegId)
  | more (d a b : RegId)
  -- bitwise, shift, rotate, 44_bitwise_shift.md
  | not (d a : RegId)
  | and (d a b : RegId)
  | or (d a b : RegId)
  | xor (d a b : RegId)
  | lMov (d a s : RegId)
  | rMov (d a s : RegId)
  | rol (d a s : RegId)
  | ror (d a s : RegId)
  | complement (d a : RegId)
  | toBool (d a : RegId)
  -- move, literal, load, store, address, 45_move_memory.md
  | mov1 (d s : RegId)
  | mov2 (d s : RegId)
  | mov4 (d s : RegId)
  | mov8 (d s : RegId)
  | set1 (d : RegId) (lit : Word)
  | set2 (d : RegId) (lit : Word)
  | set4 (d : RegId) (lit : Word)
  | set8 (d : RegId) (lit : Word)
  | get1 (d a : RegId)
  | get2 (d a : RegId)
  | get4 (d a : RegId)
  | get8 (d a : RegId)
  | wrt1 (a s : RegId)
  | wrt2 (a s : RegId)
  | wrt4 (a s : RegId)
  | wrt8 (a s : RegId)
  | lea (d b i k : RegId)
  -- stack and exchange, 46_stack_exchange.md
  | psh1 (s : RegId)
  | psh2 (s : RegId)
  | psh4 (s : RegId)
  | psh8 (s : RegId)
  | pop1 (d : RegId)
  | pop2 (d : RegId)
  | pop4 (d : RegId)
  | pop8 (d : RegId)
  | xchg1 (x a : RegId)
  | xchg2 (x a : RegId)
  | xchg4 (x a : RegId)
  | xchg8 (x a : RegId)
  | swap (x y : RegId)
  -- block operations, 47_block.md
  | movs (d s n : RegId)
  | cmps (d a b n : RegId)
  | scas1 (d a n v : RegId)
  | scas2 (d a n v : RegId)
  | scas4 (d a n v : RegId)
  | scas8 (d a n v : RegId)
  -- numeric conversions, 48_convert.md
  | bcdT (d a : RegId)
  | bcdF (d a : RegId)
  | signT (d m f : RegId)
  | signF (dm df a : RegId)
  -- host I/O, 49_host_io_data_misc.md
  | fopen (d pa pl ma ml : RegId)
  | fin (d h b l o c : RegId)
  | fout (d h b l o c : RegId)
deriving DecidableEq, Repr

end Sys2Proof
end

