-- ==== Sys2Proof/WellFormed.lean ====
section
/-! DEFINITION. Sys2Proof/WellFormed.lean: which terms of `Instr` stand for instructions. Every register id and every literal
byte string is legal (30_encoding.md R99), so the only checks are that a literal is below `2^(8w)` for its opcode's width `w`
(R94, R102). -/

namespace Sys2Proof

/-- The literal fits the `w` bytes the instruction stream gives it (R94, R102). -/
abbrev LiteralFits (w : Nat) (lit : Word) : Prop := lit.toNat < 256 ^ w

/-- The well-formed instructions: one check per literal width below 8; the rest is well-formed by its type. -/
def Instr.wellFormed : Instr → Bool
  | .set1 _ lit => decide (LiteralFits 1 lit)
  | .set2 _ lit => decide (LiteralFits 2 lit)
  | .set4 _ lit => decide (LiteralFits 4 lit)
  | .nop | .exit | .goto _ | .ifGo _ _ | .ifNG _ _ | .svIp _ | .loop _ _ | .call _ | .ret | .htl | .data _ _ => true
  | .add _ _ _ | .sub _ _ _ | .mul _ _ _ | .div _ _ _ _ | .inc _ | .dec _ => true
  | .iMul _ _ _ | .iDiv _ _ _ _ | .iThan _ _ _ | .iLess _ _ _ | .iMore _ _ _ | .iLMov _ _ _ | .iRMov _ _ _ => true
  | .than _ _ _ | .less _ _ _ | .more _ _ _ => true
  | .not _ _ | .and _ _ _ | .or _ _ _ | .xor _ _ _ | .lMov _ _ _ | .rMov _ _ _ | .rol _ _ _ | .ror _ _ _ => true
  | .complement _ _ | .toBool _ _ => true
  | .mov1 _ _ | .mov2 _ _ | .mov4 _ _ | .mov8 _ _ | .set8 _ _ => true
  | .get1 _ _ | .get2 _ _ | .get4 _ _ | .get8 _ _ | .wrt1 _ _ | .wrt2 _ _ | .wrt4 _ _ | .wrt8 _ _ => true
  | .lea _ _ _ _ => true
  | .psh1 _ | .psh2 _ | .psh4 _ | .psh8 _ | .pop1 _ | .pop2 _ | .pop4 _ | .pop8 _ => true
  | .xchg1 _ _ | .xchg2 _ _ | .xchg4 _ _ | .xchg8 _ _ | .swap _ _ => true
  | .movs _ _ _ | .cmps _ _ _ _ | .scas1 _ _ _ _ | .scas2 _ _ _ _ | .scas4 _ _ _ _ | .scas8 _ _ _ _ => true
  | .bcdT _ _ | .bcdF _ _ | .signT _ _ _ | .signF _ _ _ => true
  | .fopen _ _ _ _ _ | .fin _ _ _ _ _ _ | .fout _ _ _ _ _ _ => true

/-- `i` is a well-formed instruction. -/
abbrev Instr.WF (i : Instr) : Prop := i.wellFormed = true

end Sys2Proof
end

