-- ==== Sys2Proof/Decode.lean ====
section
/-! DEFINITION. Sys2Proof/Decode.lean: the opcode map, the decoder of a byte string and the encoder (30_encoding.md R90 to
R100). The decoder and the encoder take the opcode map as an argument (R5). Its default and the operand orders are those of
R97. UNVERIFIED: R97 says they are the spec's own (logs 1, 2). -/

namespace Sys2Proof

/-- The format of an opcode (R92) with the instruction its fields make. -/
inductive Form where
  /-- format `Z` -/
  | z (i : Instr)
  /-- format `R1` -/
  | r1 (f : RegId → Instr)
  /-- format `R2` -/
  | r2 (f : RegId → RegId → Instr)
  /-- format `R3` -/
  | r3 (f : RegId → RegId → RegId → Instr)
  /-- format `R4` -/
  | r4 (f : RegId → RegId → RegId → RegId → Instr)
  /-- format `R5` -/
  | r5 (f : RegId → RegId → RegId → RegId → RegId → Instr)
  /-- format `R6` -/
  | r6 (f : RegId → RegId → RegId → RegId → RegId → RegId → Instr)
  /-- formats `L1`, `L2`, `L4`, `L8`: a register and a literal of `w` bytes -/
  | lit (w : Nat) (f : RegId → Word → Instr)
  /-- format `DB`: a register and an 8-byte length; the payload after them is skipped, never decoded (R95) -/
  | block (f : RegId → Word → Instr)

/-- The widths in bytes of the fields after the opcode byte, in stream order (R92, R101). -/
def Form.widths : Form → List Nat
  | .z _ => []
  | .r1 _ => [1]
  | .r2 _ => [1, 1]
  | .r3 _ => [1, 1, 1]
  | .r4 _ => [1, 1, 1, 1]
  | .r5 _ => [1, 1, 1, 1, 1]
  | .r6 _ => [1, 1, 1, 1, 1, 1]
  | .lit w _ => [1, w]
  | .block _ => [1, 8]

/-- A field's value as a register id (R91). -/
def regField (vs : List Nat) (k : Nat) : RegId := BitVec.ofNat 8 (vs.getD k 0)

/-- A field's value as a literal, zero-extended (R94, R95). -/
def litField (vs : List Nat) (k : Nat) : Word := BitVec.ofNat 64 (vs.getD k 0)

/-- The instruction a format makes of its fields' values, as many as `Form.widths` lists. -/
def Form.build : Form → List Nat → Instr
  | .z i, _ => i
  | .r1 f, vs => f (regField vs 0)
  | .r2 f, vs => f (regField vs 0) (regField vs 1)
  | .r3 f, vs => f (regField vs 0) (regField vs 1) (regField vs 2)
  | .r4 f, vs => f (regField vs 0) (regField vs 1) (regField vs 2) (regField vs 3)
  | .r5 f, vs => f (regField vs 0) (regField vs 1) (regField vs 2) (regField vs 3) (regField vs 4)
  | .r6 f, vs => f (regField vs 0) (regField vs 1) (regField vs 2) (regField vs 3) (regField vs 4) (regField vs 5)
  | .lit _ f, vs => f (regField vs 0) (litField vs 1)
  | .block f, vs => f (regField vs 0) (litField vs 1)

/-- The table of R97, control and arithmetic groups: the default `OPMAP`'s bytes with their formats. -/
def opcodesLow : List (Byte × Form) :=
  [(0x00, .z .nop), (0x01, .z .exit), (0x02, .r1 .goto), (0x03, .r2 .ifGo), (0x04, .r2 .ifNG),
   (0x05, .r1 .svIp), (0x06, .r2 .loop), (0x07, .r1 .call), (0x08, .z .ret), (0x09, .z .htl),
   (0x0A, .block .data),
   (0x10, .r3 .add), (0x11, .r3 .sub), (0x12, .r3 .mul), (0x13, .r4 .div), (0x14, .r1 .inc), (0x15, .r1 .dec),
   (0x18, .r3 .iMul), (0x19, .r4 .iDiv), (0x1A, .r3 .iThan), (0x1B, .r3 .iLess), (0x1C, .r3 .iMore),
   (0x1D, .r3 .iLMov), (0x1E, .r3 .iRMov),
   (0x20, .r3 .than), (0x21, .r3 .less), (0x22, .r3 .more),
   (0x30, .r2 .not), (0x31, .r3 .and), (0x32, .r3 .or), (0x33, .r3 .xor), (0x34, .r3 .lMov),
   (0x35, .r3 .rMov), (0x36, .r3 .rol), (0x37, .r3 .ror), (0x38, .r2 .complement), (0x39, .r2 .toBool)]

/-- The table of R97, memory, stack, block, conversion and host groups. -/
def opcodesHigh : List (Byte × Form) :=
  [(0x40, .r2 .mov1), (0x41, .r2 .mov2), (0x42, .r2 .mov4), (0x43, .r2 .mov8),
   (0x44, .lit 1 .set1), (0x45, .lit 2 .set2), (0x46, .lit 4 .set4), (0x47, .lit 8 .set8),
   (0x48, .r2 .get1), (0x49, .r2 .get2), (0x4A, .r2 .get4), (0x4B, .r2 .get8),
   (0x4C, .r2 .wrt1), (0x4D, .r2 .wrt2), (0x4E, .r2 .wrt4), (0x4F, .r2 .wrt8),
   (0x50, .r4 .lea),
   (0x60, .r1 .psh1), (0x61, .r1 .psh2), (0x62, .r1 .psh4), (0x63, .r1 .psh8),
   (0x64, .r1 .pop1), (0x65, .r1 .pop2), (0x66, .r1 .pop4), (0x67, .r1 .pop8),
   (0x70, .r2 .xchg1), (0x71, .r2 .xchg2), (0x72, .r2 .xchg4), (0x73, .r2 .xchg8), (0x74, .r2 .swap),
   (0x80, .r3 .movs), (0x81, .r4 .cmps),
   (0x84, .r4 .scas1), (0x85, .r4 .scas2), (0x86, .r4 .scas4), (0x87, .r4 .scas8),
   (0x90, .r2 .bcdT), (0x91, .r2 .bcdF), (0x92, .r3 .signT), (0x93, .r3 .signF),
   (0xA0, .r5 .fopen), (0xA1, .r6 .fin), (0xA2, .r6 .fout)]

/-- The table of R97. -/
def opcodeTable : List (Byte × Form) := opcodesLow ++ opcodesHigh

/-- The default `OPMAP`: the bytes the table of R97 gives (log 1). -/
def Opmap.default : Opmap := { codes := opcodeTable.map Prod.fst, complete := by decide, injective := by decide }

/-- The table of R97 under another map: its formats with that map's bytes. -/
def Opmap.table (m : Opmap) : List (Byte × Form) := m.codes.zip (opcodeTable.map Prod.snd)

/-- The format an opcode byte selects under a map, none for an unknown opcode (R98). -/
def formOf (m : Opmap) (op : Byte) : Option Form := m.table.lookup op

/-- The byte a map gives the mnemonic to which R97 gives the byte `std`. -/
def Opmap.codeOf (m : Opmap) (std : Byte) : Byte := ((Opmap.default.codes.zip m.codes).lookup std).getD 0#8

/-- Why a byte string does not start with an instruction. -/
inductive DecodeError where
  /-- the opcode byte is not assigned (R98) -/
  | unknownOpcode (op : Byte)
  /-- the string ends inside the instruction -/
  | truncated
deriving DecidableEq, Repr

/-- The values of the fields of these widths at the front of a byte string, and what is left of it; each field big-endian
(R84, R101). -/
def takeFields : List Nat → List Byte → Option (List Nat × List Byte)
  | [], bs => some ([], bs)
  | w :: ws, bs =>
    if w ≤ bs.length then
      match takeFields ws (bs.drop w) with
      | some (vs, rest) => some (beNat (bs.take w) :: vs, rest)
      | none => none
    else none

/-- The instruction at the front of a byte string and the bytes after it, under a map (R90, R100). For `Data` the bytes after it
begin with the payload. -/
def decode (m : Opmap) : List Byte → Except DecodeError (Instr × List Byte)
  | [] => .error .truncated
  | op :: bs =>
    match formOf m op with
    | none => .error (.unknownOpcode op)
    | some f =>
      match takeFields f.widths bs with
      | none => .error .truncated
      | some (vs, rest) => .ok (f.build vs, rest)

/-- The bytes of an instruction under a map (R92, R97); of `Data` without its payload. Each mnemonic is named by its byte in
R97. -/
def encode (opmap : Opmap) : Instr → List Byte
  | .nop => [opmap.codeOf 0x00]
  | .exit => [opmap.codeOf 0x01]
  | .goto t => [opmap.codeOf 0x02, t]
  | .ifGo c t => [opmap.codeOf 0x03, c, t]
  | .ifNG c t => [opmap.codeOf 0x04, c, t]
  | .svIp d => [opmap.codeOf 0x05, d]
  | .loop c t => [opmap.codeOf 0x06, c, t]
  | .call t => [opmap.codeOf 0x07, t]
  | .ret => [opmap.codeOf 0x08]
  | .htl => [opmap.codeOf 0x09]
  | .data d len => [opmap.codeOf 0x0A, d] ++ beBytes 8 len.toNat
  | .add d a b => [opmap.codeOf 0x10, d, a, b]
  | .sub d a b => [opmap.codeOf 0x11, d, a, b]
  | .mul d a b => [opmap.codeOf 0x12, d, a, b]
  | .div q r a b => [opmap.codeOf 0x13, q, r, a, b]
  | .inc d => [opmap.codeOf 0x14, d]
  | .dec d => [opmap.codeOf 0x15, d]
  | .iMul d a b => [opmap.codeOf 0x18, d, a, b]
  | .iDiv q r a b => [opmap.codeOf 0x19, q, r, a, b]
  | .iThan d a b => [opmap.codeOf 0x1A, d, a, b]
  | .iLess d a b => [opmap.codeOf 0x1B, d, a, b]
  | .iMore d a b => [opmap.codeOf 0x1C, d, a, b]
  | .iLMov d a s => [opmap.codeOf 0x1D, d, a, s]
  | .iRMov d a s => [opmap.codeOf 0x1E, d, a, s]
  | .than d a b => [opmap.codeOf 0x20, d, a, b]
  | .less d a b => [opmap.codeOf 0x21, d, a, b]
  | .more d a b => [opmap.codeOf 0x22, d, a, b]
  | .not d a => [opmap.codeOf 0x30, d, a]
  | .and d a b => [opmap.codeOf 0x31, d, a, b]
  | .or d a b => [opmap.codeOf 0x32, d, a, b]
  | .xor d a b => [opmap.codeOf 0x33, d, a, b]
  | .lMov d a s => [opmap.codeOf 0x34, d, a, s]
  | .rMov d a s => [opmap.codeOf 0x35, d, a, s]
  | .rol d a s => [opmap.codeOf 0x36, d, a, s]
  | .ror d a s => [opmap.codeOf 0x37, d, a, s]
  | .complement d a => [opmap.codeOf 0x38, d, a]
  | .toBool d a => [opmap.codeOf 0x39, d, a]
  | .mov1 d s => [opmap.codeOf 0x40, d, s]
  | .mov2 d s => [opmap.codeOf 0x41, d, s]
  | .mov4 d s => [opmap.codeOf 0x42, d, s]
  | .mov8 d s => [opmap.codeOf 0x43, d, s]
  | .set1 d lit => [opmap.codeOf 0x44, d] ++ beBytes 1 lit.toNat
  | .set2 d lit => [opmap.codeOf 0x45, d] ++ beBytes 2 lit.toNat
  | .set4 d lit => [opmap.codeOf 0x46, d] ++ beBytes 4 lit.toNat
  | .set8 d lit => [opmap.codeOf 0x47, d] ++ beBytes 8 lit.toNat
  | .get1 d a => [opmap.codeOf 0x48, d, a]
  | .get2 d a => [opmap.codeOf 0x49, d, a]
  | .get4 d a => [opmap.codeOf 0x4A, d, a]
  | .get8 d a => [opmap.codeOf 0x4B, d, a]
  | .wrt1 a s => [opmap.codeOf 0x4C, a, s]
  | .wrt2 a s => [opmap.codeOf 0x4D, a, s]
  | .wrt4 a s => [opmap.codeOf 0x4E, a, s]
  | .wrt8 a s => [opmap.codeOf 0x4F, a, s]
  | .lea d b i k => [opmap.codeOf 0x50, d, b, i, k]
  | .psh1 s => [opmap.codeOf 0x60, s]
  | .psh2 s => [opmap.codeOf 0x61, s]
  | .psh4 s => [opmap.codeOf 0x62, s]
  | .psh8 s => [opmap.codeOf 0x63, s]
  | .pop1 d => [opmap.codeOf 0x64, d]
  | .pop2 d => [opmap.codeOf 0x65, d]
  | .pop4 d => [opmap.codeOf 0x66, d]
  | .pop8 d => [opmap.codeOf 0x67, d]
  | .xchg1 x a => [opmap.codeOf 0x70, x, a]
  | .xchg2 x a => [opmap.codeOf 0x71, x, a]
  | .xchg4 x a => [opmap.codeOf 0x72, x, a]
  | .xchg8 x a => [opmap.codeOf 0x73, x, a]
  | .swap x y => [opmap.codeOf 0x74, x, y]
  | .movs d s n => [opmap.codeOf 0x80, d, s, n]
  | .cmps d a b n => [opmap.codeOf 0x81, d, a, b, n]
  | .scas1 d a n v => [opmap.codeOf 0x84, d, a, n, v]
  | .scas2 d a n v => [opmap.codeOf 0x85, d, a, n, v]
  | .scas4 d a n v => [opmap.codeOf 0x86, d, a, n, v]
  | .scas8 d a n v => [opmap.codeOf 0x87, d, a, n, v]
  | .bcdT d a => [opmap.codeOf 0x90, d, a]
  | .bcdF d a => [opmap.codeOf 0x91, d, a]
  | .signT d m f => [opmap.codeOf 0x92, d, m, f]
  | .signF dm df a => [opmap.codeOf 0x93, dm, df, a]
  | .fopen d pa pl ma ml => [opmap.codeOf 0xA0, d, pa, pl, ma, ml]
  | .fin d h b l o c => [opmap.codeOf 0xA1, d, h, b, l, o, c]
  | .fout d h b l o c => [opmap.codeOf 0xA2, d, h, b, l, o, c]

/-- How many bytes `encode` gives: the length column of R92 (for `Data`, the 10 bytes before its payload). -/
def Instr.size : Instr → Nat
  | .nop | .exit | .ret | .htl => 1
  | .goto _ | .svIp _ | .call _ | .inc _ | .dec _ => 2
  | .psh1 _ | .psh2 _ | .psh4 _ | .psh8 _ | .pop1 _ | .pop2 _ | .pop4 _ | .pop8 _ => 2
  | .ifGo _ _ | .ifNG _ _ | .loop _ _ | .not _ _ | .complement _ _ | .toBool _ _ => 3
  | .mov1 _ _ | .mov2 _ _ | .mov4 _ _ | .mov8 _ _ | .set1 _ _ => 3
  | .get1 _ _ | .get2 _ _ | .get4 _ _ | .get8 _ _ | .wrt1 _ _ | .wrt2 _ _ | .wrt4 _ _ | .wrt8 _ _ => 3
  | .xchg1 _ _ | .xchg2 _ _ | .xchg4 _ _ | .xchg8 _ _ | .swap _ _ | .bcdT _ _ | .bcdF _ _ => 3
  | .add _ _ _ | .sub _ _ _ | .mul _ _ _ | .iMul _ _ _ | .iThan _ _ _ | .iLess _ _ _ | .iMore _ _ _ => 4
  | .iLMov _ _ _ | .iRMov _ _ _ | .than _ _ _ | .less _ _ _ | .more _ _ _ => 4
  | .and _ _ _ | .or _ _ _ | .xor _ _ _ | .lMov _ _ _ | .rMov _ _ _ | .rol _ _ _ | .ror _ _ _ => 4
  | .movs _ _ _ | .signT _ _ _ | .signF _ _ _ | .set2 _ _ => 4
  | .div _ _ _ _ | .iDiv _ _ _ _ | .lea _ _ _ _ | .cmps _ _ _ _ => 5
  | .scas1 _ _ _ _ | .scas2 _ _ _ _ | .scas4 _ _ _ _ | .scas8 _ _ _ _ => 5
  | .fopen _ _ _ _ _ | .set4 _ _ => 6
  | .fin _ _ _ _ _ _ | .fout _ _ _ _ _ _ => 7
  | .data _ _ | .set8 _ _ => 10

/-- How many bytes a table word is laid out in: all of its own, and at least the longest instruction's 10 (R92). -/
def tableWordBytes (nbits : Nat) : Nat := max 10 ((nbits + 7) / 8)

/-- A table word as the bytes the hardware stores, first byte first; the bits above `nbits` are zero. -/
def layoutTableWord (nbits w : Nat) : List Byte := tableBytes (tableWordBytes nbits) (w % 2 ^ nbits)

/-- The instruction the decoder reads from a table word, a word of the default map; none where it refuses. -/
def decodeTableWord (nbits w : Nat) : Option Instr :=
  match decode Opmap.default (layoutTableWord nbits w) with
  | .ok (i, _) => some i
  | .error _ => none

end Sys2Proof
end

