-- ==== Sys2Proof/Machine/Memory.lean ====
section
/-! DEFINITION. Sys2Proof/Machine/Memory.lean: the arena's contents as a list of cells in one canonical form (10_state.md R41,
20_memory.md R61, R63, R64). These functions check nothing, like `MemRead` and `MemWrite`; which addresses exist is
`State.inArena` (R68). -/

namespace Sys2Proof.Machine

/-- The arena's contents: cells at strictly rising addresses, none of them holding what an unlisted address reads as. -/
abbrev Memory := List Host.Cell

/-- What an unlisted address reads as: zero, the reset contents of Pre and Data (R42). DESIGN CHOICE for Stack bytes that
nothing has written (unsafe, log 5). -/
def Memory.unlisted : Byte := 0#8

/-- `M[a]`: the byte at a logical address (R61). -/
def Memory.read : Memory → Nat → Byte
  | [], _ => Memory.unlisted
  | (k, v) :: m, a => if k = a then v else Memory.read m a

/-- Forget what is listed at `a`. -/
def Memory.erase : Memory → Nat → Memory
  | [], _ => []
  | (k, v) :: m, a => if k = a then Memory.erase m a else (k, v) :: Memory.erase m a

/-- Put a cell before the first cell of a higher address. -/
def Memory.insert : Memory → Nat → Byte → Memory
  | [], a, b => [(a, b)]
  | (k, v) :: m, a, b => if a < k then (a, b) :: (k, v) :: m else (k, v) :: Memory.insert m a b

/-- `M[a] <- b`, keeping the canonical form. -/
def Memory.write (m : Memory) (a : Nat) (b : Byte) : Memory :=
  if b = Memory.unlisted then m.erase a else (m.erase a).insert a b

/-- The `n` bytes at `a, a + 1, ..` (R63). -/
def Memory.readBytes (m : Memory) : Nat → Nat → List Byte
  | _, 0 => []
  | a, n + 1 => m.read a :: m.readBytes (a + 1) n

/-- Store a byte string at `a, a + 1, ..`, lowest address first (R64). -/
def Memory.writeBytes (m : Memory) : Nat → List Byte → Memory
  | _, [] => m
  | a, b :: bs => Memory.writeBytes (m.write a b) (a + 1) bs

/-- The forward byte copy of `MOVS`, one byte at a time from the lowest address up; each read sees the earlier writes
(47_block.md R221). -/
def Memory.copyForward (m : Memory) : Nat → Nat → Nat → Memory
  | _, _, 0 => m
  | dst, src, n + 1 => Memory.copyForward (m.write dst (m.read src)) (dst + 1) (src + 1) n

/-- Every cell lies at or above `low`, addresses rise strictly and no cell holds the unlisted value. -/
def Memory.canonicalFrom : Nat → Memory → Bool
  | _, [] => true
  | low, (k, v) :: m => decide (low ≤ k) && decide (v ≠ Memory.unlisted) && Memory.canonicalFrom (k + 1) m

/-- The canonical form. -/
def Memory.wf (m : Memory) : Bool := Memory.canonicalFrom 0 m

/-- Every listed address is below `n`. -/
def Memory.below (m : Memory) (n : Nat) : Bool := m.all fun c => decide (c.1 < n)

end Sys2Proof.Machine
end

