-- ==== Sys2Proof/Machine/Boot.lean ====
section
/-! DEFINITION. Sys2Proof/Machine/Boot.lean: what the Loader hands over (10_state.md R46, 70_reset_and_hazards.md R291): the
register file and the arena right after reset, for every launch. -/

namespace Sys2Proof

/-- The default `CRMAP` (R24). UNVERIFIED: the ids and the size of the argument range are the spec's own (D2, log 3). -/
def Crmap.default : Crmap :=
  { args := #v[0xE0#8, 0xE1#8, 0xE2#8, 0xE3#8, 0xE4#8, 0xE5#8, 0xE6#8, 0xE7#8,
               0xE8#8, 0xE9#8, 0xEA#8, 0xEB#8, 0xEC#8, 0xED#8, 0xEE#8, 0xEF#8]
    ab := 0xF0#8, al := 0xF1#8, cs := 0xF2#8, ds := 0xF3#8, ss := 0xF4#8, ip := 0xF5#8, sb := 0xF6#8, st := 0xF7#8
    ct := 0xF8#8, er := 0xF9#8, ex := 0xFA#8, injective := by decide }

namespace Machine

/-- What the spec leaves open or unspecified (the open parameters of R5 that are plain values; R46), as arguments of a launch,
so that a claim can hold for every value of them. -/
structure Setting where
  /-- `OPMAP` -/
  opmap : Opmap
  /-- `CRMAP` -/
  crmap : Crmap
  /-- `RESET_GPR`: the value of every register the Loader does not initialise -/
  gpr : Vector Word 256
  /-- `RESET_STACK`: the first bytes of the Stack segment; the bytes after them are zero -/
  stackFill : List Byte
  /-- the world outside (the model's own, log 8) -/
  hostSeed : Nat
deriving DecidableEq, Repr

/-- A launch: a setting with what the boot image gives (R290). -/
structure Launch extends Setting where
  /-- `PROGRAM`; its length is `CODE_SIZE` -/
  program : List Byte
  /-- `DATA_SIZE` -/
  dataSize : Nat
  /-- `STACK_SIZE` -/
  stackSize : Nat
deriving DecidableEq, Repr

/-- `DS` at reset. -/
def Launch.dataBase (l : Launch) : Nat := Config.preSize + l.program.length

/-- `SS`, `SB` and `ST` at reset. -/
def Launch.stackBase (l : Launch) : Nat := l.dataBase + l.dataSize

/-- `NPHYS` (R5). -/
def Launch.nphys (l : Launch) : Nat := l.stackBase + l.stackSize

/-- The launches that have a reset state: `NPHYS < 2^64` (R293) and no more stack bytes than the segment holds. -/
def Launch.fits (l : Launch) : Bool := decide (l.nphys < 2 ^ 64) && decide (l.stackFill.length ≤ l.stackSize)

/-- Put a word into one slot of a register file (R21). -/
def setSlot (regs : Vector Word 256) (r : RegId) (v : Word) : Vector Word 256 := regs.set r.toNat v r.isLt

/-- The register file at reset (R46). -/
def Launch.resetRegs (l : Launch) : Vector Word 256 :=
  let g := setSlot l.gpr l.crmap.ab 0#64
  let g := setSlot g l.crmap.al (BitVec.ofNat 64 l.nphys)
  let g := setSlot g l.crmap.cs (BitVec.ofNat 64 Config.preSize)
  let g := setSlot g l.crmap.ds (BitVec.ofNat 64 l.dataBase)
  let g := setSlot g l.crmap.ss (BitVec.ofNat 64 l.stackBase)
  let g := setSlot g l.crmap.ip (BitVec.ofNat 64 Config.preSize)
  let g := setSlot g l.crmap.sb (BitVec.ofNat 64 l.stackBase)
  let g := setSlot g l.crmap.st (BitVec.ofNat 64 l.stackBase)
  let g := setSlot g l.crmap.er 0#64
  setSlot g l.crmap.ex 0#64

/-- The arena at reset: Pre and Data zero, the program from address 16, the Stack segment as drawn (R42, R46). -/
def Launch.resetMem (l : Launch) : Memory :=
  Memory.writeBytes (Memory.writeBytes [] Config.preSize l.program) l.stackBase l.stackFill

/-- The setting of `State.reset`: the default maps (R24, R97), and zero for what the spec leaves unspecified.
DESIGN CHOICE, unsafe: logs 4, 5. -/
def Setting.default : Setting :=
  { opmap := Opmap.default, crmap := Crmap.default, gpr := Vector.replicate 256 0#64, stackFill := [], hostSeed := 0 }

/-- The launch of `State.reset`: the empty image (legal, R294). DESIGN CHOICE, unsafe: log 6. -/
def Launch.empty : Launch := { toSetting := Setting.default, program := [], dataSize := 0, stackSize := 0 }

end Machine

end Sys2Proof
end

