-- ==== Sys2Proof/Machine/State.lean ====
section
/-! DEFINITION. Sys2Proof/Machine/State.lean: the whole state of the core (10_state.md R20), the reasons a step can stop, and
the state after reset (R46). -/

namespace Sys2Proof.Machine

/-- The seven fault codes (60_exceptions.md R260 to R267). -/
inductive FaultCode where
  /-- 0xb1, data access out of bounds (R261) -/
  | b1
  /-- 0xb2, stack space underflow (R262) -/
  | b2
  /-- 0xb3, stack pointer underflow (R263) -/
  | b3
  /-- 0xb4, stack space overflow (R264) -/
  | b4
  /-- 0xb5, instruction pointer out of bounds (R265) -/
  | b5
  /-- 0xc1, unknown opcode (R266) -/
  | c1
  /-- 0xc2, division by zero (R267) -/
  | c2
deriving DecidableEq, Repr

/-- The run state of the core (R40). -/
inductive Status where
  /-- the Engine takes steps -/
  | running
  /-- normal end; `v` is `Vp[EX]` at that moment -/
  | halted (v : Word)
  /-- fatal end -/
  | faulted (c : FaultCode)
  /-- stopped by `HTL`, without an exit code; nothing resumes it -/
  | parked
deriving DecidableEq, Repr

/-- The state of the core (R20). -/
structure State where
  /-- `Vp`, the register file: 256 words; the control registers are slots of it (R21, R24) -/
  regs : Vector Word 256
  /-- `M`, the arena's bytes (R41) -/
  mem : Memory
  /-- `OPMAP`, the opcode map the fetch decodes with: an open parameter, fixed at reset (R5, R97, log 7) -/
  opmap : Opmap
  /-- `CRMAP`, which slots of `Vp` are the control registers: an open parameter, fixed at reset (R5, R24, log 7) -/
  crmap : Crmap
  /-- `NPHYS`, how many bytes the arena really has (R5, R68); fixed at reset -/
  nphys : Nat
  /-- the run state (R40) -/
  status : Status
  /-- the exchanges on the host port so far, newest first: the model's own field (log 8) -/
  hostLog : List Config.HostExchange
  /-- the world outside, to which the free host answers are applied: the model's own field (log 8) -/
  hostSeed : Nat
deriving DecidableEq, Repr

/-- Why a step answers no next state although the spec's machine has simply stopped. The spec's own faults are no constructor
of this type: they are next states with the status `faulted(c)` (R270). -/
inductive Fault where
  /-- Raised by `step` in a terminal status: no step is enabled in it and only reset leaves it (R40). Safe: nothing is claimed
  to happen (log 11). -/
  | terminal (st : Status)
deriving DecidableEq, Repr

/-- Why the model gives a situation no meaning. -/
inductive Refusal where
  /-- Raised by an arm of `exec` whose instruction has no meaning yet (none is left). Safe. -/
  | notModelled (mnemonic : String)
  /-- `refuse(OutsidePhysicalArena)` of 20_memory.md R68: an access passed its gate but is not inside the arena, possible only
  after the program raised `AL`. Raised by every instruction that touches memory and by the fetch. Safe (logs 10, 32). -/
  | outsidePhysicalArena
  /-- `refuse(FinOverrun)` of 49_host_io_data_misc.md R242: FIN with `once * count` above the declared buffer length. Raised by
  FIN only. Safe (log 26). -/
  | finOverrun
deriving DecidableEq, Repr

/-- The reset state the Loader hands over for a launch (R46, R291). -/
def State.boot (l : Launch) : State :=
  { regs := l.resetRegs, mem := l.resetMem, opmap := l.opmap, crmap := l.crmap, nphys := l.nphys, status := .running
    hostLog := [], hostSeed := l.hostSeed }

/-- The machine right after reset, with no program loaded: the load of the empty image under the default maps (logs 1, 3, 6). -/
def State.reset : State := State.boot Launch.empty

end Sys2Proof.Machine
end

