-- ==== Sys2Proof/Machine/Ops.lean ====
section
/-! DEFINITION. Sys2Proof/Machine/Ops.lean: the named operations over registers and memory, the four gates
(20_memory.md R69 to R73) and the taking of a fault (60_exceptions.md R270). -/

namespace Sys2Proof.Machine

/-- What a step or an instruction's rule answers. -/
abbrev Result := Host.Outcome State Fault Refusal

/-! ### Registers (R21) -/

/-- `Vp[r]`. -/
def State.reg (s : State) (r : RegId) : Word := s.regs[r.toNat]'r.isLt

/-- `Vp[r] <- v`. -/
def State.setReg (s : State) (r : RegId) (v : Word) : State := { s with regs := setSlot s.regs r v }

/-- `Vp[IP]` as a logical address (R31). -/
def State.ip (s : State) : Nat := (s.reg s.crmap.ip).toNat

/-- `Vp[AL]`, the `N` every gate compares with (R27). -/
def State.al (s : State) : Nat := (s.reg s.crmap.al).toNat

/-! ### Faults and the other terminal statuses -/

/-- TAKING A FAULT, `raise Fault(c)`: the status becomes `faulted(c)`; nothing is saved, no register is written and no
address is jumped to (R270). There is no return from it (R272). -/
def State.raise (s : State) (c : FaultCode) : State := { s with status := .faulted c }

/-- `status <- halted(Vp[EX])` (R112, R104, R280). -/
def State.halt (s : State) : State := { s with status := .halted (s.reg s.crmap.ex) }

/-- `status <- parked` (R246). -/
def State.park (s : State) : State := { s with status := .parked }

/-- The 8-bit code of a fault (R260). -/
def FaultCode.code : FaultCode → Byte
  | .b1 => 0xB1#8
  | .b2 => 0xB2#8
  | .b3 => 0xB3#8
  | .b4 => 0xB4#8
  | .b5 => 0xB5#8
  | .c1 => 0xC1#8
  | .c2 => 0xC2#8

/-- The process exit code an embedding reports, before it narrows it: `faulted(c)` gives `c`, `halted(v)` gives `v`, and
there is none while the core runs or when it is parked (R279). -/
def Status.processCode : Status → Option Word
  | .running => none
  | .halted v => some v
  | .faulted c => some (c.code.setWidth 64)
  | .parked => none

/-! ### Memory (R61 to R64, R68) -/

/-- The `n` bytes at `p` exist: they lie in the arena's `NPHYS` bytes (R68). An access of no byte touches none (log 10). -/
abbrev State.inArena (s : State) (p n : Nat) : Prop := n = 0 ∨ p + n ≤ s.nphys

/-- `MemRead(p, n)` (R63). -/
def State.load (s : State) (p n : Nat) : Nat := beNat (s.mem.readBytes p n)

/-- `MemWrite(p, n, v)` (R64). -/
def State.store (s : State) (p n v : Nat) : State := { s with mem := s.mem.writeBytes p (beBytes n v) }

/-- Store a byte string at `p` (R242). -/
def State.storeBytes (s : State) (p : Nat) (bs : List Byte) : State := { s with mem := s.mem.writeBytes p bs }

/-- Do `k` if the `n` bytes at `p` exist, else refuse (R68). -/
def State.access (s : State) (p n : Nat) (k : Result) : Result :=
  if s.inArena p n then k else .refused .outsidePhysicalArena

/-! ### Gates: sums are exact integers (R12) -/

/-- The instruction-pointer gate `AdvanceIp(n)`: none if it fails, else the old `IP` and the state with `IP` advanced
(R69). -/
def State.advanceIp (s : State) (n : Nat) : Option (Word × State) :=
  if s.ip + n < s.al then some (s.reg s.crmap.ip, s.setReg s.crmap.ip (BitVec.ofNat 64 (s.ip + n))) else none

/-- The stack gate `CheckStack(p, n)`: the fault of the first test that holds, none if it passes (R70). -/
def State.checkStack (s : State) (p n : Nat) : Option FaultCode :=
  if p < (s.reg s.crmap.ss).toNat then some .b2
  else if p < (s.reg s.crmap.sb).toNat then some .b3
  else if s.al ≤ p + n then some .b4
  else none

/-- The data gate `CheckData(p, n)` (R71). -/
def State.checkData (s : State) (p n : Nat) : Option FaultCode :=
  if s.al ≤ p + n then some .b1 else none

/-- The safe-address gate `CheckSafe(p)`: `p`, or `0` out of range; it never faults (R72). -/
def State.checkSafe (s : State) (p : Word) : Word := if s.al ≤ p.toNat then 0#64 else p

/-- Go on with `k` unless a gate failed; a failed gate's fault is taken in this state. -/
def State.gated (s : State) (g : Option FaultCode) (k : Result) : Result :=
  match g with
  | some c => .next (s.raise c)
  | none => k

/-- A stack access of `n` bytes at `p`: gate, then the physical limit, then `k`. -/
def State.withStack (s : State) (p n : Nat) (k : Result) : Result :=
  s.gated (s.checkStack p n) (s.access p n k)

/-- A data access of `n` bytes at `p`: gate, then the physical limit, then `k`. -/
def State.withData (s : State) (p n : Nat) (k : Result) : Result :=
  s.gated (s.checkData p n) (s.access p n k)

/-! ### The stack (46_stack_exchange.md R200) -/

/-- Push the low `8w` bits of `v`: gate at the top, write, raise the top; then `k` goes on (R200, R201). -/
def State.push (s : State) (w : Nat) (v : Word) (k : State → Result) : Result :=
  let p := s.reg s.crmap.st
  s.withStack p.toNat w (k ((s.store p.toNat w v.toNat).setReg s.crmap.st (p + BitVec.ofNat 64 w)))

/-- Pop `w` bytes: lower the top, gate at the new top, read; then `k` goes on with the zero-extended value. A failing gate
leaves the top lowered (R200, R205, R269). -/
def State.pop (s : State) (w : Nat) (k : State → Word → Result) : Result :=
  let p := s.reg s.crmap.st - BitVec.ofNat 64 w
  let s1 := s.setReg s.crmap.st p
  s1.withStack p.toNat w (k s1 (BitVec.ofNat 64 (s1.load p.toNat w)))

end Sys2Proof.Machine
end

