-- ==== Sys2Proof/Machine/Flags.lean ====
section
/-! DEFINITION. Sys2Proof/Machine/Flags.lean: the core has no flags and no condition codes (10_state.md R43). What other
machines keep in flags is a word in a destination register here: truth values (00_scope.md R9) and three-way comparison
results (43_compare.md R150). -/

namespace Sys2Proof.Machine

/-- A word is true when it is nonzero (R9). -/
def truthy (v : Word) : Bool := v != 0#64

/-- The word a truth value is written as: 1 or 0 (R151, R161, R170). -/
def boolWord (b : Bool) : Word := if b then 1#64 else 0#64

/-- The three-way result: 1 for greater, 0 for equal, `2^64 - 1` for less (R143, R150, R222). -/
def threeWay (gt eq : Bool) : Word := if gt then 1#64 else if eq then 0#64 else Word.minusOne

/-- `Than` on unsigned words (R150). -/
def thanWord (x y : Word) : Word := threeWay (decide (y.toNat < x.toNat)) (decide (x = y))

/-- `IThan`: the same on signed readings (R143). -/
def iThanWord (x y : Word) : Word := threeWay (decide (y.signed < x.signed)) (decide (x = y))

end Sys2Proof.Machine
end

