-- ==== Sys2Proof/Machine/Alu.lean ====
section
/-! DEFINITION. Sys2Proof/Machine/Alu.lean: the arithmetic of 41_arith_unsigned.md, 42_arith_signed.md, 44_bitwise_shift.md and
48_convert.md on words: computed exactly on integers, then narrowed modulo `2^64`. -/

namespace Sys2Proof.Machine

/-- The shift and rotate amount: the low 6 bits of the amount register (R160). -/
def shiftAmount (v : Word) : Nat := v.toNat % 64

/-- Left shift by `k`: `(x * 2^k) mod 2^64` (R146, R165). -/
def shiftLeft (x : Word) (k : Nat) : Word := BitVec.ofNat 64 (x.toNat * 2 ^ k)

/-- Logical right shift by `k`: `x div 2^k` (R166). -/
def shiftRight (x : Word) (k : Nat) : Word := BitVec.ofNat 64 (x.toNat / 2 ^ k)

/-- Arithmetic right shift by `k`: the floor of the signed quotient (R147). -/
def shiftRightSigned (x : Word) (k : Nat) : Word := Word.ofSigned (Int.fdiv x.signed (2 ^ k))

/-- Rotate left by `k < 64` (R167). -/
def rotateLeft (x : Word) (k : Nat) : Word :=
  BitVec.ofNat 64 (x.toNat * 2 ^ k % 2 ^ 64 + x.toNat / 2 ^ (64 - k))

/-- Rotate right by `k < 64` (R168). -/
def rotateRight (x : Word) (k : Nat) : Word :=
  BitVec.ofNat 64 (x.toNat / 2 ^ k + x.toNat * 2 ^ (64 - k) % 2 ^ 64)

/-- The quotient of `IDiv`, rounded toward zero and wrapped (R142). -/
def iDivQuotient (x y : Word) : Word := Word.ofSigned (Int.tdiv x.signed y.signed)

/-- The remainder of `IDiv`: `x - quo * y`, with the sign of the dividend (R142). -/
def iDivRemainder (x y : Word) : Word := Word.ofSigned (x.signed - Int.tdiv x.signed y.signed * y.signed)

/-- The number the low `n` BCD digits of `b` spell, each digit's value taken as it is (R231). -/
def bcdToNat : Nat → Nat → Nat
  | 0, _ => 0
  | n + 1, b => b % 16 + 10 * bcdToNat n (b / 16)

/-- The low `n` decimal digits of `x` as packed BCD (R232). -/
def natToBcd : Nat → Nat → Nat
  | 0, _ => 0
  | n + 1, x => x % 10 + 16 * natToBcd n (x / 10)

/-- BCD to binary, 16 digits (R231). -/
def bcdToWord (b : Word) : Word := BitVec.ofNat 64 (bcdToNat 16 b.toNat)

/-- Binary to BCD, 16 digits, higher digits dropped (R232). -/
def wordToBcd (x : Word) : Word := BitVec.ofNat 64 (natToBcd 16 x.toNat)

/-- Sign-magnitude pair to native signed: a nonzero flag means positive (R233). -/
def signToNative (mag flag : Word) : Word := if truthy flag then mag else 0#64 - mag

/-- Native signed to magnitude (R234). -/
def nativeMagnitude (x : Word) : Word := if 0 ≤ x.signed then x else 0#64 - x

/-- Native signed to sign flag: 1 for zero or positive, 0 for negative (R234). -/
def nativeFlag (x : Word) : Word := boolWord (decide (0 ≤ x.signed))

end Sys2Proof.Machine
end

