-- ==== Sys2Proof/Machine/Unsigned.lean ====
section
/-! DEFINITION. Sys2Proof/Machine/Unsigned.lean: Add, Sub, Mul, Div, Inc, Dec (41_arith_unsigned.md): results modulo `2^64`,
no flag, no fault but division by zero (R130). -/

namespace Sys2Proof.Machine

/-- Write one register and go on: the shape of every instruction that computes a word and cannot fail. -/
def State.result (s : State) (d : RegId) (v : Word) : Result := .next (s.setReg d v)

/-- `Add d, a, b` (R131). -/
def execAdd (d a b : RegId) (s : State) : Result := s.result d (s.reg a + s.reg b)

/-- `Sub d, a, b` (R132). -/
def execSub (d a b : RegId) (s : State) : Result := s.result d (s.reg a - s.reg b)

/-- `Mul d, a, b`: the low 64 bits of the product (R133). -/
def execMul (d a b : RegId) (s : State) : Result := s.result d (s.reg a * s.reg b)

/-- Quotient and remainder into two registers, the quotient first, so that a shared destination ends with the remainder
(R134, R142); division by zero is fatal before either is written (R267). -/
def State.divide (s : State) (q r : RegId) (divisor quo rem : Word) : Result :=
  if divisor = 0#64 then .next (s.raise .c2) else .next ((s.setReg q quo).setReg r rem)

/-- `Div q, r, a, b` (R134). -/
def execDiv (q r a b : RegId) (s : State) : Result :=
  let x := s.reg a
  let y := s.reg b
  s.divide q r y (BitVec.ofNat 64 (x.toNat / y.toNat)) (BitVec.ofNat 64 (x.toNat % y.toNat))

/-- `Inc d` (R135). -/
def execInc (d : RegId) (s : State) : Result := s.result d (s.reg d + 1#64)

/-- `Dec d` (R136). -/
def execDec (d : RegId) (s : State) : Result := s.result d (s.reg d - 1#64)

end Sys2Proof.Machine
end

