-- ==== Sys2Proof/Machine/Bitwise.lean ====
section
/-! DEFINITION. Sys2Proof/Machine/Bitwise.lean: Not, And, Or, Xor, LMov, RMov, ROL, ROR, Complement, ToBool
(44_bitwise_shift.md). -/

namespace Sys2Proof.Machine

/-- `Not d, a`: logical negation (R161). -/
def execNot (d a : RegId) (s : State) : Result := s.result d (boolWord (!truthy (s.reg a)))

/-- `And d, a, b` (R162). -/
def execAnd (d a b : RegId) (s : State) : Result := s.result d (s.reg a &&& s.reg b)

/-- `Or d, a, b` (R163). -/
def execOr (d a b : RegId) (s : State) : Result := s.result d (s.reg a ||| s.reg b)

/-- `Xor d, a, b` (R164). -/
def execXor (d a b : RegId) (s : State) : Result := s.result d (s.reg a ^^^ s.reg b)

/-- `LMov d, a, s` (R165). -/
def execLMov (d a k : RegId) (s : State) : Result := s.result d (shiftLeft (s.reg a) (shiftAmount (s.reg k)))

/-- `RMov d, a, s` (R166). -/
def execRMov (d a k : RegId) (s : State) : Result := s.result d (shiftRight (s.reg a) (shiftAmount (s.reg k)))

/-- `ROL d, a, s` (R167). -/
def execRol (d a k : RegId) (s : State) : Result := s.result d (rotateLeft (s.reg a) (shiftAmount (s.reg k)))

/-- `ROR d, a, s` (R168). -/
def execRor (d a k : RegId) (s : State) : Result := s.result d (rotateRight (s.reg a) (shiftAmount (s.reg k)))

/-- `Complement d, a`: every bit inverted (R169). UNVERIFIED: the spec's decision D14 (log 19). -/
def execComplement (d a : RegId) (s : State) : Result := s.result d (s.reg a ^^^ 0xFFFFFFFFFFFFFFFF#64)

/-- `ToBool d, a` (R170). -/
def execToBool (d a : RegId) (s : State) : Result := s.result d (boolWord (truthy (s.reg a)))

end Sys2Proof.Machine
end

