-- ==== Sys2Proof/Machine/Operands.lean ====
section
/-! DEFINITION. Sys2Proof/Machine/Operands.lean: the operand forms (30_encoding.md R91, 45_move_memory.md R180): a register that
holds a value, a register that holds an address, a literal; and the widths of the sized families (00_scope.md R7). The address
of the next instruction is what a source operand `IP` reads, since `exec` starts with `IP` moved past the instruction
(10_state.md R39). -/

namespace Sys2Proof.Machine

/-- A register operand that holds an address or a count, as a natural number. -/
def State.regNat (s : State) (r : RegId) : Nat := (s.reg r).toNat

/-- `trunc_w(v)`: the low `8w` bits, zero-extended (R7, R180). -/
def truncTo (w : Nat) (v : Word) : Word := BitVec.ofNat 64 (v.toNat % 256 ^ w)

/-- `trunc_w(v)` as a natural number. -/
def truncNat (w : Nat) (v : Word) : Nat := v.toNat % 256 ^ w

/-- The word `v` with its low `8w` bits replaced by `cell` (46_stack_exchange.md R210). -/
def mergeLow (w : Nat) (v : Word) (cell : Nat) : Word := BitVec.ofNat 64 (v.toNat - v.toNat % 256 ^ w + cell)

/-- The effective address of `LEA`: `(base + index * scale) mod 2^64` (R197). -/
def leaAddress (base index scale : Word) : Word := base + index * scale

end Sys2Proof.Machine
end

