-- ==== Sys2Proof/Machine/Block.lean ====
section
/-! DEFINITION. Sys2Proof/Machine/Block.lean: MOVS, CMPS and SCAS in the widths 1, 2, 4, 8 (47_block.md). Each whole range passes
the data gate before the first byte is touched; a count of 0 still passes its ranges through the gate (R220; UNVERIFIED, the
spec's decisions D17 and D18: log 21). -/

namespace Sys2Proof.Machine

/-- `MOVS d, s, n`: gates over source then destination, then the forward copy (R221). -/
def execMovs (d src n : RegId) (s : State) : Result :=
  let dst := s.regNat d
  let from' := s.regNat src
  let cnt := s.regNat n
  s.gated (s.checkData from' cnt) (s.gated (s.checkData dst cnt)
    (s.access from' cnt (s.access dst cnt (.next { s with mem := s.mem.copyForward dst from' cnt }))))

/-- Lexicographic comparison of two byte strings as unsigned bytes: the first difference decides (R222). -/
def compareBytes : List Byte → List Byte → Word
  | x :: xs, y :: ys =>
    if x.toNat < y.toNat then Word.minusOne
    else if y.toNat < x.toNat then 1#64
    else compareBytes xs ys
  | _, _ => 0#64

/-- `CMPS d, a, b, n` (R222). The physical limit is tested for both whole ranges, also where an earlier difference would stop
the comparison inside the arena. DESIGN CHOICE (log 32). -/
def execCmps (d a b n : RegId) (s : State) : Result :=
  let pa := s.regNat a
  let pb := s.regNat b
  let cnt := s.regNat n
  s.gated (s.checkData pa cnt) (s.gated (s.checkData pb cnt)
    (s.access pa cnt (s.access pb cnt
      (s.result d (compareBytes (s.mem.readBytes pa cnt) (s.mem.readBytes pb cnt))))))

/-- The index, counted from `i`, of the first of `n` elements of `w` bytes at `p` that equals `key`; the sentinel
`2^64 - 1` if there is none (R223). -/
def scanFrom (m : Memory) (w key : Nat) : Nat → Nat → Nat → Word
  | _, _, 0 => Word.minusOne
  | p, i, n + 1 =>
    if beNat (m.readBytes p w) = key then BitVec.ofNat 64 i else scanFrom m w key (p + w) (i + 1) n

/-- Search an `n`-element range for a key truncated to the element width (R223 to R226). The physical limit is tested for the
whole range, also where an earlier match would stop the search inside the arena. DESIGN CHOICE (log 32). -/
def State.scan (s : State) (w : Nat) (d a n v : RegId) : Result :=
  let p := s.regNat a
  let cnt := s.regNat n
  s.withData p (cnt * w) (s.result d (scanFrom s.mem w (truncNat w (s.reg v)) p 0 cnt))

/-- `SCAS1 d, a, n, v` (R223). -/
def execScas1 (d a n v : RegId) (s : State) : Result := s.scan 1 d a n v

/-- `SCAS2 d, a, n, v` (R224). -/
def execScas2 (d a n v : RegId) (s : State) : Result := s.scan 2 d a n v

/-- `SCAS4 d, a, n, v` (R225). -/
def execScas4 (d a n v : RegId) (s : State) : Result := s.scan 4 d a n v

/-- `SCAS8 d, a, n, v` (R226). -/
def execScas8 (d a n v : RegId) (s : State) : Result := s.scan 8 d a n v

end Sys2Proof.Machine
end

