-- ==== Sys2Proof/Machine/Compare.lean ====
section
/-! DEFINITION. Sys2Proof/Machine/Compare.lean: Than, Less, More (43_compare.md). -/

namespace Sys2Proof.Machine

/-- `Than d, a, b` (R150). -/
def execThan (d a b : RegId) (s : State) : Result := s.result d (thanWord (s.reg a) (s.reg b))

/-- `Less d, a, b` (R151). -/
def execLess (d a b : RegId) (s : State) : Result :=
  s.result d (boolWord (decide ((s.reg a).toNat < (s.reg b).toNat)))

/-- `More d, a, b` (R152). -/
def execMore (d a b : RegId) (s : State) : Result :=
  s.result d (boolWord (decide ((s.reg b).toNat < (s.reg a).toNat)))

end Sys2Proof.Machine
end

