-- ==== Sys2Proof/Machine/Control.lean ====
section
/-! DEFINITION. Sys2Proof/Machine/Control.lean: NOP, Exit, Goto, IfGo, IfNG, SvIp, Loop, Call, Ret (40_control.md). In every
meaning of the model `Vp[IP]` already holds the address of the next instruction (R110). -/

namespace Sys2Proof.Machine

/-- `NOP`: no effect but the advance of `IP` (R111). -/
def execNop (s : State) : Result := .next s

/-- `Exit` (R112). -/
def execExit (s : State) : Result := .next s.halt

/-- A jump: the target is written to `IP` unchecked (R120). -/
def State.jump (s : State) (target : Word) : State := s.setReg s.crmap.ip target

/-- A jump taken or not. -/
def State.jumpIf (s : State) (taken : Bool) (target : Word) : State := if taken then s.jump target else s

/-- `Goto t` (R113). -/
def execGoto (t : RegId) (s : State) : Result := .next (s.jump (s.reg t))

/-- `IfGo c, t`: jump when the condition register is true (R114). -/
def execIfGo (c t : RegId) (s : State) : Result := .next (s.jumpIf (truthy (s.reg c)) (s.reg t))

/-- `IfNG c, t`: jump when the condition register is false (R115). -/
def execIfNG (c t : RegId) (s : State) : Result := .next (s.jumpIf (!truthy (s.reg c)) (s.reg t))

/-- `SvIp d` (R116). -/
def execSvIp (d : RegId) (s : State) : Result := .next (s.setReg d (s.reg s.crmap.ip))

/-- `Loop c, t`: decrement, then jump while the new value is nonzero (R117). UNVERIFIED reading of "post-decrement test":
the spec's decision D15 (log 20). -/
def execLoop (c t : RegId) (s : State) : Result :=
  let count := s.reg c - 1#64
  .next ((s.setReg c count).jumpIf (truthy count) (s.reg t))

/-- `Call t`: the target is read, the address of the next instruction pushed, then the jump made (R118). -/
def execCall (t : RegId) (s : State) : Result :=
  let target := s.reg t
  s.push 8 (s.reg s.crmap.ip) fun s' => .next (s'.jump target)

/-- `Ret`: pop 8 bytes into `IP` (R119). -/
def execRet (s : State) : Result := s.pop 8 fun s' v => .next (s'.jump v)

end Sys2Proof.Machine
end

