-- ==== Sys2Proof/Machine/Convert.lean ====
section
/-! DEFINITION. Sys2Proof/Machine/Convert.lean: BcdT, BcdF, SignT, SignF (48_convert.md). Digit order, invalid nibbles and the
direction of the sign pair are the spec's decisions D19 and D20, UNVERIFIED (log 22). -/

namespace Sys2Proof.Machine

/-- `BcdT d, a`: BCD to binary (R231). -/
def execBcdT (d a : RegId) (s : State) : Result := s.result d (bcdToWord (s.reg a))

/-- `BcdF d, a`: binary to BCD (R232). -/
def execBcdF (d a : RegId) (s : State) : Result := s.result d (wordToBcd (s.reg a))

/-- `SignT d, m, f`: sign-magnitude pair to native signed (R233). -/
def execSignT (d m f : RegId) (s : State) : Result := s.result d (signToNative (s.reg m) (s.reg f))

/-- `SignF dm, df, a`: native signed to the pair, the flag written last (R234). -/
def execSignF (dm df a : RegId) (s : State) : Result :=
  let x := s.reg a
  .next ((s.setReg dm (nativeMagnitude x)).setReg df (nativeFlag x))

end Sys2Proof.Machine
end

