-- ==== Sys2Proof/Machine/HostIo.lean ====
section
/-! DEFINITION. Sys2Proof/Machine/HostIo.lean: FOPEN, FIN, FOUT, Data, HTL (49_host_io_data_misc.md). The host's answers are the
free values of Config, bounded as R240 bounds them (log 8); each call is recorded in `hostLog`. -/

namespace Sys2Proof.Machine

/-- Record a finished exchange on the host port. -/
def State.logHost (s : State) (e : Config.HostExchange) : State := { s with hostLog := e :: s.hostLog }

/-- The exchange opened this handle. -/
def openedHandle (h : Word) : Config.HostExchange → Bool
  | .opened _ _ _ handle => decide (handle = h)
  | .read _ _ _ => false
  | .wrote _ _ _ => false

/-- The host may know this handle: one of the three standard streams, or a value FOPEN returned; any other is a value the
host does not know (R244). DEDUCED (log 9). -/
def State.handleKnown (s : State) (h : Word) : Bool :=
  decide (h.toNat < 3) || s.hostLog.any (openedHandle h)

/-- `HostRead(h, max)`: a byte string of at most `max` bytes, any such string for a handle the host may know, the empty one
for another (R240, R244). -/
def State.hostRead (s : State) (h : Word) (max : Nat) : List Byte :=
  if s.handleKnown h then (Config.hostRead s.hostSeed s.hostLog h max).take max else []

/-- `HostWrite(h, bytes)`: a count of at most the string's length, 0 for a handle the host does not know (R240, R244). -/
def State.hostWrite (s : State) (h : Word) (bytes : List Byte) : Nat :=
  if s.handleKnown h then min (Config.hostWrite s.hostSeed s.hostLog h bytes) bytes.length else 0

/-- How many complete elements of `once` bytes there are in `k` bytes, 0 when `once` is 0 (R242, R243). -/
def completeElements (once k : Nat) : Word := if once = 0 then 0#64 else BitVec.ofNat 64 (k / once)

/-- `FOPEN d, pa, pl, ma, ml`: both ranges are gated, the host is asked, its error code goes to `ER` and its handle to `d`
(R241). -/
def execFopen (d pa pl ma ml : RegId) (s : State) : Result :=
  let pA := s.regNat pa
  let pL := s.regNat pl
  let mA := s.regNat ma
  let mL := s.regNat ml
  s.gated (s.checkData pA pL) (s.gated (s.checkData mA mL) (s.access pA pL (s.access mA mL
    (let path := s.mem.readBytes pA pL
     let mode := s.mem.readBytes mA mL
     let ans := Config.hostOpen s.hostSeed s.hostLog path mode
     .next (((s.logHost (.opened path mode ans.1 ans.2)).setReg s.crmap.er ans.1).setReg d ans.2)))))

/-- `FIN d, h, b, l, o, c`: the declared buffer is gated, a request above its length is refused, the delivered bytes are
stored and the complete elements counted (R242). The physical limit holds for the bytes delivered; they are at most `total`,
so the first test below only spares looking at how many they are (log 10). -/
def execFin (d h b l o c : RegId) (s : State) : Result :=
  let buf := s.regNat b
  let len := s.regNat l
  let once := s.regNat o
  let total := once * s.regNat c
  let handle := s.reg h
  s.gated (s.checkData buf len)
    (if len < total then .refused .finOverrun
     else
       let bytes := s.hostRead handle total
       if s.inArena buf total ∨ s.inArena buf bytes.length then
         .next (((s.logHost (.read handle total bytes)).storeBytes buf bytes).setReg d (completeElements once bytes.length))
       else .refused .outsidePhysicalArena)

/-- `FOUT d, h, b, l, o, c`: the declared buffer is gated; a request above its length stores 0 and asks nobody; else the host
is given the bytes and the complete elements it took are counted (R243). -/
def execFout (d h b l o c : RegId) (s : State) : Result :=
  let buf := s.regNat b
  let len := s.regNat l
  let once := s.regNat o
  let total := once * s.regNat c
  let handle := s.reg h
  s.gated (s.checkData buf len)
    (if len < total then s.result d 0#64
     else s.access buf total
       (let bytes := s.mem.readBytes buf total
        let k := s.hostWrite handle bytes
        (s.logHost (.wrote handle bytes k)).result d (completeElements once k)))

/-- `Data d, len, payload`: the payload is skipped through the instruction-pointer gate and its address stored; a failing
skip faults with `d` unwritten (R245). The byte-level contract, without the source's "additional adjustment": the spec's
decision D22, UNVERIFIED (log 24). -/
def execData (d : RegId) (len : Word) (s : State) : Result :=
  match s.advanceIp len.toNat with
  | none => .next (s.raise .b5)
  | some (addr, s') => s'.result d addr

/-- `HTL` (R246). -/
def execHtl (s : State) : Result := .next s.park

end Sys2Proof.Machine
end

