-- ==== Sys2Proof/Machine/Move.lean ====
section
/-! DEFINITION. Sys2Proof/Machine/Move.lean: Mov, Set, Get, Wrt in the widths 1, 2, 4, 8, and LEA (45_move_memory.md). A narrow
result is zero-extended into the whole destination, a narrow store truncates (R180; the upper bits are the spec's decision
D9, UNVERIFIED: log 15). -/

namespace Sys2Proof.Machine

/-- Copy the low `8w` bits of a register (R181 to R184). -/
def State.move (s : State) (w : Nat) (d src : RegId) : Result := s.result d (truncTo w (s.reg src))

/-- Load `w` bytes from the address a register holds (R189 to R192). -/
def State.loadReg (s : State) (w : Nat) (d a : RegId) : Result :=
  let p := s.regNat a
  s.withData p w (s.result d (BitVec.ofNat 64 (s.load p w)))

/-- Store the low `8w` bits of a register at the address another holds (R193 to R196). -/
def State.storeReg (s : State) (w : Nat) (a src : RegId) : Result :=
  let p := s.regNat a
  s.withData p w (.next (s.store p w (s.regNat src)))

/-- `Mov1 d, s` (R181). -/
def execMov1 (d src : RegId) (s : State) : Result := s.move 1 d src

/-- `Mov2 d, s` (R182). -/
def execMov2 (d src : RegId) (s : State) : Result := s.move 2 d src

/-- `Mov4 d, s` (R183). -/
def execMov4 (d src : RegId) (s : State) : Result := s.move 4 d src

/-- `Mov8 d, s` (R184). -/
def execMov8 (d src : RegId) (s : State) : Result := s.move 8 d src

/-- `Set1 d, #lit`: the literal, zero-extended (R185). -/
def execSet1 (d : RegId) (lit : Word) (s : State) : Result := s.result d (truncTo 1 lit)

/-- `Set2 d, #lit`: the literal, zero-extended (R186). -/
def execSet2 (d : RegId) (lit : Word) (s : State) : Result := s.result d (truncTo 2 lit)

/-- `Set4 d, #lit`: the literal, zero-extended (R187). -/
def execSet4 (d : RegId) (lit : Word) (s : State) : Result := s.result d (truncTo 4 lit)

/-- `Set8 d, #lit`: the literal, zero-extended (R188). -/
def execSet8 (d : RegId) (lit : Word) (s : State) : Result := s.result d lit

/-- `Get1 d, a` (R189). -/
def execGet1 (d a : RegId) (s : State) : Result := s.loadReg 1 d a

/-- `Get2 d, a` (R190). -/
def execGet2 (d a : RegId) (s : State) : Result := s.loadReg 2 d a

/-- `Get4 d, a` (R191). -/
def execGet4 (d a : RegId) (s : State) : Result := s.loadReg 4 d a

/-- `Get8 d, a` (R192). -/
def execGet8 (d a : RegId) (s : State) : Result := s.loadReg 8 d a

/-- `Wrt1 a, s` (R193). -/
def execWrt1 (a src : RegId) (s : State) : Result := s.storeReg 1 a src

/-- `Wrt2 a, s` (R194). -/
def execWrt2 (a src : RegId) (s : State) : Result := s.storeReg 2 a src

/-- `Wrt4 a, s` (R195). -/
def execWrt4 (a src : RegId) (s : State) : Result := s.storeReg 4 a src

/-- `Wrt8 a, s` (R196). -/
def execWrt8 (a src : RegId) (s : State) : Result := s.storeReg 8 a src

/-- `LEA d, b, i, k`: base plus index times scale, `0` when out of range (R197). -/
def execLea (d b i k : RegId) (s : State) : Result :=
  s.result d (s.checkSafe (leaAddress (s.reg b) (s.reg i) (s.reg k)))

end Sys2Proof.Machine
end

