-- ==== Sys2Proof/Machine/Signed.lean ====
section
/-! DEFINITION. Sys2Proof/Machine/Signed.lean: IMul, IDiv, IThan, ILess, IMore, ILMov, IRMov (42_arith_signed.md): sources read as
two's complement, results wrapped (R140; UNVERIFIED, the spec's decisions D11 and D12: logs 17, 18). -/

namespace Sys2Proof.Machine

/-- `IMul d, a, b` (R141). -/
def execIMul (d a b : RegId) (s : State) : Result :=
  s.result d (Word.ofSigned ((s.reg a).signed * (s.reg b).signed))

/-- `IDiv q, r, a, b`: truncation toward zero (R142). -/
def execIDiv (q r a b : RegId) (s : State) : Result :=
  let x := s.reg a
  let y := s.reg b
  s.divide q r y (iDivQuotient x y) (iDivRemainder x y)

/-- `IThan d, a, b` (R143). -/
def execIThan (d a b : RegId) (s : State) : Result := s.result d (iThanWord (s.reg a) (s.reg b))

/-- `ILess d, a, b` (R144). -/
def execILess (d a b : RegId) (s : State) : Result :=
  s.result d (boolWord (decide ((s.reg a).signed < (s.reg b).signed)))

/-- `IMore d, a, b` (R145). -/
def execIMore (d a b : RegId) (s : State) : Result :=
  s.result d (boolWord (decide ((s.reg b).signed < (s.reg a).signed)))

/-- `ILMov d, a, s` (R146). -/
def execILMov (d a k : RegId) (s : State) : Result := s.result d (shiftLeft (s.reg a) (shiftAmount (s.reg k)))

/-- `IRMov d, a, s` (R147). -/
def execIRMov (d a k : RegId) (s : State) : Result := s.result d (shiftRightSigned (s.reg a) (shiftAmount (s.reg k)))

end Sys2Proof.Machine
end

