-- ==== Sys2Proof/Machine/Stack.lean ====
section
/-! DEFINITION. Sys2Proof/Machine/Stack.lean: Psh, Pop, XCHG in the widths 1, 2, 4, 8, and Swap (46_stack_exchange.md). -/

namespace Sys2Proof.Machine

/-- Push the low `8w` bits of a register (R201 to R204). -/
def State.pushReg (s : State) (w : Nat) (src : RegId) : Result := s.push w (s.reg src) fun s' => .next s'

/-- Pop `w` bytes into a register, zero-extended; the register is written after `ST` (R205 to R208). -/
def State.popReg (s : State) (w : Nat) (d : RegId) : Result := s.pop w fun s' v => s'.result d v

/-- Exchange the low `8w` bits of a register with the `w` bytes at an address; the register's upper bits stay
(R210 to R213). -/
def State.exchange (s : State) (w : Nat) (x a : RegId) : Result :=
  let v := s.reg x
  let p := s.regNat a
  s.withData p w (.next ((s.store p w v.toNat).setReg x (mergeLow w v (s.load p w))))

/-- `Psh1 s` (R201). -/
def execPsh1 (src : RegId) (s : State) : Result := s.pushReg 1 src

/-- `Psh2 s` (R202). -/
def execPsh2 (src : RegId) (s : State) : Result := s.pushReg 2 src

/-- `Psh4 s` (R203). -/
def execPsh4 (src : RegId) (s : State) : Result := s.pushReg 4 src

/-- `Psh8 s` (R204). -/
def execPsh8 (src : RegId) (s : State) : Result := s.pushReg 8 src

/-- `Pop1 d` (R205). -/
def execPop1 (d : RegId) (s : State) : Result := s.popReg 1 d

/-- `Pop2 d` (R206). -/
def execPop2 (d : RegId) (s : State) : Result := s.popReg 2 d

/-- `Pop4 d` (R207). -/
def execPop4 (d : RegId) (s : State) : Result := s.popReg 4 d

/-- `Pop8 d` (R208). -/
def execPop8 (d : RegId) (s : State) : Result := s.popReg 8 d

/-- `XCHG1 x, a` (R210). -/
def execXchg1 (x a : RegId) (s : State) : Result := s.exchange 1 x a

/-- `XCHG2 x, a` (R211). -/
def execXchg2 (x a : RegId) (s : State) : Result := s.exchange 2 x a

/-- `XCHG4 x, a` (R212). -/
def execXchg4 (x a : RegId) (s : State) : Result := s.exchange 4 x a

/-- `XCHG8 x, a` (R213). -/
def execXchg8 (x a : RegId) (s : State) : Result := s.exchange 8 x a

/-- `Swap x, y` (R214). -/
def execSwap (x y : RegId) (s : State) : Result := .next ((s.setReg x (s.reg y)).setReg y (s.reg x))

end Sys2Proof.Machine
end

