-- ==== Sys2Proof/Machine/Dispatch.lean ====
section
/-! DEFINITION. Sys2Proof/Machine/Dispatch.lean: one arm per instruction, each a direct call of its meaning. -/

namespace Sys2Proof.Machine

def exec (i : Instr) (s : State) : Host.Outcome State Fault Refusal :=
  match i with
  | .nop => Sys2Proof.Machine.execNop s
  | .exit => Sys2Proof.Machine.execExit s
  | .goto t => Sys2Proof.Machine.execGoto t s
  | .ifGo c t => Sys2Proof.Machine.execIfGo c t s
  | .ifNG c t => Sys2Proof.Machine.execIfNG c t s
  | .svIp d => Sys2Proof.Machine.execSvIp d s
  | .loop c t => Sys2Proof.Machine.execLoop c t s
  | .call t => Sys2Proof.Machine.execCall t s
  | .ret => Sys2Proof.Machine.execRet s
  | .htl => Sys2Proof.Machine.execHtl s
  | .data d len => Sys2Proof.Machine.execData d len s
  | .add d a b => Sys2Proof.Machine.execAdd d a b s
  | .sub d a b => Sys2Proof.Machine.execSub d a b s
  | .mul d a b => Sys2Proof.Machine.execMul d a b s
  | .div q r a b => Sys2Proof.Machine.execDiv q r a b s
  | .inc d => Sys2Proof.Machine.execInc d s
  | .dec d => Sys2Proof.Machine.execDec d s
  | .iMul d a b => Sys2Proof.Machine.execIMul d a b s
  | .iDiv q r a b => Sys2Proof.Machine.execIDiv q r a b s
  | .iThan d a b => Sys2Proof.Machine.execIThan d a b s
  | .iLess d a b => Sys2Proof.Machine.execILess d a b s
  | .iMore d a b => Sys2Proof.Machine.execIMore d a b s
  | .iLMov d a k => Sys2Proof.Machine.execILMov d a k s
  | .iRMov d a k => Sys2Proof.Machine.execIRMov d a k s
  | .than d a b => Sys2Proof.Machine.execThan d a b s
  | .less d a b => Sys2Proof.Machine.execLess d a b s
  | .more d a b => Sys2Proof.Machine.execMore d a b s
  | .not d a => Sys2Proof.Machine.execNot d a s
  | .and d a b => Sys2Proof.Machine.execAnd d a b s
  | .or d a b => Sys2Proof.Machine.execOr d a b s
  | .xor d a b => Sys2Proof.Machine.execXor d a b s
  | .lMov d a k => Sys2Proof.Machine.execLMov d a k s
  | .rMov d a k => Sys2Proof.Machine.execRMov d a k s
  | .rol d a k => Sys2Proof.Machine.execRol d a k s
  | .ror d a k => Sys2Proof.Machine.execRor d a k s
  | .complement d a => Sys2Proof.Machine.execComplement d a s
  | .toBool d a => Sys2Proof.Machine.execToBool d a s
  | .mov1 d k => Sys2Proof.Machine.execMov1 d k s
  | .mov2 d k => Sys2Proof.Machine.execMov2 d k s
  | .mov4 d k => Sys2Proof.Machine.execMov4 d k s
  | .mov8 d k => Sys2Proof.Machine.execMov8 d k s
  | .set1 d lit => Sys2Proof.Machine.execSet1 d lit s
  | .set2 d lit => Sys2Proof.Machine.execSet2 d lit s
  | .set4 d lit => Sys2Proof.Machine.execSet4 d lit s
  | .set8 d lit => Sys2Proof.Machine.execSet8 d lit s
  | .get1 d a => Sys2Proof.Machine.execGet1 d a s
  | .get2 d a => Sys2Proof.Machine.execGet2 d a s
  | .get4 d a => Sys2Proof.Machine.execGet4 d a s
  | .get8 d a => Sys2Proof.Machine.execGet8 d a s
  | .wrt1 a k => Sys2Proof.Machine.execWrt1 a k s
  | .wrt2 a k => Sys2Proof.Machine.execWrt2 a k s
  | .wrt4 a k => Sys2Proof.Machine.execWrt4 a k s
  | .wrt8 a k => Sys2Proof.Machine.execWrt8 a k s
  | .lea d b x k => Sys2Proof.Machine.execLea d b x k s
  | .psh1 k => Sys2Proof.Machine.execPsh1 k s
  | .psh2 k => Sys2Proof.Machine.execPsh2 k s
  | .psh4 k => Sys2Proof.Machine.execPsh4 k s
  | .psh8 k => Sys2Proof.Machine.execPsh8 k s
  | .pop1 d => Sys2Proof.Machine.execPop1 d s
  | .pop2 d => Sys2Proof.Machine.execPop2 d s
  | .pop4 d => Sys2Proof.Machine.execPop4 d s
  | .pop8 d => Sys2Proof.Machine.execPop8 d s
  | .xchg1 x a => Sys2Proof.Machine.execXchg1 x a s
  | .xchg2 x a => Sys2Proof.Machine.execXchg2 x a s
  | .xchg4 x a => Sys2Proof.Machine.execXchg4 x a s
  | .xchg8 x a => Sys2Proof.Machine.execXchg8 x a s
  | .swap x y => Sys2Proof.Machine.execSwap x y s
  | .movs d k n => Sys2Proof.Machine.execMovs d k n s
  | .cmps d a b n => Sys2Proof.Machine.execCmps d a b n s
  | .scas1 d a n v => Sys2Proof.Machine.execScas1 d a n v s
  | .scas2 d a n v => Sys2Proof.Machine.execScas2 d a n v s
  | .scas4 d a n v => Sys2Proof.Machine.execScas4 d a n v s
  | .scas8 d a n v => Sys2Proof.Machine.execScas8 d a n v s
  | .bcdT d a => Sys2Proof.Machine.execBcdT d a s
  | .bcdF d a => Sys2Proof.Machine.execBcdF d a s
  | .signT d m f => Sys2Proof.Machine.execSignT d m f s
  | .signF dm df a => Sys2Proof.Machine.execSignF dm df a s
  | .fopen d pa pl ma ml => Sys2Proof.Machine.execFopen d pa pl ma ml s
  | .fin d h b l o c => Sys2Proof.Machine.execFin d h b l o c s
  | .fout d h b l o c => Sys2Proof.Machine.execFout d h b l o c s

end Sys2Proof.Machine
end

