-- ==== Sys2Proof/Machine/Fetch.lean ====
section
/-! DEFINITION. Sys2Proof/Machine/Fetch.lean: fetching an instruction's bytes through the instruction-pointer gate, one gate call
per field (30_encoding.md R101, R104). -/

namespace Sys2Proof.Machine

/-- What a fetch answers: a value and the state with `IP` moved past it, or the outcome that ends the step. -/
inductive Fetched (α : Type) where
  | got (v : α) (s : State)
  | stopped (o : Result)

/-- One field of `n` bytes, big-endian: the gate, then the physical limit (R101, R68). A failing gate takes the fault 0xb5
with `IP` where the last successful call put it (R265, R269). -/
def State.fetchField (s : State) (n : Nat) : Fetched Nat :=
  match s.advanceIp n with
  | none => .stopped (.next (s.raise .b5))
  | some (p, s') =>
    if s.inArena p.toNat n then .got (s.load p.toNat n) s' else .stopped (.refused .outsidePhysicalArena)

/-- The fields of the given widths, in stream order. -/
def State.fetchFields (s : State) : List Nat → Fetched (List Nat)
  | [] => .got [] s
  | w :: ws =>
    match s.fetchField w with
    | .stopped o => .stopped o
    | .got v s1 =>
      match s1.fetchFields ws with
      | .stopped o => .stopped o
      | .got vs s2 => .got (v :: vs) s2

/-- The instruction at `IP` under the core's opcode map: the opcode byte, the fault 0xc1 if it is unknown, then its fields (R98,
R104). -/
def State.fetchInstr (s : State) : Fetched Instr :=
  match s.fetchField 1 with
  | .stopped o => .stopped o
  | .got op s1 =>
    match formOf s.opmap (BitVec.ofNat 8 op) with
    | none => .stopped (.next (s1.raise .c1))
    | some f =>
      match s1.fetchFields f.widths with
      | .stopped o => .stopped o
      | .got vs s2 => .got (f.build vs) s2

/-- The state with these bytes stored where the next instruction is fetched, running, with an arena that reaches at least one
byte beyond them, since the gate needs one (R297). Only what such a fetch needs is changed: `NPHYS` and `AL` are raised where
they are too small. -/
def State.placeAtIp (s : State) (bs : List Byte) : State :=
  let top := s.ip + bs.length + 1
  let s1 := { s with mem := s.mem.writeBytes s.ip bs, nphys := max s.nphys top, status := .running }
  if s.al < top then s1.setReg s.crmap.al (BitVec.ofNat 64 top) else s1

/-- The state with a table word placed where the next instruction is fetched. It is a word of the default map, so that map is
set too. -/
def State.placeTableWord (s : State) (nbits w : Nat) : State :=
  State.placeAtIp { s with opmap := Opmap.default } (layoutTableWord nbits w)

end Sys2Proof.Machine
end

