-- ==== Sys2Proof/Machine/Engine.lean ====
section
/-! DEFINITION. Sys2Proof/Machine/Engine.lean: one step of the Engine (30_encoding.md R104). -/

namespace Sys2Proof.Machine

/-- A step while the status is `running`: the end-of-arena halt when `IP` has reached `AL`, else fetch, decode and execute one
instruction (R104, R280). -/
def State.runningStep (s : State) : Result :=
  if s.ip < s.al then
    match s.fetchInstr with
    | .stopped o => o
    | .got i s' => exec i s'
  else .next s.halt

/-- The step: none is enabled in a terminal status (R40, log 11). -/
def engineStep (s : State) : Result :=
  match s.status with
  | .running => s.runningStep
  | .halted v => .fault (.terminal (.halted v))
  | .faulted c => .fault (.terminal (.faulted c))
  | .parked => .fault (.terminal .parked)

end Sys2Proof.Machine
end

