-- ==== Sys2Proof/Machine/Step.lean ====
section
/-! DEFINITION. Sys2Proof/Machine/Step.lean: the machine's step, and the placing of one instruction where it is fetched. -/

namespace Sys2Proof.Machine

/-- One step of the core (30_encoding.md R104). -/
def step (s : State) : Host.Outcome State Fault Refusal := engineStep s

/-- `s` with the instruction of a table word stored where `step` fetches next, standing for the load of a program from
outside the machine (log 6). -/
def State.withFetchWord (s : State) (nbits w : Nat) : State := s.placeTableWord nbits w

end Sys2Proof.Machine
end

