-- ==== Sys2Proof/Machine/Loader.lean ====
section
/-! DEFINITION. Sys2Proof/Machine/Loader.lean: the boot image and the Loader's refusals (70_reset_and_hazards.md R290 to R293,
60_exceptions.md R279). The Loader acts before the first step; no rule of the core raises its codes. -/

namespace Sys2Proof.Machine

/-- What the Loader is given: no image, one that cannot be opened, or its bytes (R292). -/
inductive ImageSource where
  | missing
  | unreadable
  | file (bytes : List Byte)
deriving DecidableEq, Repr

/-- The load refusals, in the order of the table of R292. -/
inductive LoadRefusal where
  /-- 0xa1, missing input file argument -/
  | a1
  /-- 0xa2, file could not be opened -/
  | a2
  /-- 0xa3, bad magic -/
  | a3
  /-- 0xa4, allocation failure -/
  | a4
  /-- 0xa5, short read -/
  | a5
deriving DecidableEq, Repr

/-- The process exit code of a load refusal (R279). -/
def LoadRefusal.code : LoadRefusal → Byte
  | .a1 => 0xA1#8
  | .a2 => 0xA2#8
  | .a3 => 0xA3#8
  | .a4 => 0xA4#8
  | .a5 => 0xA5#8

/-- The big-endian field of `n` bytes at an offset of the image (R290). -/
def imageField (img : List Byte) (offset n : Nat) : Nat := beNat ((img.drop offset).take n)

/-- The launch an image describes under a setting: sizes at 8, 16 and 24, code from 32 (R290); of the Stack bytes drawn, as
many as the segment holds. -/
def imageLaunch (img : List Byte) (setting : Setting) : Launch :=
  { setting with
    program := (img.drop 32).take (imageField img 8 8), dataSize := imageField img 16 8
    stackSize := imageField img 24 8, stackFill := setting.stackFill.take (imageField img 24 8) }

/-- The bytes the arena of an image needs (R293). -/
def imageArena (img : List Byte) : Nat :=
  Config.preSize + imageField img 8 8 + imageField img 16 8 + imageField img 24 8

/-- The Loader: the checks of R292 in the order of its table, then the reset state of R291. A missing magic is a magic
mismatch, missing size fields are a short read, sizes that sum to `2^64` or more cannot be allocated (R292, R293). -/
def loadImage (src : ImageSource) (setting : Setting) : Except LoadRefusal State :=
  match src with
  | .missing => .error .a1
  | .unreadable => .error .a2
  | .file img =>
    if img.take 4 ≠ beBytes 4 Config.magic.toNat then .error .a3
    else if img.length < 32 then .error .a5
    else if 2 ^ 64 ≤ imageArena img ∨ Config.canAllocate (imageArena img) = false then .error .a4
    else if img.length < 32 + imageField img 8 8 then .error .a5
    else .ok (State.boot (imageLaunch img setting))

end Sys2Proof.Machine
end

