-- ==== Sys2Proof/Safety.lean ====
section
/-! DEFINITION. Sys2Proof/Safety.lean: the terms the claims use: the invariant, the frames, what each instruction may write, store
and raise, and what counts as a safe run. -/

namespace Sys2Proof.Machine

/-! ### The invariant -/

/-- The arena's canonical form: rising addresses, no cell at the unlisted value, none outside the `NPHYS` bytes (R41), and
`NPHYS` fits a word (R293). -/
abbrev State.Inv (s : State) : Prop := s.mem.wf = true ∧ s.mem.below s.nphys = true ∧ s.nphys < 2 ^ 64

/-! ### Frames -/

/-- Every register outside `rs` reads as before. -/
def RegsKept (rs : List RegId) (s t : State) : Prop := ∀ r, r ∉ rs → t.reg r = s.reg r

/-- Every byte of the arena reads as before. -/
def MemKept (s t : State) : Prop := ∀ a, t.mem.read a = s.mem.read a

/-- Every byte outside the `n` bytes at `p` reads as before. -/
def MemKeptOutside (p n : Nat) (s t : State) : Prop := ∀ a, (a < p ∨ p + n ≤ a) → t.mem.read a = s.mem.read a

/-- What a launch fixes is as before: the two maps, the arena's size and the world outside. -/
def LaunchKept (s t : State) : Prop :=
  t.opmap = s.opmap ∧ t.crmap = s.crmap ∧ t.nphys = s.nphys ∧ t.hostSeed = s.hostSeed

/-- What a launch fixes, the status and the exchanges with the host are as before. -/
def RestKept (s t : State) : Prop := LaunchKept s t ∧ t.status = s.status ∧ t.hostLog = s.hostLog

/-- Nothing but the registers `rs` differs. -/
def WritesOnly (rs : List RegId) (s t : State) : Prop := RegsKept rs s t ∧ MemKept s t ∧ RestKept s t

/-- Nothing but the registers `rs` and the `n` bytes at `p` differs. -/
def StoresOnly (rs : List RegId) (p n : Nat) (s t : State) : Prop :=
  RegsKept rs s t ∧ MemKeptOutside p n s t ∧ RestKept s t

/-- The instruction completes, with `v` in `d` and nothing else changed. -/
def ComputesInto (i : Instr) (s : State) (d : RegId) (v : Word) : Prop :=
  ∃ t, exec i s = .next t ∧ t.reg d = v ∧ WritesOnly [d] s t

/-- The instruction takes the fault `c`: the status becomes `faulted(c)` and nothing else changes (R269, R270). -/
def FaultsWith (i : Instr) (s : State) (c : FaultCode) : Prop := exec i s = .next (s.raise c)

/-- The instruction is refused because it would touch bytes the arena does not have (R68, log 10). -/
def RefusesAbsentBytes (i : Instr) (s : State) : Prop := exec i s = .refused .outsidePhysicalArena

/-! ### What an instruction may write, store and raise -/

/-- The registers an instruction's rule writes, under a control-register map: its destination operands, `IP` for the control
transfers and `Data`, `ST` for the stack instructions, `ER` for FOPEN. -/
def dests (m : Crmap) : Instr → List RegId
  | .nop | .exit | .htl => []
  | .goto _ | .ifGo _ _ | .ifNG _ _ => [m.ip]
  | .svIp d => [d]
  | .loop c _ => [c, m.ip]
  | .call _ | .ret => [m.st, m.ip]
  | .data d _ => [m.ip, d]
  | .add d _ _ | .sub d _ _ | .mul d _ _ | .inc d | .dec d => [d]
  | .div q r _ _ | .iDiv q r _ _ => [q, r]
  | .iMul d _ _ | .iThan d _ _ | .iLess d _ _ | .iMore d _ _ | .iLMov d _ _ | .iRMov d _ _ => [d]
  | .than d _ _ | .less d _ _ | .more d _ _ => [d]
  | .not d _ | .and d _ _ | .or d _ _ | .xor d _ _ | .lMov d _ _ | .rMov d _ _ | .rol d _ _ | .ror d _ _ => [d]
  | .complement d _ | .toBool d _ => [d]
  | .mov1 d _ | .mov2 d _ | .mov4 d _ | .mov8 d _ | .set1 d _ | .set2 d _ | .set4 d _ | .set8 d _ => [d]
  | .get1 d _ | .get2 d _ | .get4 d _ | .get8 d _ | .lea d _ _ _ => [d]
  | .wrt1 _ _ | .wrt2 _ _ | .wrt4 _ _ | .wrt8 _ _ | .movs _ _ _ => []
  | .psh1 _ | .psh2 _ | .psh4 _ | .psh8 _ => [m.st]
  | .pop1 d | .pop2 d | .pop4 d | .pop8 d => [m.st, d]
  | .xchg1 x _ | .xchg2 x _ | .xchg4 x _ | .xchg8 x _ => [x]
  | .swap x y => [x, y]
  | .cmps d _ _ _ | .scas1 d _ _ _ | .scas2 d _ _ _ | .scas4 d _ _ _ | .scas8 d _ _ _ => [d]
  | .bcdT d _ | .bcdF d _ | .signT d _ _ => [d]
  | .signF dm df _ => [dm, df]
  | .fopen d _ _ _ _ => [m.er, d]
  | .fin d _ _ _ _ _ | .fout d _ _ _ _ _ => [d]

/-- The address an instruction stores to and how many bytes it stores there, as its meaning computes them; none for a form
that stores nothing. -/
def storedRange (s : State) : Instr → Option (Nat × Nat)
  | .wrt1 a _ => some (s.regNat a, 1)
  | .wrt2 a _ => some (s.regNat a, 2)
  | .wrt4 a _ => some (s.regNat a, 4)
  | .wrt8 a _ => some (s.regNat a, 8)
  | .xchg1 _ a => some (s.regNat a, 1)
  | .xchg2 _ a => some (s.regNat a, 2)
  | .xchg4 _ a => some (s.regNat a, 4)
  | .xchg8 _ a => some (s.regNat a, 8)
  | .psh1 _ => some ((s.reg s.crmap.st).toNat, 1)
  | .psh2 _ => some ((s.reg s.crmap.st).toNat, 2)
  | .psh4 _ => some ((s.reg s.crmap.st).toNat, 4)
  | .psh8 _ | .call _ => some ((s.reg s.crmap.st).toNat, 8)
  | .movs d _ n => some (s.regNat d, s.regNat n)
  | .fin _ h b _ o c => some (s.regNat b, (s.hostRead (s.reg h) (s.regNat o * s.regNat c)).length)
  | .nop | .exit | .goto _ | .ifGo _ _ | .ifNG _ _ | .svIp _ | .loop _ _ | .ret | .htl | .data _ _ => none
  | .add _ _ _ | .sub _ _ _ | .mul _ _ _ | .div _ _ _ _ | .inc _ | .dec _ => none
  | .iMul _ _ _ | .iDiv _ _ _ _ | .iThan _ _ _ | .iLess _ _ _ | .iMore _ _ _ | .iLMov _ _ _ | .iRMov _ _ _ => none
  | .than _ _ _ | .less _ _ _ | .more _ _ _ => none
  | .not _ _ | .and _ _ _ | .or _ _ _ | .xor _ _ _ | .lMov _ _ _ | .rMov _ _ _ | .rol _ _ _ | .ror _ _ _ => none
  | .complement _ _ | .toBool _ _ => none
  | .mov1 _ _ | .mov2 _ _ | .mov4 _ _ | .mov8 _ _ | .set1 _ _ | .set2 _ _ | .set4 _ _ | .set8 _ _ => none
  | .get1 _ _ | .get2 _ _ | .get4 _ _ | .get8 _ _ | .lea _ _ _ _ => none
  | .pop1 _ | .pop2 _ | .pop4 _ | .pop8 _ | .swap _ _ => none
  | .cmps _ _ _ _ | .scas1 _ _ _ _ | .scas2 _ _ _ _ | .scas4 _ _ _ _ | .scas8 _ _ _ _ => none
  | .bcdT _ _ | .bcdF _ _ | .signT _ _ _ | .signF _ _ _ => none
  | .fopen _ _ _ _ _ | .fout _ _ _ _ _ _ => none

/-- The faults an instruction's own rule can raise, after its fetch (R261 to R267). -/
def mayRaise : Instr → List FaultCode
  | .nop | .exit | .htl | .goto _ | .ifGo _ _ | .ifNG _ _ | .svIp _ | .loop _ _ => []
  | .call _ | .ret => [.b2, .b3, .b4]
  | .data _ _ => [.b5]
  | .add _ _ _ | .sub _ _ _ | .mul _ _ _ | .inc _ | .dec _ => []
  | .div _ _ _ _ | .iDiv _ _ _ _ => [.c2]
  | .iMul _ _ _ | .iThan _ _ _ | .iLess _ _ _ | .iMore _ _ _ | .iLMov _ _ _ | .iRMov _ _ _ => []
  | .than _ _ _ | .less _ _ _ | .more _ _ _ => []
  | .not _ _ | .and _ _ _ | .or _ _ _ | .xor _ _ _ | .lMov _ _ _ | .rMov _ _ _ | .rol _ _ _ | .ror _ _ _ => []
  | .complement _ _ | .toBool _ _ => []
  | .mov1 _ _ | .mov2 _ _ | .mov4 _ _ | .mov8 _ _ | .set1 _ _ | .set2 _ _ | .set4 _ _ | .set8 _ _ => []
  | .lea _ _ _ _ | .swap _ _ => []
  | .get1 _ _ | .get2 _ _ | .get4 _ _ | .get8 _ _ | .wrt1 _ _ | .wrt2 _ _ | .wrt4 _ _ | .wrt8 _ _ => [.b1]
  | .psh1 _ | .psh2 _ | .psh4 _ | .psh8 _ | .pop1 _ | .pop2 _ | .pop4 _ | .pop8 _ => [.b2, .b3, .b4]
  | .xchg1 _ _ | .xchg2 _ _ | .xchg4 _ _ | .xchg8 _ _ => [.b1]
  | .movs _ _ _ | .cmps _ _ _ _ | .scas1 _ _ _ _ | .scas2 _ _ _ _ | .scas4 _ _ _ _ | .scas8 _ _ _ _ => [.b1]
  | .bcdT _ _ | .bcdF _ _ | .signT _ _ _ | .signF _ _ _ => []
  | .fopen _ _ _ _ _ | .fin _ _ _ _ _ _ | .fout _ _ _ _ _ _ => [.b1]

/-- How far an instruction lowers `ST` before its stack gate runs; none for one that is no pop (R269). -/
def popWidth : Instr → Option Nat
  | .ret | .pop8 _ => some 8
  | .pop4 _ => some 4
  | .pop2 _ => some 2
  | .pop1 _ => some 1
  | _ => none

/-- The instruction reaches the host (R45). -/
def asksHost : Instr → Bool
  | .fopen _ _ _ _ _ | .fin _ _ _ _ _ _ | .fout _ _ _ _ _ _ => true
  | _ => false

/-! ### Runs of instructions and safe runs -/

/-- The instructions of a list one after another, while each answers a next state. -/
def execAll : List Instr → State → Result
  | [], s => .next s
  | i :: is, s =>
    match exec i s with
    | .next t => execAll is t
    | .fault e => .fault e
    | .refused e => .refused e

/-- The widths of the sized families (R5). -/
inductive Width where
  | w1
  | w2
  | w4
  | w8
deriving DecidableEq, Repr

/-- A width in bytes. -/
def Width.bytes : Width → Nat
  | .w1 => 1
  | .w2 => 2
  | .w4 => 4
  | .w8 => 8

/-- `Psh w s`. -/
def Width.psh : Width → RegId → Instr
  | .w1 => .psh1
  | .w2 => .psh2
  | .w4 => .psh4
  | .w8 => .psh8

/-- `Pop w d`. -/
def Width.pop : Width → RegId → Instr
  | .w1 => .pop1
  | .w2 => .pop2
  | .w4 => .pop4
  | .w8 => .pop8

/-- `Mov w d, s`. -/
def Width.mov : Width → RegId → RegId → Instr
  | .w1 => .mov1
  | .w2 => .mov2
  | .w4 => .mov4
  | .w8 => .mov8

/-- `Set w d, #lit`. -/
def Width.set : Width → RegId → Word → Instr
  | .w1 => .set1
  | .w2 => .set2
  | .w4 => .set4
  | .w8 => .set8

/-- `Get w d, a`. -/
def Width.get : Width → RegId → RegId → Instr
  | .w1 => .get1
  | .w2 => .get2
  | .w4 => .get4
  | .w8 => .get8

/-- `Wrt w a, s`. -/
def Width.wrt : Width → RegId → RegId → Instr
  | .w1 => .wrt1
  | .w2 => .wrt2
  | .w4 => .wrt4
  | .w8 => .wrt8

/-- `XCHG w x, a`. -/
def Width.xchg : Width → RegId → RegId → Instr
  | .w1 => .xchg1
  | .w2 => .xchg2
  | .w4 => .xchg4
  | .w8 => .xchg8

/-- `SCAS w d, a, n, v`. -/
def Width.scas : Width → RegId → RegId → RegId → RegId → Instr
  | .w1 => .scas1
  | .w2 => .scas2
  | .w4 => .scas4
  | .w8 => .scas8

/-- The step stays inside what the spec gives a meaning to: it is not refused. -/
def NotRefused (o : Result) : Prop := ∀ r, o ≠ .refused r

/-- The gates admit only bytes the arena has: true at reset and while the program leaves `AL` alone (R68). -/
def GatesInsideArena (s : State) : Prop := s.al ≤ s.nphys

end Sys2Proof.Machine
end

