-- ==== Sys2Proof/Certificates/Slice0/Obligations.lean ====
section
/-! DEFINITION. Sys2Proof/Certificates/Slice0/Obligations.lean: the statements for the provers. Rules are those of spec/. Where a
clause rests on a decision the spec marks as its own, the docstring names the decision (D<n> of 92_eei_decisions.md) and the
model's log entry. A control register is the slot the state's `CRMAP` names (`s.crmap`, R24), any injective map. In every
statement about `exec`, `IP` already holds the address of the next instruction (R39, R110). -/

open Sys2Proof Sys2Proof.Machine

/-! ### Registers and memory -/

/-- R21: a write replaces all 64 bits of one slot and a read returns the word last written; no other slot, no byte of memory
and nothing else changes; no slot is hard-wired, since `r` is any of the 256. -/
def Obligations.RegisterWriteReplacesOneSlot : Prop :=
  ∀ (s : State) (r : RegId) (v : Word),
    (s.setReg r v).reg r = v ∧ (∀ q, q ≠ r → (s.setReg r v).reg q = s.reg q) ∧
      MemKept s (s.setReg r v) ∧ RestKept s (s.setReg r v)

/-- R63, R62: a read of `n` bytes is the big-endian sum of them, below `2^(8n)`. -/
def Obligations.LoadIsBigEndianSum : Prop :=
  ∀ (s : State) (p n : Nat),
    s.load p n = ∑ i ∈ Finset.range n, (s.mem.read (p + i)).toNat * 2 ^ (8 * (n - 1 - i)) ∧
      s.load p n < 2 ^ (8 * n)

/-- R64, R66: a write stores the low `8n` bits, most significant byte first, changes exactly those `n` bytes and nothing else;
a read inside a wider stored value returns the bytes at those addresses (R66, which the spec marks as derived). -/
def Obligations.StoreWritesBigEndianBytes : Prop :=
  ∀ (s : State) (p n v : Nat),
    (∀ i, i < n → ((s.store p n v).mem.read (p + i)).toNat = v / 2 ^ (8 * (n - 1 - i)) % 256) ∧
      StoresOnly [] p n s (s.store p n v) ∧
      (∀ k m, k + m ≤ n → (s.store p n v).load (p + k) m = v / 2 ^ (8 * (n - k - m)) % 2 ^ (8 * m))

/-- R67: writing a value of width `w` and reading it back with the same width gives it truncated to that width. -/
def Obligations.StoreThenLoadRoundTrips : Prop :=
  ∀ (s : State) (p : Nat) (w : Width) (v : Nat),
    (s.store p w.bytes v).load p w.bytes = v % 2 ^ (8 * w.bytes)

/-- R68: an access that its gate admits but that is not inside the `NPHYS` bytes is refused, for every instruction that touches
memory and for every field of the fetch; of FIN, exactly when the bytes the host delivers do not fit. That the range tested is
that of FIN's delivered and FOUT's requested bytes, and that an access of no byte goes on, is the model's reading of R68, log 10
(DEDUCED). That CMPS and SCAS are refused for their whole gated range, also where they would stop at a difference or match
inside the arena, is the model's choice, log 32 (DESIGN CHOICE). -/
def Obligations.AccessOutsideTheArenaIsRefused : Prop :=
  (∀ (s : State) (w : Width) (d a n v : RegId),
    (s.regNat a + w.bytes < s.al → s.nphys < s.regNat a + w.bytes →
      RefusesAbsentBytes (w.get d a) s ∧ RefusesAbsentBytes (w.wrt a d) s ∧ RefusesAbsentBytes (w.xchg d a) s) ∧
    (s.regNat a + s.regNat n * w.bytes < s.al → s.regNat n ≠ 0 → s.nphys < s.regNat a + s.regNat n * w.bytes →
      RefusesAbsentBytes (w.scas d a n v) s)) ∧
  (∀ (s : State) (w : Width) (r : RegId),
    let top := (s.reg s.crmap.st).toNat
    let below := fun k : Nat => (s.reg s.crmap.st - BitVec.ofNat 64 k).toNat
    (s.checkStack top w.bytes = none → s.nphys < top + w.bytes → RefusesAbsentBytes (w.psh r) s) ∧
    (s.checkStack top 8 = none → s.nphys < top + 8 → RefusesAbsentBytes (.call r) s) ∧
    (s.checkStack (below w.bytes) w.bytes = none → s.nphys < below w.bytes + w.bytes → RefusesAbsentBytes (w.pop r) s) ∧
    (s.checkStack (below 8) 8 = none → s.nphys < below 8 + 8 → RefusesAbsentBytes .ret s)) ∧
  (∀ (s : State) (d a b n m : RegId),
    (s.regNat a + s.regNat n < s.al → s.regNat b + s.regNat n < s.al → s.regNat n ≠ 0 →
      s.nphys < s.regNat a + s.regNat n ∨ s.nphys < s.regNat b + s.regNat n →
      RefusesAbsentBytes (.movs a b n) s ∧ RefusesAbsentBytes (.cmps d a b n) s) ∧
    (s.regNat a + s.regNat n < s.al → s.regNat b + s.regNat m < s.al →
      (s.regNat n ≠ 0 ∧ s.nphys < s.regNat a + s.regNat n) ∨ (s.regNat m ≠ 0 ∧ s.nphys < s.regNat b + s.regNat m) →
      RefusesAbsentBytes (.fopen d a n b m) s)) ∧
  (∀ (s : State) (d h b l o c : RegId),
    let total := s.regNat o * s.regNat c
    let bytes := s.hostRead (s.reg h) total
    s.regNat b + s.regNat l < s.al → total ≤ s.regNat l → s.nphys < s.regNat b + total →
    (RefusesAbsentBytes (.fin d h b l o c) s ↔ bytes ≠ [] ∧ s.nphys < s.regNat b + bytes.length) ∧
    (total ≠ 0 → RefusesAbsentBytes (.fout d h b l o c) s)) ∧
  (∀ s : State, s.status = .running → s.ip + 1 < s.al → s.nphys < s.ip + 1 → step s = .refused .outsidePhysicalArena) ∧
  (∀ (s : State) (f : Form) (ws : List Nat) (w : Nat) (tail : List Nat), s.status = .running →
    formOf s.opmap (s.mem.read s.ip) = some f → f.widths = ws ++ w :: tail →
    s.ip + 1 + ws.sum + w < s.al → s.ip + 1 + ws.sum ≤ s.nphys → s.nphys < s.ip + 1 + ws.sum + w →
    step s = .refused .outsidePhysicalArena)

/-! ### The gates -/

/-- R69: the instruction-pointer gate succeeds exactly when `IP + n < AL`, the sum exact (R12, the
spec's decision D7, log 13); then it returns the old `IP` and
advances it by `n`, so that the new `IP` is below `AL`; on failure the field fetch raises 0xb5 with `IP` unchanged. -/
def Obligations.InstructionPointerGate : Prop :=
  ∀ (s : State) (n : Nat),
    (s.ip + n < s.al →
      ∃ t, s.advanceIp n = some (s.reg s.crmap.ip, t) ∧ t.ip = s.ip + n ∧ t.ip < t.al ∧ WritesOnly [s.crmap.ip] s t) ∧
    (s.al ≤ s.ip + n → s.advanceIp n = none ∧ s.fetchField n = .stopped (.next (s.raise .b5)))

/-- R70: the stack gate makes its three tests in order, with exact sums (R12, the spec's decision D7, log 13); the first that
holds decides the code. -/
def Obligations.StackGateTestsInOrder : Prop :=
  ∀ (s : State) (p n : Nat),
    (p < (s.reg s.crmap.ss).toNat → s.checkStack p n = some .b2) ∧
    ((s.reg s.crmap.ss).toNat ≤ p → p < (s.reg s.crmap.sb).toNat → s.checkStack p n = some .b3) ∧
    ((s.reg s.crmap.ss).toNat ≤ p → (s.reg s.crmap.sb).toNat ≤ p → s.al ≤ p + n → s.checkStack p n = some .b4) ∧
    ((s.reg s.crmap.ss).toNat ≤ p → (s.reg s.crmap.sb).toNat ≤ p → p + n < s.al → s.checkStack p n = none)

/-- R71, R72: the data gate fails exactly when `p + size >= AL`, the sum exact (R12, the spec's decision D7, log 13), with
0xb1; the safe-address gate gives `0` exactly when
`p >= AL`, else `p`. -/
def Obligations.DataGateAndSafeAddressGate : Prop :=
  ∀ s : State,
    (∀ p n, s.al ≤ p + n → s.checkData p n = some .b1) ∧ (∀ p n, p + n < s.al → s.checkData p n = none) ∧
    (∀ p : Word, s.al ≤ p.toNat → s.checkSafe p = 0#64) ∧ (∀ p : Word, p.toNat < s.al → s.checkSafe p = p)

/-! ### Faults, terminal statuses and the step -/

/-- R270: taking a fault sets the status to `faulted(c)` and changes nothing else; control goes nowhere: no step follows. -/
def Obligations.FaultEntryChangesOnlyTheStatus : Prop :=
  ∀ (s : State) (c : FaultCode),
    (s.raise c).status = .faulted c ∧ RegsKept [] s (s.raise c) ∧ MemKept s (s.raise c) ∧
      LaunchKept s (s.raise c) ∧ (s.raise c).hostLog = s.hostLog ∧
      (∀ t, step (s.raise c) ≠ .next t)

/-- R40: in a terminal status no step is enabled; that the model answers this by its fault `terminal` is its own choice,
log 11. R104, R280: with `IP` at or past `AL` a running step is the end-of-arena halt with the live `EX`, and with `IP = AL - 1`
it is the fault 0xb5 of the opcode fetch; nothing else changes. -/
def Obligations.StepWhereNothingIsFetched : Prop :=
  (∀ s : State, s.status ≠ .running → step s = .fault (.terminal s.status)) ∧
  ∀ s : State, s.status = .running →
    (s.al ≤ s.ip → step s = .next { s with status := .halted (s.reg s.crmap.ex) }) ∧
    (s.ip + 1 = s.al → step s = .next (s.raise .b5))

/-- R98: under any `OPMAP` exactly the bytes it does not assign are unknown, and fetching one raises 0xc1 with `IP` one past it
and nothing else changed; under the default `OPMAP`, which is the spec's own (D1, D33, log 1), they are the 176 listed bytes. -/
def Obligations.UnknownOpcodeFaults : Prop :=
  (∀ (m : Opmap) (op : Byte), formOf m op = none ↔ op ∉ m.codes) ∧
  (∀ op : Nat, op < 256 → (formOf Opmap.default (BitVec.ofNat 8 op) = none ↔
    (0x0B ≤ op ∧ op ≤ 0x0F) ∨ op = 0x16 ∨ op = 0x17 ∨ op = 0x1F ∨ (0x23 ≤ op ∧ op ≤ 0x2F) ∨ (0x3A ≤ op ∧ op ≤ 0x3F) ∨
    (0x51 ≤ op ∧ op ≤ 0x5F) ∨ (0x68 ≤ op ∧ op ≤ 0x6F) ∨ (0x75 ≤ op ∧ op ≤ 0x7F) ∨ op = 0x82 ∨ op = 0x83 ∨
    (0x88 ≤ op ∧ op ≤ 0x8F) ∨ (0x94 ≤ op ∧ op ≤ 0x9F) ∨ (0xA3 ≤ op ∧ op ≤ 0xFF))) ∧
  ∀ s : State, s.status = .running → s.ip + 1 < s.al → s.ip + 1 ≤ s.nphys → formOf s.opmap (s.mem.read s.ip) = none →
    step s = .next ((s.setReg s.crmap.ip (BitVec.ofNat 64 (s.ip + 1))).raise .c1)

/-- R101, R265: an instruction whose last byte is not followed by an address below `AL` ends in 0xb5, with `IP` at the first
byte of the field that could not be fetched: the fields before it, together `ws`, fit, and the next one, of width `w`, does
not. One gate call per field is the spec's decision D36, log 12. -/
def Obligations.TruncatedInstructionFaults : Prop :=
  ∀ (s : State) (f : Form) (ws : List Nat) (w : Nat) (tail : List Nat), s.status = .running → s.al ≤ s.nphys →
    s.ip + 1 < s.al → formOf s.opmap (s.mem.read s.ip) = some f → f.widths = ws ++ w :: tail →
    s.ip + 1 + ws.sum < s.al → s.al ≤ s.ip + 1 + ws.sum + w →
    step s = .next ((s.setReg s.crmap.ip (BitVec.ofNat 64 (s.ip + 1 + ws.sum))).raise .b5)

/-- A STEP RUNS THE DECODED INSTRUCTION (R104, R39): when the `n` bytes at `IP` decode, under the core's opcode map, to an
instruction and the gate admits them, the step is `exec` of it with `IP` moved past them. -/
def Obligations.StepRunsTheDecodedInstruction : Prop :=
  ∀ (s : State) (n : Nat) (i : Instr), s.status = .running → decode s.opmap (s.mem.readBytes s.ip n) = .ok (i, []) →
    s.ip + n < s.al → s.ip + n ≤ s.nphys →
    i.WF ∧ n = i.size ∧ step s = exec i (s.setReg s.crmap.ip (BitVec.ofNat 64 (s.ip + n)))

/-! ### Encoding -/

/-- DECODE AND ENCODE AGREE, for all 80 instructions and every operand value, under every `OPMAP` (R90 to R97; the operand
orders are the spec's decision D4, log 2). -/
def Obligations.DecodeOfEncodeIsTheInstruction : Prop :=
  ∀ (m : Opmap) (i : Instr) (rest : List Byte), i.WF → decode m (encode m i ++ rest) = .ok (i, rest)

/-- The other direction, under every `OPMAP`: whatever decodes is well-formed, and its encoding is exactly the bytes it was
decoded from (R99, R100): no byte string has two readings and no byte is dropped. -/
def Obligations.EncodeOfDecodeIsTheBytes : Prop :=
  ∀ (m : Opmap) (i : Instr) (bs rest : List Byte), decode m bs = .ok (i, rest) → i.WF ∧ encode m i ++ rest = bs

/-- DECODING IS RIGHT, under the default `OPMAP` and the default operand orders, both of which R92 and R97 mark as the spec's own
(decisions D1 and D4, logs 1, 2): words written out from the encodings of the spec, one or two of every family. -/
def Obligations.WordsOfTheSpecDecode : Prop :=
  decode Opmap.default [0x03#8, 0x01#8, 0x02#8] = .ok (.ifGo 1 2, []) ∧
  decode Opmap.default [0x10#8, 0x02#8, 0x00#8, 0x01#8] = .ok (.add 2 0 1, []) ∧
  decode Opmap.default [0x19#8, 0x02#8, 0x03#8, 0x00#8, 0x01#8] = .ok (.iDiv 2 3 0 1, []) ∧
  decode Opmap.default [0x20#8, 0x02#8, 0x00#8, 0x01#8] = .ok (.than 2 0 1, []) ∧
  decode Opmap.default [0x36#8, 0x02#8, 0x00#8, 0x01#8] = .ok (.rol 2 0 1, []) ∧
  decode Opmap.default [0x45#8, 0x03#8, 0x12#8, 0x34#8] = .ok (.set2 3 0x1234, []) ∧
  decode Opmap.default [0x4F#8, 0x01#8, 0x00#8] = .ok (.wrt8 1 0, []) ∧
  decode Opmap.default [0x66#8, 0x01#8] = .ok (.pop4 1, []) ∧
  decode Opmap.default [0x71#8, 0x00#8, 0x01#8] = .ok (.xchg2 0 1, []) ∧
  decode Opmap.default [0x86#8, 0x00#8, 0x01#8, 0x02#8, 0x03#8] = .ok (.scas4 0 1 2 3, []) ∧
  decode Opmap.default [0x93#8, 0x01#8, 0x02#8, 0x00#8] = .ok (.signF 1 2 0, []) ∧
  decode Opmap.default [0xA1#8, 0x00#8, 0x01#8, 0x02#8, 0x03#8, 0x04#8, 0x05#8] = .ok (.fin 0 1 2 3 4 5, []) ∧
  decode Opmap.default [0x0A#8, 0x05#8, 0#8, 0#8, 0#8, 0#8, 0#8, 0#8, 0#8, 0x03#8, 0xAA#8, 0xBB#8, 0xCC#8] =
    .ok (.data 5 3, [0xAA#8, 0xBB#8, 0xCC#8]) ∧
  decode Opmap.default [0x0B#8] = .error (.unknownOpcode 0x0B) ∧ decode Opmap.default [0x10#8, 0x02#8] = .error .truncated

/-! ### Reset -/

/-- The table of R46 for every launch (every image, every `OPMAP`, `CRMAP`, `RESET_GPR` and `RESET_STACK`): the ten initialised
registers, all others as drawn, Pre and Data zero, the program from 16, the Stack segment as drawn, status `running`. `AB = 0`
and `EX = 0` are the spec's decision D25. -/
def Obligations.ResetStateIsTheTable : Prop :=
  ∀ l : Launch, l.fits = true →
    let cr := l.crmap
    let c := l.program.length
    let d := l.dataSize
    let s := State.boot l
    ((s.reg cr.ab).toNat = 0 ∧ (s.reg cr.al).toNat = 16 + c + d + l.stackSize ∧ (s.reg cr.cs).toNat = 16 ∧
      (s.reg cr.ds).toNat = 16 + c ∧ (s.reg cr.ss).toNat = 16 + c + d ∧ (s.reg cr.ip).toNat = 16 ∧
      (s.reg cr.sb).toNat = 16 + c + d ∧ (s.reg cr.st).toNat = 16 + c + d ∧ s.reg cr.er = 0#64 ∧
      s.reg cr.ex = 0#64) ∧
    (∀ r : RegId, r ∉ [cr.ab, cr.al, cr.cs, cr.ds, cr.ss, cr.ip, cr.sb, cr.st, cr.er,
      cr.ex] → s.reg r = l.gpr[r.toNat]'r.isLt) ∧
    (∀ a, a < 16 → s.mem.read a = 0#8) ∧
    (∀ k (hk : k < c), s.mem.read (16 + k) = l.program[k]) ∧
    (∀ k, k < d → s.mem.read (16 + c + k) = 0#8) ∧
    (∀ k (hk : k < l.stackFill.length), s.mem.read (16 + c + d + k) = l.stackFill[k]) ∧
    s.nphys = 16 + c + d + l.stackSize ∧ s.status = .running ∧ s.opmap = l.opmap ∧ s.crmap = l.crmap

/-- The invariant and the premise of R68 hold at reset, for every launch, and at `State.reset`. -/
def Obligations.ResetSatisfiesTheInvariant : Prop :=
  (∀ l : Launch, l.fits = true → (State.boot l).Inv ∧ GatesInsideArena (State.boot l)) ∧
    State.reset.Inv ∧ GatesInsideArena State.reset

/-- R290 to R293: an image of magic, version, flag byte, three sizes, code and any trailing bytes gives the reset state of that
code and those sizes, or the refusal 0xa4 if the arena cannot be allocated; with fewer code bytes than declared it is refused,
with 0xa5 where the arena can be allocated; sizes whose arena needs `2^64` bytes or more are refused with 0xa4; a missing image
is refused with 0xa1, an unreadable one with 0xa2, a wrong or missing magic with 0xa3, a right magic with fewer than 32 bytes
with 0xa5. The order of the checks, the short header and the oversized sum are the spec's own readings (D26, log 27); whether
an arena can be allocated is a free value (log 27). -/
def Obligations.LoaderBuildsTheResetState : Prop :=
  ∀ setting : Setting,
    (∀ (ver : List Byte) (flag : Byte), ver.length = 3 →
      let header := fun c d st : Nat =>
        beBytes 4 Config.magic.toNat ++ ver ++ [flag] ++ beBytes 8 c ++ beBytes 8 d ++ beBytes 8 st
      (∀ (code trail : List Byte) (d st : Nat),
        setting.stackFill.length ≤ st → 16 + code.length + d + st < 2 ^ 64 →
        let launch : Launch := { setting with program := code, dataSize := d, stackSize := st }
        let fitsMemory := Config.canAllocate (16 + code.length + d + st)
        loadImage (.file (header code.length d st ++ code ++ trail)) setting =
          (if fitsMemory then .ok (State.boot launch) else .error .a4) ∧
        (∀ short : List Byte, short.length < code.length →
          loadImage (.file (header code.length d st ++ short)) setting =
            (if fitsMemory then .error .a5 else .error .a4))) ∧
      (∀ (c d st : Nat) (rest : List Byte), c < 2 ^ 64 → d < 2 ^ 64 → st < 2 ^ 64 → 2 ^ 64 ≤ 16 + c + d + st →
        loadImage (.file (header c d st ++ rest)) setting = .error .a4)) ∧
    loadImage .missing setting = .error .a1 ∧ loadImage .unreadable setting = .error .a2 ∧
    (∀ img : List Byte, img.take 4 ≠ beBytes 4 Config.magic.toNat → loadImage (.file img) setting = .error .a3) ∧
    (∀ img : List Byte, img.take 4 = beBytes 4 Config.magic.toNat → img.length < 32 →
      loadImage (.file img) setting = .error .a5)

/-! ### The whole machine -/

/-- AN INVARIANT THAT EVERY STEP KEEPS: the arena stays in canonical form and inside its `NPHYS` bytes (R41, R68). -/
def Obligations.EveryStepKeepsTheInvariant : Prop :=
  ∀ s t : State, s.Inv → step s = .next t → t.Inv

/-- FRAME OF REGISTERS, all 80 instructions (R26 to R37, "No instruction writes it implicitly"): an instruction that answers
a next state, a faulted one included, changes no register but those its rule names as written (`dests`: its destination
operands; `IP` for Goto, IfGo, IfNG, Loop, Call, Ret, Data; `ST` for Psh, Pop, Call, Ret; `ER` for FOPEN). -/
def Obligations.OnlyDestinationRegistersChange : Prop :=
  ∀ (i : Instr) (s t : State), exec i s = .next t → RegsKept (dests s.crmap i) s t

/-- FRAME OF MEMORY, all 80 instructions: every byte outside the stored range reads as before, the range being what the
instruction's meaning computes (`storedRange`: the address register's value and the width for Wrt, XCHG; `ST` and the width
for Psh, Call; destination and count for MOVS; buffer and delivered length for FIN); a form that stores nothing changes
no byte. -/
def Obligations.OnlyStoredBytesChange : Prop :=
  ∀ (i : Instr) (s t : State), exec i s = .next t →
    (∀ p n, storedRange s i = some (p, n) → MemKeptOutside p n s t) ∧ (storedRange s i = none → MemKept s t)

/-- R280, R260 to R267: an instruction leaves the status alone, but Exit halts with `EX`, HTL parks, and one of the faults
its rule names (`mayRaise`) makes it `faulted`. -/
def Obligations.StatusChangesOnlyForItsCauses : Prop :=
  ∀ (i : Instr) (s t : State), exec i s = .next t →
    t.status = s.status ∨ (i = .exit ∧ t.status = .halted (s.reg s.crmap.ex)) ∨ (i = .htl ∧ t.status = .parked) ∨
      (∃ c ∈ mayRaise i, t.status = .faulted c)

/-- R269, for all instructions (the spec's decision D28, log 12): an instruction of a running core that takes a fault leaves
memory, the host side and every register as they were, but `ST` lowered by the width for a Pop or Ret. -/
def Obligations.FaultLeavesOnlyALoweredTop : Prop :=
  ∀ (i : Instr) (s t : State) (c : FaultCode), s.status = .running → exec i s = .next t → t.status = .faulted c →
    MemKept s t ∧ LaunchKept s t ∧ t.hostLog = s.hostLog ∧ RegsKept [s.crmap.st] s t ∧
      (popWidth i = none → t.reg s.crmap.st = s.reg s.crmap.st) ∧
      (∀ w, popWidth i = some w → t.reg s.crmap.st = s.reg s.crmap.st - BitVec.ofNat 64 w)

/-- R68: while `AL` is at most `NPHYS`, as at reset, no gate admits an absent byte: a step is refused only by a FIN whose
request is larger than its declared buffer (R242). -/
def Obligations.StepsInsideTheArenaAreNotRefused : Prop :=
  ∀ (s : State) (r : Refusal), GatesInsideArena s → step s = .refused r →
    r = .finOverrun ∧ ∃ d h b l o c ip, s.fetchInstr = .got (.fin d h b l o c) (s.setReg s.crmap.ip ip) ∧
      (s.setReg s.crmap.ip ip).regNat l < (s.setReg s.crmap.ip ip).regNat o * (s.setReg s.crmap.ip ip).regNat c

/-- R45, R271, R41: only FOPEN, FIN and FOUT touch the host side, and each adds at most one exchange to the model's own record of
it (log 8, DESIGN CHOICE); no instruction and no step changes what the launch fixed (R5): the opcode map, the control-register
map, the arena's size, or the model's `hostSeed` (log 8). That State carries these is the model's log 7. -/
def Obligations.OnlyHostInstructionsReachTheHost : Prop :=
  (∀ (i : Instr) (s t : State), exec i s = .next t →
    (t.hostLog = s.hostLog ∨ (asksHost i = true ∧ ∃ e, t.hostLog = e :: s.hostLog)) ∧ LaunchKept s t) ∧
  ∀ s t : State, step s = .next t → LaunchKept s t

/-! ### Control -/

/-- R111, R113 to R116, R120: NOP does nothing; Goto, IfGo, IfNG write the target to `IP` unchecked, the conditional ones
when all 64 bits of the condition are nonzero, respectively zero; SvIp stores `IP`. Nothing else changes. -/
def Obligations.JumpsWriteTheInstructionPointer : Prop :=
  ∀ (s : State) (c t d : RegId),
    exec .nop s = .next s ∧
    exec (.goto t) s = .next (s.setReg s.crmap.ip (s.reg t)) ∧
    exec (.ifGo c t) s = .next (if s.reg c ≠ 0#64 then s.setReg s.crmap.ip (s.reg t) else s) ∧
    exec (.ifNG c t) s = .next (if s.reg c = 0#64 then s.setReg s.crmap.ip (s.reg t) else s) ∧
    ComputesInto (.svIp d) s d (s.reg s.crmap.ip)

/-- R117 (test on the new value: the spec's decision D15, log 20): Loop decrements modulo `2^64` and jumps to the old target
value while the new count is nonzero. -/
def Obligations.LoopDecrementsThenTests : Prop :=
  ∀ (s : State) (c t : RegId),
    (s.reg c = 1#64 → exec (.loop c t) s = .next (s.setReg c 0#64)) ∧
    (s.reg c ≠ 1#64 →
      exec (.loop c t) s = .next ((s.setReg c (BitVec.ofInt 64 ((s.reg c).toNat - 1))).setReg s.crmap.ip (s.reg t)))

/-- R112, R246: Exit halts with the whole of `EX`, HTL parks; no register, no byte and nothing else changes. The process
exit code (R279) is `EX`, respectively none. -/
def Obligations.ExitHaltsAndHtlParks : Prop :=
  ∀ s : State,
    exec .exit s = .next { s with status := .halted (s.reg s.crmap.ex) } ∧
    exec .htl s = .next { s with status := .parked } ∧
    (Status.halted (s.reg s.crmap.ex)).processCode = some (s.reg s.crmap.ex) ∧ Status.parked.processCode = none

/-- R118: where the stack gate admits 8 bytes at `ST`, Call pushes the address of the next instruction big-endian, raises
`ST` by 8 and jumps to the target read before the push. -/
def Obligations.CallPushesTheReturnAddress : Prop :=
  ∀ (s : State) (t : RegId),
    let p := (s.reg s.crmap.st).toNat
    (s.reg s.crmap.ss).toNat ≤ p → (s.reg s.crmap.sb).toNat ≤ p → p + 8 < s.al → p + 8 ≤ s.nphys →
    ∃ u, exec (.call t) s = .next u ∧ (u.reg s.crmap.st).toNat = p + 8 ∧ u.reg s.crmap.ip = s.reg t ∧
      u.load p 8 = s.ip ∧ StoresOnly [s.crmap.st, s.crmap.ip] p 8 s u

/-- R119: where the stack gate admits the 8 bytes below `ST`, Ret lowers `ST` by 8 and reads `IP` from them. -/
def Obligations.RetPopsTheReturnAddress : Prop :=
  ∀ s : State,
    let p := (s.reg s.crmap.st - 8#64).toNat
    (s.reg s.crmap.ss).toNat ≤ p → (s.reg s.crmap.sb).toNat ≤ p → p + 8 < s.al → p + 8 ≤ s.nphys →
    ∃ u, exec .ret s = .next u ∧ u.reg s.crmap.st = s.reg s.crmap.st - 8#64 ∧ u.ip = s.load p 8 ∧
      WritesOnly [s.crmap.st, s.crmap.ip] s u

/-- R118, R119, R121: a Ret returns behind its Call, with `ST` as before the Call, from every state of the callee that has
left `ST`, the stack bounds, `AL` and the 8 bytes of the return address alone. -/
def Obligations.RetReturnsBehindItsCall : Prop :=
  ∀ (s u r : State) (t : RegId), s.status = .running → exec (.call t) s = .next u → u.status = .running →
    (∀ q, q ∈ [s.crmap.st, s.crmap.ss, s.crmap.sb, s.crmap.al] → r.reg q = u.reg q) →
    (∀ x, (s.reg s.crmap.st).toNat ≤ x → x < (s.reg s.crmap.st).toNat + 8 → r.mem.read x = u.mem.read x) →
    r.nphys = u.nphys → r.crmap = u.crmap →
    ∃ v, exec .ret r = .next v ∧ v.reg s.crmap.ip = s.reg s.crmap.ip ∧ v.reg s.crmap.st = s.reg s.crmap.st ∧
      WritesOnly [s.crmap.st, s.crmap.ip] r v

/-! ### Arithmetic -/

/-- R130 to R133, R135, R136: Add, Sub, Mul, Inc, Dec store the exact result modulo `2^64`. -/
def Obligations.UnsignedArithmeticWraps : Prop :=
  ∀ (s : State) (d a b : RegId),
    ComputesInto (.add d a b) s d (BitVec.ofNat 64 (s.regNat a + s.regNat b)) ∧
    ComputesInto (.sub d a b) s d (BitVec.ofInt 64 ((s.regNat a : Int) - s.regNat b)) ∧
    ComputesInto (.mul d a b) s d (BitVec.ofNat 64 (s.regNat a * s.regNat b)) ∧
    ComputesInto (.inc d) s d (BitVec.ofNat 64 (s.regNat d + 1)) ∧
    ComputesInto (.dec d) s d (BitVec.ofInt 64 ((s.regNat d : Int) - 1))

/-- R134: with a nonzero divisor Div stores quotient and remainder, `x = y * quo + rem` with `rem < y`; a shared destination
ends with the remainder (the spec's decision D13, log 18). -/
def Obligations.DivStoresQuotientAndRemainder : Prop :=
  ∀ (s : State) (q r a b : RegId), s.reg b ≠ 0#64 →
    ∃ t, exec (.div q r a b) s = .next t ∧ WritesOnly [q, r] s t ∧ (t.reg r).toNat < s.regNat b ∧
      (q ≠ r → s.regNat a = s.regNat b * (t.reg q).toNat + (t.reg r).toNat) ∧
      (t.reg r).toNat = s.regNat a % s.regNat b

/-- R142 (rounding and overflow: the spec's decision D12, log 18): with a nonzero divisor IDiv rounds toward zero; the
remainder is smaller than the divisor in magnitude and has the dividend's sign; `-2^63 / -1` gives `2^63` wrapped and 0. -/
def Obligations.IDivTruncatesTowardZero : Prop :=
  ∀ (s : State) (q r a b : RegId), s.reg b ≠ 0#64 → q ≠ r →
    ∃ t, exec (.iDiv q r a b) s = .next t ∧ WritesOnly [q, r] s t ∧
      (t.reg r).toInt.natAbs < (s.reg b).toInt.natAbs ∧
      ((t.reg r).toInt = 0 ∨ ((t.reg r).toInt < 0 ↔ (s.reg a).toInt < 0)) ∧
      (s.reg a = 0x8000000000000000#64 → s.reg b = 0xFFFFFFFFFFFFFFFF#64 →
        t.reg q = 0x8000000000000000#64 ∧ t.reg r = 0#64) ∧
      (¬ (s.reg a = 0x8000000000000000#64 ∧ s.reg b = 0xFFFFFFFFFFFFFFFF#64) →
        (s.reg a).toInt = (t.reg q).toInt * (s.reg b).toInt + (t.reg r).toInt)

/-- R267, R134, R142, and R142's shared destination: a zero divisor faults with 0xc2 and no register is written; with one
register for quotient and remainder IDiv leaves the remainder there (decision D13, log 18). -/
def Obligations.DivisionByZeroFaults : Prop :=
  ∀ (s : State) (q r a b : RegId),
    (s.reg b = 0#64 → FaultsWith (.div q r a b) s .c2 ∧ FaultsWith (.iDiv q r a b) s .c2) ∧
    (s.reg b ≠ 0#64 → ComputesInto (.iDiv q q a b) s q (BitVec.ofInt 64 ((s.reg a).toInt.tmod (s.reg b).toInt)))

/-- R141, R146, R147 (wrapping: decision D11, log 17; amounts modulo 64: D10, log 16): IMul stores the low 64 bits of the
signed product, the same word as Mul; ILMov shifts as LMov; IRMov shifts right and copies the sign bit. -/
def Obligations.SignedMultiplyAndShifts : Prop :=
  ∀ (s : State) (d a b : RegId),
    ComputesInto (.iMul d a b) s d (BitVec.ofInt 64 ((s.reg a).toInt * (s.reg b).toInt)) ∧
    ComputesInto (.iMul d a b) s d (s.reg a * s.reg b) ∧
    ComputesInto (.iLMov d a b) s d (s.reg a <<< (s.regNat b % 64)) ∧
    ∃ t, exec (.iRMov d a b) s = .next t ∧ WritesOnly [d] s t ∧
      ∀ i, i < 64 → (t.reg d).getLsbD i =
        if i + s.regNat b % 64 < 64 then (s.reg a).getLsbD (i + s.regNat b % 64) else (s.reg a).getLsbD 63

/-- R143 to R145, R150 to R152: the comparisons write 1, 0 or `2^64 - 1`, respectively 1 or 0, from the unsigned or the
signed order of their operands. -/
def Obligations.ComparisonsWriteTheOrder : Prop :=
  ∀ (s : State) (d a b : RegId),
    let x := s.regNat a
    let y := s.regNat b
    let sx := (s.reg a).toInt
    let sy := (s.reg b).toInt
    ComputesInto (.than d a b) s d (if x > y then 1#64 else if x = y then 0#64 else 0xFFFFFFFFFFFFFFFF#64) ∧
    ComputesInto (.less d a b) s d (if x < y then 1#64 else 0#64) ∧
    ComputesInto (.more d a b) s d (if x > y then 1#64 else 0#64) ∧
    ComputesInto (.iThan d a b) s d (if sx > sy then 1#64 else if sx = sy then 0#64 else 0xFFFFFFFFFFFFFFFF#64) ∧
    ComputesInto (.iLess d a b) s d (if sx < sy then 1#64 else 0#64) ∧
    ComputesInto (.iMore d a b) s d (if sx > sy then 1#64 else 0#64)

/-- R153: Than and IThan are antisymmetric: exchanging the operands gives the negated word, and for equal operands both words are
0. -/
def Obligations.ThanIsAntisymmetric : Prop :=
  ∀ (s : State) (d a b : RegId),
    (∃ t u, exec (.than d a b) s = .next t ∧ exec (.than d b a) s = .next u ∧
      t.reg d = BitVec.ofInt 64 (-(u.reg d).toInt) ∧ (s.reg a = s.reg b → t.reg d = 0#64 ∧ u.reg d = 0#64)) ∧
    (∃ t u, exec (.iThan d a b) s = .next t ∧ exec (.iThan d b a) s = .next u ∧
      t.reg d = BitVec.ofInt 64 (-(u.reg d).toInt) ∧ (s.reg a = s.reg b → t.reg d = 0#64 ∧ u.reg d = 0#64))

/-- R161 to R164, R169, R170 (Complement bitwise: the spec's decision D14, log 19): And, Or, Xor, Complement bit by bit; Not
and ToBool on truth values. -/
def Obligations.BitwiseOperationsBitByBit : Prop :=
  ∀ (s : State) (d a b : RegId),
    (∃ t, exec (.and d a b) s = .next t ∧ WritesOnly [d] s t ∧
      ∀ i, i < 64 → (t.reg d).getLsbD i = ((s.reg a).getLsbD i && (s.reg b).getLsbD i)) ∧
    (∃ t, exec (.or d a b) s = .next t ∧ WritesOnly [d] s t ∧
      ∀ i, i < 64 → (t.reg d).getLsbD i = ((s.reg a).getLsbD i || (s.reg b).getLsbD i)) ∧
    (∃ t, exec (.xor d a b) s = .next t ∧ WritesOnly [d] s t ∧
      ∀ i, i < 64 → (t.reg d).getLsbD i = ((s.reg a).getLsbD i ^^ (s.reg b).getLsbD i)) ∧
    (∃ t, exec (.complement d a) s = .next t ∧ WritesOnly [d] s t ∧
      ∀ i, i < 64 → (t.reg d).getLsbD i = !(s.reg a).getLsbD i) ∧
    ComputesInto (.not d a) s d (if s.reg a = 0#64 then 1#64 else 0#64) ∧
    ComputesInto (.toBool d a) s d (if s.reg a = 0#64 then 0#64 else 1#64)

/-- R160, R165 to R168 (amounts modulo 64 for the shifts: the spec's decision D10, log 16): where each bit goes. -/
def Obligations.ShiftsAndRotatesMoveBits : Prop :=
  ∀ (s : State) (d a b : RegId),
    let k := s.regNat b % 64
    (∃ t, exec (.lMov d a b) s = .next t ∧ WritesOnly [d] s t ∧
      ∀ i, i < 64 → (t.reg d).getLsbD i = (decide (k ≤ i) && (s.reg a).getLsbD (i - k))) ∧
    (∃ t, exec (.rMov d a b) s = .next t ∧ WritesOnly [d] s t ∧
      ∀ i, i < 64 → (t.reg d).getLsbD i = (s.reg a).getLsbD (i + k)) ∧
    (∃ t, exec (.rol d a b) s = .next t ∧ WritesOnly [d] s t ∧
      ∀ i, i < 64 → (t.reg d).getLsbD ((i + k) % 64) = (s.reg a).getLsbD i) ∧
    (∃ t, exec (.ror d a b) s = .next t ∧ WritesOnly [d] s t ∧
      ∀ i, i < 64 → (t.reg d).getLsbD i = (s.reg a).getLsbD ((i + k) % 64))

/-! ### Moves, loads, stores -/

/-- R180 to R188 (zero upper bits: the spec's decision D9, log 15): Mov1/2/4/8 and Set1/2/4/8 store the low `8w` bits of their
source, zero-extended; a well-formed literal is stored as it is. What Set stores of a literal that does not fit its width, which
no byte string decodes to, is the model's choice (log 30, DESIGN CHOICE). -/
def Obligations.MovesAndLiteralsZeroExtend : Prop :=
  ∀ (s : State) (w : Width) (d r : RegId) (lit : Word),
    ComputesInto (w.mov d r) s d (BitVec.ofNat 64 (s.regNat r % 2 ^ (8 * w.bytes))) ∧
    ComputesInto (w.set d lit) s d (BitVec.ofNat 64 (lit.toNat % 2 ^ (8 * w.bytes))) ∧
    ((w.set d lit).WF → ComputesInto (w.set d lit) s d lit)

/-- R189 to R192, R180 (zero upper bits: the spec's decision D9, log 15): where the data gate admits the `w` bytes, Get1/2/4/8
load them big-endian, zero-extended. -/
def Obligations.GetLoadsBigEndian : Prop :=
  ∀ (s : State) (w : Width) (d a : RegId), s.regNat a + w.bytes < s.al → s.regNat a + w.bytes ≤ s.nphys →
    ∃ t, exec (w.get d a) s = .next t ∧ WritesOnly [d] s t ∧ (t.reg d).toNat = s.load (s.regNat a) w.bytes ∧
      (t.reg d).toNat < 2 ^ (8 * w.bytes)

/-- R193 to R196: where the data gate admits the `w` bytes, Wrt1/2/4/8 store the low `8w` bits of their source there. -/
def Obligations.WrtStoresTheLowBytes : Prop :=
  ∀ (s : State) (w : Width) (a v : RegId), s.regNat a + w.bytes < s.al → s.regNat a + w.bytes ≤ s.nphys →
    ∃ t, exec (w.wrt a v) s = .next t ∧ StoresOnly [] (s.regNat a) w.bytes s t ∧
      t.load (s.regNat a) w.bytes = s.regNat v % 2 ^ (8 * w.bytes)

/-- R261 (block and exchange gates, and FIN and FOUT's: the spec's decisions D17 and D24, logs 21, 26): every data access
whose range the gate refuses faults with 0xb1 and changes nothing. -/
def Obligations.DataGateFailureFaults : Prop :=
  ∀ (s : State) (w : Width) (x a b c n v : RegId),
    (s.al ≤ s.regNat a + w.bytes →
      FaultsWith (w.get x a) s .b1 ∧ FaultsWith (w.wrt a x) s .b1 ∧ FaultsWith (w.xchg x a) s .b1) ∧
    (s.al ≤ s.regNat a + s.regNat n ∨ s.al ≤ s.regNat b + s.regNat n →
      FaultsWith (.movs a b n) s .b1 ∧ FaultsWith (.cmps x a b n) s .b1) ∧
    (s.al ≤ s.regNat a + s.regNat n * w.bytes → FaultsWith (w.scas x a n v) s .b1) ∧
    (s.al ≤ s.regNat a + s.regNat n →
      FaultsWith (.fopen x a n b v) s .b1 ∧ FaultsWith (.fopen x b v a n) s .b1 ∧
      FaultsWith (.fin x v a n b c) s .b1 ∧ FaultsWith (.fout x v a n b c) s .b1)

/-- R197, R72 (wrapping sum: the spec's decision D21, log 23): LEA stores `(base + index * scale) mod 2^64`, or 0 when that
is at or past `AL`; it never faults. -/
def Obligations.LeaClampsOutOfRangeToZero : Prop :=
  ∀ (s : State) (d b i k : RegId),
    let addr := (s.regNat b + s.regNat i * s.regNat k) % 2 ^ 64
    (addr < s.al → ComputesInto (.lea d b i k) s d (BitVec.ofNat 64 addr)) ∧
    (s.al ≤ addr → ComputesInto (.lea d b i k) s d 0#64)

/-! ### Stack and exchange -/

/-- R200 to R204: where the stack gate admits `w` bytes at `ST`, Psh1/2/4/8 store the low `8w` bits there and raise `ST`. -/
def Obligations.PshStoresAtTheTop : Prop :=
  ∀ (s : State) (w : Width) (r : RegId),
    let p := (s.reg s.crmap.st).toNat
    (s.reg s.crmap.ss).toNat ≤ p → (s.reg s.crmap.sb).toNat ≤ p → p + w.bytes < s.al → p + w.bytes ≤ s.nphys →
    ∃ t, exec (w.psh r) s = .next t ∧ (t.reg s.crmap.st).toNat = p + w.bytes ∧
      t.load p w.bytes = s.regNat r % 2 ^ (8 * w.bytes) ∧ StoresOnly [s.crmap.st] p w.bytes s t

/-- R205 to R208, R180 (zero upper bits: the spec's decision D9, log 15): where the stack gate admits the `w` bytes below `ST`,
Pop1/2/4/8 lower `ST` and load them zero-extended; `Pop ST` leaves the popped value in `ST`. -/
def Obligations.PopLoadsBelowTheTop : Prop :=
  ∀ (s : State) (w : Width) (d : RegId),
    let p := s.reg s.crmap.st - BitVec.ofNat 64 w.bytes
    (s.reg s.crmap.ss).toNat ≤ p.toNat → (s.reg s.crmap.sb).toNat ≤ p.toNat → p.toNat + w.bytes < s.al →
    p.toNat + w.bytes ≤ s.nphys →
    ∃ t, exec (w.pop d) s = .next t ∧ (t.reg d).toNat = s.load p.toNat w.bytes ∧
      (d ≠ s.crmap.st → t.reg s.crmap.st = p) ∧
      WritesOnly [s.crmap.st, d] s t

/-- R262 to R264, R269: a push or Call whose stack gate fails faults with the gate's code and changes nothing else; a pop or
Ret faults with `ST` lowered and nothing else changed. -/
def Obligations.StackGateFailureFaults : Prop :=
  ∀ (s : State) (w : Width) (r : RegId) (c : FaultCode),
    (s.checkStack (s.reg s.crmap.st).toNat w.bytes = some c → FaultsWith (w.psh r) s c) ∧
    (s.checkStack (s.reg s.crmap.st).toNat 8 = some c → FaultsWith (.call r) s c) ∧
    (s.checkStack (s.reg s.crmap.st - BitVec.ofNat 64 w.bytes).toNat w.bytes = some c →
      exec (w.pop r) s =
        .next ((s.setReg s.crmap.st (s.reg s.crmap.st - BitVec.ofNat 64 w.bytes)).raise c)) ∧
    (s.checkStack (s.reg s.crmap.st - 8#64).toNat 8 = some c →
      exec .ret s = .next ((s.setReg s.crmap.st (s.reg s.crmap.st - 8#64)).raise c))

/-- R209, STACK DISCIPLINE: pushing the registers `rs` with one width and popping into as many registers `ds` with the same
width restores `ST` and gives the truncated values in reverse order; only the popped registers and the pushed bytes change.
Room for the pushes is premised ("provided no push faults"); the popped registers are pairwise distinct and none of them bounds
the stack. -/
def Obligations.PushesThenPopsReverse : Prop :=
  ∀ (s : State) (w : Width) (rs ds : List RegId), ds.length = rs.length → ds.Nodup →
    (∀ d ∈ ds, d ∉ [s.crmap.st, s.crmap.ss, s.crmap.sb, s.crmap.al]) → s.crmap.st ∉ rs →
    (s.reg s.crmap.ss).toNat ≤ (s.reg s.crmap.st).toNat → (s.reg s.crmap.sb).toNat ≤ (s.reg s.crmap.st).toNat →
    (s.reg s.crmap.st).toNat + rs.length * w.bytes < s.al → (s.reg s.crmap.st).toNat + rs.length * w.bytes ≤ s.nphys →
    ∃ t, execAll (rs.map w.psh ++ ds.map w.pop) s = .next t ∧ t.reg s.crmap.st = s.reg s.crmap.st ∧
      ds.map t.regNat = rs.reverse.map (fun r => s.regNat r % 2 ^ (8 * w.bytes)) ∧
      RegsKept ds s t ∧ MemKeptOutside (s.reg s.crmap.st).toNat (rs.length * w.bytes) s t ∧ RestKept s t

/-- R210 to R213 (upper bits kept and the data gate: the spec's decisions D9 and D17, logs 15, 21): XCHG1/2/4/8 exchange the
low `8w` bits of the register with the `w` bytes at the address. -/
def Obligations.XchgExchangesLowBits : Prop :=
  ∀ (s : State) (w : Width) (x a : RegId), s.regNat a + w.bytes < s.al → s.regNat a + w.bytes ≤ s.nphys →
    ∃ t, exec (w.xchg x a) s = .next t ∧ StoresOnly [x] (s.regNat a) w.bytes s t ∧
      t.load (s.regNat a) w.bytes = s.regNat x % 2 ^ (8 * w.bytes) ∧
      (t.reg x).toNat % 2 ^ (8 * w.bytes) = s.load (s.regNat a) w.bytes ∧
      (t.reg x).toNat / 2 ^ (8 * w.bytes) = s.regNat x / 2 ^ (8 * w.bytes)

/-- R214, R245 (Data's byte-level contract: the spec's decision D22, log 24): Swap exchanges two whole registers; Data stores
the payload's address and skips the payload, or faults with 0xb5 when the byte after it is not below `AL`. -/
def Obligations.SwapAndInlineData : Prop :=
  (∀ (s : State) (x y : RegId),
    ∃ t, exec (.swap x y) s = .next t ∧ t.reg x = s.reg y ∧ t.reg y = s.reg x ∧ WritesOnly [x, y] s t) ∧
  (∀ (s : State) (d : RegId) (len : Word),
    (s.ip + len.toNat < s.al →
      ∃ t, exec (.data d len) s = .next t ∧ t.reg d = s.reg s.crmap.ip ∧ (d ≠ s.crmap.ip → t.ip = s.ip + len.toNat) ∧
        WritesOnly [s.crmap.ip, d] s t) ∧
    (s.al ≤ s.ip + len.toNat → FaultsWith (.data d len) s .b5))

/-! ### Block operations -/

/-- R221 (gates: decision D17, log 21): MOVS copies forward byte by byte. Without overlap from below the result is a correct
move; with `src < dst` the first `dst - src` bytes are replicated. -/
def Obligations.MovsCopiesForward : Prop :=
  ∀ (s : State) (d r n : RegId),
    let dst := s.regNat d
    let src := s.regNat r
    let cnt := s.regNat n
    src + cnt < s.al → dst + cnt < s.al → src + cnt ≤ s.nphys → dst + cnt ≤ s.nphys →
    ∃ t, exec (.movs d r n) s = .next t ∧ StoresOnly [] dst cnt s t ∧
      (dst ≤ src → ∀ i, i < cnt → t.mem.read (dst + i) = s.mem.read (src + i)) ∧
      (src < dst → ∀ i, i < cnt → t.mem.read (dst + i) = s.mem.read (src + i % (dst - src)))

/-- R222 (unsigned bytes: decision D18, log 21): CMPS gives 0 for equal ranges, else the order of the first difference. -/
def Obligations.CmpsDecidesAtTheFirstDifference : Prop :=
  ∀ (s : State) (d a b n : RegId),
    let pa := s.regNat a
    let pb := s.regNat b
    let cnt := s.regNat n
    pa + cnt < s.al → pb + cnt < s.al → pa + cnt ≤ s.nphys → pb + cnt ≤ s.nphys →
    ∃ t, exec (.cmps d a b n) s = .next t ∧ WritesOnly [d] s t ∧
      ((∀ i, i < cnt → s.mem.read (pa + i) = s.mem.read (pb + i)) → t.reg d = 0#64) ∧
      (∀ j, j < cnt → (∀ i, i < j → s.mem.read (pa + i) = s.mem.read (pb + i)) →
        ((s.mem.read (pa + j)).toNat < (s.mem.read (pb + j)).toNat → t.reg d = 0xFFFFFFFFFFFFFFFF#64) ∧
        ((s.mem.read (pb + j)).toNat < (s.mem.read (pa + j)).toNat → t.reg d = 1#64))

/-- R223 to R226 (element index and truncated key: decision D18, log 21): SCAS1/2/4/8 give the index of the first element
equal to the key, or the sentinel. -/
def Obligations.ScasFindsTheFirstMatch : Prop :=
  ∀ (s : State) (w : Width) (d a n v : RegId),
    let p := s.regNat a
    let cnt := s.regNat n
    let key := s.regNat v % 2 ^ (8 * w.bytes)
    p + cnt * w.bytes < s.al → p + cnt * w.bytes ≤ s.nphys →
    ∃ t, exec (w.scas d a n v) s = .next t ∧ WritesOnly [d] s t ∧
      ((∀ i, i < cnt → s.load (p + i * w.bytes) w.bytes ≠ key) → t.reg d = 0xFFFFFFFFFFFFFFFF#64) ∧
      (∀ j, j < cnt → s.load (p + j * w.bytes) w.bytes = key → (∀ i, i < j → s.load (p + i * w.bytes) w.bytes ≠ key) →
        (t.reg d).toNat = j)

/-! ### Conversions -/

/-- R231 to R234 (digit order, invalid nibbles, direction of the pair: the spec's decisions D19 and D20, log 22): the digit
sums of BcdT and BcdF; SignT negates for a zero flag; SignF splits into magnitude and flag, the flag written last. -/
def Obligations.ConversionsFollowTheirSums : Prop :=
  ∀ (s : State) (d a f : RegId),
    ComputesInto (.bcdT d a) s d
      (BitVec.ofNat 64 (∑ i ∈ Finset.range 16, s.regNat a / 2 ^ (4 * i) % 16 * 10 ^ i)) ∧
    ComputesInto (.bcdF d a) s d
      (BitVec.ofNat 64 (∑ i ∈ Finset.range 16, s.regNat a / 10 ^ i % 10 * 16 ^ i)) ∧
    ComputesInto (.signT d a f) s d (if s.reg f = 0#64 then BitVec.ofInt 64 (-(s.regNat a : Int)) else s.reg a) ∧
    ∃ t, exec (.signF d f a) s = .next t ∧ WritesOnly [d, f] s t ∧
      (d ≠ f → (t.reg d).toNat = (s.reg a).toInt.natAbs) ∧
      t.reg f = (if 0 ≤ (s.reg a).toInt then 1#64 else 0#64)

/-- R235: BCD and sign-magnitude round trips, through the instructions: BcdF then BcdT gives `x mod 10^16`; BcdT then BcdF
gives back a valid BCD word; SignF then SignT gives back every word. -/
def Obligations.ConversionsRoundTrip : Prop :=
  (∀ (s : State) (d a e : RegId),
    ∃ t u, exec (.bcdF d a) s = .next t ∧ exec (.bcdT e d) t = .next u ∧ (u.reg e).toNat = s.regNat a % 10 ^ 16) ∧
  (∀ (s : State) (d a e : RegId), (∀ i, i < 16 → s.regNat a / 16 ^ i % 16 ≤ 9) →
    ∃ t u, exec (.bcdT d a) s = .next t ∧ exec (.bcdF e d) t = .next u ∧ u.reg e = s.reg a) ∧
  (∀ (s : State) (m f a e : RegId), m ≠ f →
    ∃ t u, exec (.signF m f a) s = .next t ∧ exec (.signT e m f) t = .next u ∧ u.reg e = s.reg a)

/-! ### Host I/O. The host's answers are free values (log 8): every statement holds whatever they are. -/

/-- R241, R240: where both ranges are admitted, FOPEN gives the host exactly the bytes of the two ranges, writes its error
code to `ER`, then its handle to `d`, and writes no memory. That the answer is drawn from `hostSeed` and `hostLog`, and that
`hostLog` records the exchange, rest on log 8 (DESIGN CHOICE): both fields are the model's own, not the spec's. -/
def Obligations.FopenStoresTheHostsAnswer : Prop :=
  ∀ (s : State) (d pa pl ma ml : RegId),
    s.regNat pa + s.regNat pl < s.al → s.regNat ma + s.regNat ml < s.al →
    s.regNat pa + s.regNat pl ≤ s.nphys → s.regNat ma + s.regNat ml ≤ s.nphys →
    ∃ t err handle, exec (.fopen d pa pl ma ml) s = .next t ∧
      (err, handle) = Config.hostOpen s.hostSeed s.hostLog (s.mem.readBytes (s.regNat pa) (s.regNat pl))
        (s.mem.readBytes (s.regNat ma) (s.regNat ml)) ∧
      t.reg d = handle ∧ (d ≠ s.crmap.er → t.reg s.crmap.er = err) ∧ RegsKept [s.crmap.er, d] s t ∧ MemKept s t ∧
      t.status = s.status ∧ LaunchKept s t ∧
      t.hostLog = .opened (s.mem.readBytes (s.regNat pa) (s.regNat pl)) (s.mem.readBytes (s.regNat ma) (s.regNat ml))
        err handle :: s.hostLog

/-- R242, R244, R240, R68 (not touching `ER` and gating the declared buffer: the spec's decision D24, log 26): where the declared
buffer is admitted and holds the request, FIN stores the bytes `HostRead` delivers, at most `once * count` of them, at the
buffer, and counts the complete elements; a request larger than the buffer is refused. The model's own are three things: that the
physical limit of R68 is that of the bytes delivered, so that FIN completes where they are inside the arena though the declared
buffer is not, and with an empty delivery wherever the buffer lies (log 10, DEDUCED); that an unknown handle is one no FOPEN of
the run returned, which delivers nothing (log 9, DEDUCED); and that `hostLog` records the exchange (log 8, DESIGN CHOICE). -/
def Obligations.FinStoresWhatIsDelivered : Prop :=
  ∀ (s : State) (d h b l o c : RegId),
    let total := s.regNat o * s.regNat c
    let bytes := s.hostRead (s.reg h) total
    s.regNat b + s.regNat l < s.al →
    (total ≤ s.regNat l → s.inArena (s.regNat b) bytes.length →
      ∃ t, exec (.fin d h b l o c) s = .next t ∧ bytes.length ≤ total ∧
        (3 ≤ s.regNat h → (∀ p m e, Config.HostExchange.opened p m e (s.reg h) ∉ s.hostLog) → bytes = []) ∧
        t.mem.readBytes (s.regNat b) bytes.length = bytes ∧ MemKeptOutside (s.regNat b) bytes.length s t ∧
        t.reg d = (if s.regNat o = 0 then 0#64 else BitVec.ofNat 64 (bytes.length / s.regNat o)) ∧
        RegsKept [d] s t ∧ t.status = s.status ∧ LaunchKept s t ∧
        t.hostLog = .read (s.reg h) total bytes :: s.hostLog) ∧
    (s.regNat l < total → exec (.fin d h b l o c) s = .refused .finOverrun)

/-- R243, R244, R240, R68 (not touching `ER` and gating the declared buffer: the spec's decision D24, log 26): where the declared
buffer is admitted, FOUT gives the host the first `once * count` bytes and counts the complete elements of those `HostWrite`
took, at most all of them; a request larger than the buffer stores 0 and asks nobody. Memory never changes. The model's own are
three things: that the physical limit of R68 is that of the bytes requested, so that FOUT completes where they are inside the
arena though the declared buffer is not, and with an empty request wherever the buffer lies (log 10, DEDUCED); that an unknown
handle is one no FOPEN of the run returned, which takes nothing (log 9, DEDUCED); and that `hostLog` records the exchange
(log 8, DESIGN CHOICE). -/
def Obligations.FoutCountsWhatIsTaken : Prop :=
  ∀ (s : State) (d h b l o c : RegId),
    let total := s.regNat o * s.regNat c
    let given := s.mem.readBytes (s.regNat b) total
    let k := s.hostWrite (s.reg h) given
    s.regNat b + s.regNat l < s.al →
    (total ≤ s.regNat l → s.inArena (s.regNat b) total →
      ∃ t, exec (.fout d h b l o c) s = .next t ∧ k ≤ total ∧
        (3 ≤ s.regNat h → (∀ p m e, Config.HostExchange.opened p m e (s.reg h) ∉ s.hostLog) → k = 0) ∧
        t.reg d = (if s.regNat o = 0 then 0#64 else BitVec.ofNat 64 (k / s.regNat o)) ∧
        RegsKept [d] s t ∧ MemKept s t ∧ t.status = s.status ∧ LaunchKept s t ∧
        t.hostLog = .wrote (s.reg h) given k :: s.hostLog) ∧
    (s.regNat l < total → ComputesInto (.fout d h b l o c) s d 0#64)
end

