-- ==== Sys2Proof/Laws/Bytes.lean ====
section
/-! SUPPORT. Sys2Proof/Laws/Bytes.lean: big-endian byte strings and numbers (20_memory.md R62 to R64, R67). -/

namespace Sys2Proof

@[simp] theorem beNat_nil : beNat [] = 0 := rfl

@[simp] theorem beNat_cons (b : Byte) (bs : List Byte) :
    beNat (b :: bs) = b.toNat * 256 ^ bs.length + beNat bs := rfl

@[simp] theorem beBytes_zero (v : Nat) : beBytes 0 v = [] := rfl

theorem beBytes_succ (n v : Nat) : beBytes (n + 1) v = BitVec.ofNat 8 (v / 256 ^ n) :: beBytes n v := rfl

@[simp] theorem length_beBytes (n v : Nat) : (beBytes n v).length = n := by
  induction n with
  | zero => rfl
  | succ n ih => simp [beBytes_succ, ih]

@[simp] theorem length_tableBytes (n w : Nat) : (tableBytes n w).length = n := by
  induction n generalizing w with
  | zero => rfl
  | succ n ih => simp [tableBytes, ih]

theorem beNat_lt (bs : List Byte) : beNat bs < 256 ^ bs.length := by
  induction bs with
  | nil => simp
  | cons b bs ih =>
    have hb : b.toNat ≤ 255 := by have := b.isLt; omega
    have : b.toNat * 256 ^ bs.length ≤ 255 * 256 ^ bs.length := Nat.mul_le_mul_right _ hb
    simp only [beNat_cons, List.length_cons, pow_succ]
    omega

/-- Reading back the low `8n` bits that were written out. -/
theorem beNat_beBytes (n v : Nat) : beNat (beBytes n v) = v % 256 ^ n := by
  induction n with
  | zero => simp [Nat.mod_one]
  | succ n ih =>
    rw [beBytes_succ, beNat_cons, ih, length_beBytes, BitVec.toNat_ofNat]
    rw [show (2 : Nat) ^ 8 = 256 from rfl, pow_succ, Nat.mod_mul]
    rw [Nat.mul_comm (v / 256 ^ n % 256)]
    omega

/-- Writing out again what was read. -/
theorem beBytes_beNat (bs : List Byte) : beBytes bs.length (beNat bs) = bs := by
  suffices h : ∀ (bs : List Byte) (k : Nat), beBytes bs.length (k * 256 ^ bs.length + beNat bs) = bs by
    simpa using h bs 0
  intro bs
  induction bs with
  | nil => intro k; rfl
  | cons b bs ih =>
    intro k
    have hlt := beNat_lt bs
    have hpos : 0 < 256 ^ bs.length := Nat.pos_of_ne_zero (by positivity)
    rw [List.length_cons, beBytes_succ, beNat_cons]
    congr 1
    · have hdiv : (k * 256 ^ (bs.length + 1) + (b.toNat * 256 ^ bs.length + beNat bs)) / 256 ^ bs.length
          = k * 256 + b.toNat := by
        rw [show k * 256 ^ (bs.length + 1) + (b.toNat * 256 ^ bs.length + beNat bs)
          = beNat bs + 256 ^ bs.length * (k * 256 + b.toNat) by rw [pow_succ]; ring]
        rw [Nat.add_mul_div_left _ _ hpos, Nat.div_eq_of_lt hlt, Nat.zero_add]
      rw [hdiv]
      apply BitVec.eq_of_toNat_eq
      have := b.isLt
      rw [BitVec.toNat_ofNat]
      omega
    · rw [show k * 256 ^ (bs.length + 1) + (b.toNat * 256 ^ bs.length + beNat bs)
        = (k * 256 + b.toNat) * 256 ^ bs.length + beNat bs by rw [pow_succ]; ring]
      exact ih _

/-- The byte at a place of a written-out number. -/
theorem getElem_beBytes (n v i : Nat) (h : i < (beBytes n v).length) :
    (beBytes n v)[i] = BitVec.ofNat 8 (v / 256 ^ (n - 1 - i)) := by
  induction n generalizing i with
  | zero => simp at h
  | succ n ih =>
    cases i with
    | zero => simp [beBytes_succ]
    | succ i =>
      simp only [beBytes_succ, List.getElem_cons_succ]
      rw [ih]
      congr 3
      omega

end Sys2Proof
end

