-- ==== Sys2Proof/Laws/Maps.lean ====
section
/-! SUPPORT. Sys2Proof/Laws/Maps.lean: what a map is good for: under any `OPMAP` a mnemonic's byte selects its format and no
other byte does (30_encoding.md R97, R98), and under any `CRMAP` two control registers are two slots (10_state.md R24). -/

namespace Sys2Proof

/-! ### Looking up in two lists side by side -/

theorem lookup_zip_getElem {α β : Type} [BEq α] [LawfulBEq α] {xs : List α} {ys : List β} (hx : xs.Nodup) {i : Nat}
    (h1 : i < xs.length) (h2 : i < ys.length) : (xs.zip ys).lookup xs[i] = some ys[i] := by
  induction xs generalizing ys i with
  | nil => simp at h1
  | cons x xs ih =>
    cases ys with
    | nil => simp at h2
    | cons y ys =>
      rw [List.nodup_cons] at hx
      cases i with
      | zero => simp
      | succ i =>
        have hi : i < xs.length := by simpa using h1
        have hne : xs[i] ≠ x := fun e => hx.1 (e ▸ List.getElem_mem hi)
        simp [List.lookup_cons, beq_false_of_ne hne, ih hx.2 hi (by simpa using h2)]

theorem lookup_zip_some {α β : Type} [BEq α] [LawfulBEq α] {xs : List α} {ys : List β} {x : α} {y : β}
    (h : (xs.zip ys).lookup x = some y) : ∃ (i : Nat) (h1 : i < xs.length) (h2 : i < ys.length), xs[i] = x ∧ ys[i] = y := by
  induction xs generalizing ys with
  | nil => simp at h
  | cons a xs ih =>
    cases ys with
    | nil => simp at h
    | cons b ys =>
      rw [List.zip_cons_cons, List.lookup_cons] at h
      by_cases he : x = a
      · exact ⟨0, by simp, by simp, he.symm, by simpa [he] using h⟩
      · obtain ⟨i, h1, h2, h3, h4⟩ := ih (by simpa [beq_false_of_ne he] using h)
        exact ⟨i + 1, by simpa using h1, by simpa using h2, by simpa using h3, by simpa using h4⟩

/-! ### Opcode maps -/

theorem length_opcodeTable : opcodeTable.length = 80 := rfl

theorem zip_opcodeTable : Opmap.default.codes.zip (opcodeTable.map Prod.snd) = opcodeTable := rfl

/-- The byte a map gives a mnemonic selects that mnemonic's format. -/
theorem formOf_codeOf (m : Opmap) {std : Byte} {f : Form} (h : opcodeTable.lookup std = some f) :
    formOf m (m.codeOf std) = some f := by
  rw [← zip_opcodeTable] at h
  obtain ⟨i, h1, h2, h3, h4⟩ := lookup_zip_some h
  have hi : i < 80 := by rwa [Opmap.default.complete] at h1
  have hm : i < m.codes.length := by rw [m.complete]; exact hi
  rw [← h3, Opmap.codeOf, lookup_zip_getElem Opmap.default.injective h1 hm, Option.getD_some, formOf, Opmap.table,
    lookup_zip_getElem m.injective hm h2, h4]

/-- A byte that selects a format is the byte of one mnemonic of the table. -/
theorem formOf_some {m : Opmap} {op : Byte} {f : Form} (h : formOf m op = some f) :
    ∃ std, (std, f) ∈ opcodeTable ∧ m.codeOf std = op := by
  obtain ⟨i, h1, h2, h3, h4⟩ := lookup_zip_some h
  have hs : i < Opmap.default.codes.length := by rw [Opmap.default.complete, ← m.complete]; exact h1
  refine ⟨Opmap.default.codes[i], ?_, ?_⟩
  · have hz : i < (Opmap.default.codes.zip (opcodeTable.map Prod.snd)).length := by
      rw [List.length_zip]; exact lt_min hs h2
    have := List.getElem_mem hz
    rwa [List.getElem_zip, h4, zip_opcodeTable] at this
  · rw [Opmap.codeOf, lookup_zip_getElem Opmap.default.injective hs h1, Option.getD_some, h3]

/-- Exactly the bytes a map does not assign are unknown opcodes (R98). -/
theorem formOf_none {m : Opmap} {op : Byte} : formOf m op = none ↔ op ∉ m.codes := by
  constructor
  · intro h hm
    obtain ⟨i, hi, rfl⟩ := List.getElem_of_mem hm
    have h80 : i < (opcodeTable.map Prod.snd).length := by
      rw [List.length_map, length_opcodeTable, ← m.complete]; exact hi
    rw [formOf, Opmap.table, lookup_zip_getElem m.injective hi h80] at h
    exact absurd h (by simp)
  · intro hm
    cases hf : formOf m op with
    | none => rfl
    | some f =>
      obtain ⟨i, h1, _, h3, _⟩ := lookup_zip_some hf
      exact absurd (h3 ▸ List.getElem_mem h1) hm

/-- Under the default map the table of R97 is read as it stands. -/
theorem formOf_default (op : Byte) : formOf Opmap.default op = opcodeTable.lookup op := rfl

/-! ### Control-register maps -/

/-- The eleven control registers outside the argument range are pairwise distinct. -/
theorem Crmap.nodup (m : Crmap) : [m.ab, m.al, m.cs, m.ds, m.ss, m.ip, m.sb, m.st, m.ct, m.er, m.ex].Nodup :=
  (List.nodup_append.mp m.injective).2.1

theorem Crmap.al_ne_ip (m : Crmap) : m.al ≠ m.ip := by have := m.nodup; simp at this; tauto
theorem Crmap.al_ne_st (m : Crmap) : m.al ≠ m.st := by have := m.nodup; simp at this; tauto
theorem Crmap.ss_ne_st (m : Crmap) : m.ss ≠ m.st := by have := m.nodup; simp at this; tauto
theorem Crmap.sb_ne_st (m : Crmap) : m.sb ≠ m.st := by have := m.nodup; simp at this; tauto
theorem Crmap.ss_ne_ip (m : Crmap) : m.ss ≠ m.ip := by have := m.nodup; simp at this; tauto
theorem Crmap.sb_ne_ip (m : Crmap) : m.sb ≠ m.ip := by have := m.nodup; simp at this; tauto
theorem Crmap.ip_ne_st (m : Crmap) : m.ip ≠ m.st := by have := m.nodup; simp at this; tauto

end Sys2Proof
end

