-- ==== Sys2Proof/Laws/Memory.lean ====
section
/-! SUPPORT. Sys2Proof/Laws/Memory.lean: reading after writing, and that every memory operation keeps the canonical form
(20_memory.md R63, R64, R67). -/

namespace Sys2Proof.Machine

@[simp] theorem Memory.read_nil (a : Nat) : Memory.read [] a = Memory.unlisted := rfl

theorem Memory.read_cons (k : Nat) (v : Byte) (m : Memory) (a : Nat) :
    Memory.read ((k, v) :: m) a = if k = a then v else Memory.read m a := rfl

/-! ### Reading after one write -/

@[simp] theorem Memory.read_erase_same (m : Memory) (a : Nat) : (m.erase a).read a = Memory.unlisted := by
  induction m with
  | nil => rfl
  | cons c m ih =>
    obtain ⟨k, v⟩ := c
    by_cases h : k = a <;> simp [Memory.erase, h, ih, Memory.read_cons]

theorem Memory.read_erase_ne (m : Memory) {a x : Nat} (h : x ≠ a) : (m.erase a).read x = m.read x := by
  induction m with
  | nil => rfl
  | cons c m ih =>
    obtain ⟨k, v⟩ := c
    by_cases hk : k = a
    · subst hk; simp [Memory.erase, ih, Memory.read_cons, Ne.symm h]
    · simp [Memory.erase, hk, ih, Memory.read_cons]

@[simp] theorem Memory.read_insert_erase_same (m : Memory) (a : Nat) (b : Byte) :
    ((m.erase a).insert a b).read a = b := by
  induction m with
  | nil => simp [Memory.erase, Memory.insert, Memory.read_cons]
  | cons c m ih =>
    obtain ⟨k, v⟩ := c
    by_cases hk : k = a
    · simp [Memory.erase, hk, ih]
    · by_cases hlt : a < k <;> simp [Memory.erase, Memory.insert, hk, hlt, ih, Memory.read_cons]

theorem Memory.read_insert_ne (m : Memory) {a x : Nat} (b : Byte) (h : x ≠ a) : (m.insert a b).read x = m.read x := by
  induction m with
  | nil => simp [Memory.insert, Memory.read_cons, Ne.symm h]
  | cons c m ih =>
    obtain ⟨k, v⟩ := c
    by_cases hlt : a < k <;> simp [Memory.insert, hlt, ih, Memory.read_cons, Ne.symm h]

@[simp] theorem Memory.read_write_same (m : Memory) (a : Nat) (b : Byte) : (m.write a b).read a = b := by
  by_cases h : b = Memory.unlisted <;> simp [Memory.write, h]

theorem Memory.read_write_ne (m : Memory) {a x : Nat} (b : Byte) (h : x ≠ a) : (m.write a b).read x = m.read x := by
  by_cases hb : b = Memory.unlisted <;> simp [Memory.write, hb, Memory.read_erase_ne, Memory.read_insert_ne, h]

/-! ### Byte strings -/

@[simp] theorem Memory.length_readBytes (m : Memory) (a n : Nat) : (m.readBytes a n).length = n := by
  induction n generalizing a with
  | zero => rfl
  | succ n ih => simp [Memory.readBytes, ih]

theorem Memory.getElem_readBytes (m : Memory) (a n i : Nat) (h : i < (m.readBytes a n).length) :
    (m.readBytes a n)[i] = m.read (a + i) := by
  induction n generalizing a i with
  | zero => simp [Memory.readBytes] at h
  | succ n ih =>
    cases i with
    | zero => rfl
    | succ i => simp only [Memory.readBytes, List.getElem_cons_succ, ih]; congr 1; omega

theorem Memory.readBytes_add (m : Memory) (a n k : Nat) :
    m.readBytes a (n + k) = m.readBytes a n ++ m.readBytes (a + n) k := by
  induction n generalizing a with
  | zero => simp [Memory.readBytes]
  | succ n ih =>
    rw [show n + 1 + k = (n + k) + 1 by omega]
    simp only [Memory.readBytes, List.cons_append, ih]
    rw [show a + 1 + n = a + (n + 1) by omega]

theorem Memory.readBytes_congr {m m' : Memory} {a n : Nat} (h : ∀ x, a ≤ x → x < a + n → m.read x = m'.read x) :
    m.readBytes a n = m'.readBytes a n := by
  induction n generalizing a with
  | zero => rfl
  | succ n ih =>
    simp only [Memory.readBytes]
    rw [h a (Nat.le_refl a) (by omega), ih fun x h1 h2 => h x (by omega) (by omega)]

theorem Memory.read_writeBytes_outside (m : Memory) (p x : Nat) (bs : List Byte) (h : x < p ∨ p + bs.length ≤ x) :
    (m.writeBytes p bs).read x = m.read x := by
  induction bs generalizing m p with
  | nil => rfl
  | cons b bs ih =>
    simp only [List.length_cons] at h
    rw [Memory.writeBytes, ih _ _ (by omega), Memory.read_write_ne _ _ (by omega)]

theorem Memory.read_writeBytes_inside (m : Memory) (p i : Nat) (bs : List Byte) (h : i < bs.length) :
    (m.writeBytes p bs).read (p + i) = bs[i] := by
  induction bs generalizing m p i with
  | nil => simp at h
  | cons b bs ih =>
    cases i with
    | zero =>
      rw [Memory.writeBytes, Memory.read_writeBytes_outside _ _ _ _ (by omega)]
      simp
    | succ i =>
      have := ih (m.write p b) (p + 1) i (by simpa using h)
      rw [Memory.writeBytes, show p + (i + 1) = p + 1 + i by omega, this]
      rfl

theorem Memory.readBytes_writeBytes (m : Memory) (p : Nat) (bs : List Byte) :
    (m.writeBytes p bs).readBytes p bs.length = bs := by
  apply List.ext_getElem (by simp)
  intro i h1 h2
  rw [Memory.getElem_readBytes, Memory.read_writeBytes_inside _ _ _ _ h2]

theorem Memory.readBytes_writeBytes_outside (m : Memory) (p a n : Nat) (bs : List Byte)
    (h : a + n ≤ p ∨ p + bs.length ≤ a) : (m.writeBytes p bs).readBytes a n = m.readBytes a n :=
  Memory.readBytes_congr fun x h1 h2 => Memory.read_writeBytes_outside _ _ _ _ (by omega)

theorem Memory.read_copyForward_outside (m : Memory) (dst src n x : Nat) (h : x < dst ∨ dst + n ≤ x) :
    (m.copyForward dst src n).read x = m.read x := by
  induction n generalizing m dst src with
  | zero => rfl
  | succ n ih => rw [Memory.copyForward, ih _ _ _ (by omega), Memory.read_write_ne _ _ (by omega)]

/-! ### The canonical form -/

theorem Memory.canonicalFrom_cons {low k : Nat} {v : Byte} {m : Memory} :
    Memory.canonicalFrom low ((k, v) :: m) = true ↔
      low ≤ k ∧ v ≠ Memory.unlisted ∧ Memory.canonicalFrom (k + 1) m = true := by
  simp [Memory.canonicalFrom, and_assoc]

theorem Memory.canonicalFrom_mono {low low' : Nat} {m : Memory} (h : low' ≤ low)
    (hm : Memory.canonicalFrom low m = true) : Memory.canonicalFrom low' m = true := by
  cases m with
  | nil => rfl
  | cons c m =>
    obtain ⟨k, v⟩ := c
    rw [Memory.canonicalFrom_cons] at hm ⊢
    exact ⟨by omega, hm.2⟩

theorem Memory.canonicalFrom_erase {low : Nat} {m : Memory} (a : Nat) (hm : Memory.canonicalFrom low m = true) :
    Memory.canonicalFrom low (m.erase a) = true := by
  induction m generalizing low with
  | nil => rfl
  | cons c m ih =>
    obtain ⟨k, v⟩ := c
    rw [Memory.canonicalFrom_cons] at hm
    by_cases h : k = a
    · rw [Memory.erase, if_pos h]
      exact Memory.canonicalFrom_mono (by omega) (ih hm.2.2)
    · rw [Memory.erase, if_neg h, Memory.canonicalFrom_cons]
      exact ⟨hm.1, hm.2.1, ih hm.2.2⟩

theorem Memory.canonicalFrom_insert_erase {low a : Nat} {b : Byte} {m : Memory} (ha : low ≤ a)
    (hb : b ≠ Memory.unlisted) (hm : Memory.canonicalFrom low m = true) :
    Memory.canonicalFrom low ((m.erase a).insert a b) = true := by
  induction m generalizing low with
  | nil => simp [Memory.erase, Memory.insert, Memory.canonicalFrom, ha, hb]
  | cons c m ih =>
    obtain ⟨k, v⟩ := c
    rw [Memory.canonicalFrom_cons] at hm
    by_cases h : k = a
    · rw [Memory.erase, if_pos h]
      exact ih ha (Memory.canonicalFrom_mono (by omega) hm.2.2)
    · rw [Memory.erase, if_neg h, Memory.insert]
      by_cases hlt : a < k
      · rw [if_pos hlt, Memory.canonicalFrom_cons, Memory.canonicalFrom_cons]
        exact ⟨ha, hb, by omega, hm.2.1, Memory.canonicalFrom_erase a hm.2.2⟩
      · rw [if_neg hlt, Memory.canonicalFrom_cons]
        exact ⟨hm.1, hm.2.1, ih (by omega) hm.2.2⟩

theorem Memory.wf_write {m : Memory} (a : Nat) (b : Byte) (hm : m.wf = true) : (m.write a b).wf = true := by
  unfold Memory.write
  split
  · exact Memory.canonicalFrom_erase a hm
  · exact Memory.canonicalFrom_insert_erase (Nat.zero_le a) ‹_› hm

theorem Memory.wf_writeBytes {m : Memory} (p : Nat) (bs : List Byte) (hm : m.wf = true) :
    (m.writeBytes p bs).wf = true := by
  induction bs generalizing m p with
  | nil => exact hm
  | cons b bs ih => exact ih (p + 1) (Memory.wf_write p b hm)

theorem Memory.wf_copyForward {m : Memory} (dst src n : Nat) (hm : m.wf = true) :
    (m.copyForward dst src n).wf = true := by
  induction n generalizing m dst src with
  | zero => exact hm
  | succ n ih => exact ih _ _ (Memory.wf_write _ _ hm)

/-! ### Staying below the arena's end -/

theorem Memory.below_iff {m : Memory} {n : Nat} : m.below n = true ↔ ∀ c ∈ m, c.1 < n := by
  simp [Memory.below]

theorem Memory.mem_erase {m : Memory} {a : Nat} {c : Host.Cell} (h : c ∈ m.erase a) : c ∈ m := by
  induction m with
  | nil => exact h
  | cons d m ih =>
    obtain ⟨k, v⟩ := d
    by_cases hk : k = a
    · rw [Memory.erase, if_pos hk] at h
      exact List.mem_cons_of_mem _ (ih h)
    · rw [Memory.erase, if_neg hk, List.mem_cons] at h
      exact List.mem_cons.mpr (h.imp_right ih)

theorem Memory.mem_insert {m : Memory} {a : Nat} {b : Byte} {c : Host.Cell} (h : c ∈ m.insert a b) :
    c = (a, b) ∨ c ∈ m := by
  induction m with
  | nil => exact Or.inl (by simpa [Memory.insert] using h)
  | cons d m ih =>
    obtain ⟨k, v⟩ := d
    by_cases hk : a < k
    · rw [Memory.insert, if_pos hk, List.mem_cons] at h
      exact h
    · rw [Memory.insert, if_neg hk, List.mem_cons] at h
      rcases h with h | h
      · exact Or.inr (List.mem_cons.mpr (Or.inl h))
      · exact (ih h).imp_right (List.mem_cons_of_mem _)

theorem Memory.below_write {m : Memory} {n a : Nat} (b : Byte) (hm : m.below n = true) (ha : a < n) :
    (m.write a b).below n = true := by
  rw [Memory.below_iff] at hm ⊢
  intro c hc
  unfold Memory.write at hc
  split at hc
  · exact hm c (Memory.mem_erase hc)
  · rcases Memory.mem_insert hc with h | h
    · rw [h]; exact ha
    · exact hm c (Memory.mem_erase h)

theorem Memory.below_writeBytes {m : Memory} {n p : Nat} {bs : List Byte} (hm : m.below n = true)
    (hp : bs.length = 0 ∨ p + bs.length ≤ n) : (m.writeBytes p bs).below n = true := by
  induction bs generalizing m p with
  | nil => exact hm
  | cons b bs ih =>
    simp only [List.length_cons] at hp
    exact ih (Memory.below_write b hm (by omega)) (by omega)

theorem Memory.below_copyForward {m : Memory} {n dst src k : Nat} (hm : m.below n = true)
    (hp : k = 0 ∨ dst + k ≤ n) : (m.copyForward dst src k).below n = true := by
  induction k generalizing m dst src with
  | zero => exact hm
  | succ k ih => exact ih (Memory.below_write _ hm (by omega)) (by omega)

theorem Memory.below_mono {m : Memory} {n n' : Nat} (h : n ≤ n') (hm : m.below n = true) : m.below n' = true := by
  rw [Memory.below_iff] at hm ⊢
  exact fun c hc => Nat.lt_of_lt_of_le (hm c hc) h

end Sys2Proof.Machine
end

