-- ==== Sys2Proof/Laws/State.lean ====
section
/-! SUPPORT. Sys2Proof/Laws/State.lean: one lemma per field per update, and the frames as relations (10_state.md R21). -/

namespace Sys2Proof.Machine

/-! ### Register slots -/

theorem getElem_setSlot (regs : Vector Word 256) (r q : RegId) (v : Word) :
    (setSlot regs r v)[q.toNat]'q.isLt = if q = r then v else regs[q.toNat]'q.isLt := by
  by_cases h : q = r
  · subst h; simp [setSlot]
  · have hne : r.toNat ≠ q.toNat := fun e => h (BitVec.eq_of_toNat_eq e.symm)
    rw [if_neg h]
    exact Vector.getElem_set_ne r.isLt q.isLt hne

/-- Reading any register after any write (R21). -/
theorem State.reg_setReg (s : State) (r q : RegId) (v : Word) :
    (s.setReg r v).reg q = if q = r then v else s.reg q := getElem_setSlot s.regs r q v

@[simp] theorem State.reg_setReg_same (s : State) (r : RegId) (v : Word) : (s.setReg r v).reg r = v := by
  rw [State.reg_setReg, if_pos rfl]

theorem State.reg_setReg_ne (s : State) {r q : RegId} (v : Word) (h : q ≠ r) : (s.setReg r v).reg q = s.reg q := by
  rw [State.reg_setReg, if_neg h]

/-! ### `setReg` -/

/-- Writing a slot other than `AL` leaves what the gates compare with. -/
theorem State.al_setReg (s : State) {r : RegId} (v : Word) (h : s.crmap.al ≠ r) : (s.setReg r v).al = s.al :=
  congrArg BitVec.toNat (State.reg_setReg_ne s v h)

@[simp] theorem State.setReg_mem (s : State) (r : RegId) (v : Word) : (s.setReg r v).mem = s.mem := rfl
@[simp] theorem State.setReg_opmap (s : State) (r : RegId) (v : Word) : (s.setReg r v).opmap = s.opmap := rfl
@[simp] theorem State.setReg_crmap (s : State) (r : RegId) (v : Word) : (s.setReg r v).crmap = s.crmap := rfl
@[simp] theorem State.setReg_nphys (s : State) (r : RegId) (v : Word) : (s.setReg r v).nphys = s.nphys := rfl
@[simp] theorem State.setReg_status (s : State) (r : RegId) (v : Word) : (s.setReg r v).status = s.status := rfl
@[simp] theorem State.setReg_hostLog (s : State) (r : RegId) (v : Word) : (s.setReg r v).hostLog = s.hostLog := rfl
@[simp] theorem State.setReg_hostSeed (s : State) (r : RegId) (v : Word) : (s.setReg r v).hostSeed = s.hostSeed := rfl
@[simp] theorem State.setReg_load (s : State) (r : RegId) (v : Word) (p n : Nat) :
    (s.setReg r v).load p n = s.load p n := rfl

/-! ### `raise`, `halt`, `park` -/

@[simp] theorem State.raise_reg (s : State) (c : FaultCode) (q : RegId) : (s.raise c).reg q = s.reg q := rfl
@[simp] theorem State.raise_mem (s : State) (c : FaultCode) : (s.raise c).mem = s.mem := rfl
@[simp] theorem State.raise_opmap (s : State) (c : FaultCode) : (s.raise c).opmap = s.opmap := rfl
@[simp] theorem State.raise_crmap (s : State) (c : FaultCode) : (s.raise c).crmap = s.crmap := rfl
@[simp] theorem State.raise_nphys (s : State) (c : FaultCode) : (s.raise c).nphys = s.nphys := rfl
@[simp] theorem State.raise_status (s : State) (c : FaultCode) : (s.raise c).status = .faulted c := rfl
@[simp] theorem State.raise_hostLog (s : State) (c : FaultCode) : (s.raise c).hostLog = s.hostLog := rfl
@[simp] theorem State.raise_hostSeed (s : State) (c : FaultCode) : (s.raise c).hostSeed = s.hostSeed := rfl

@[simp] theorem State.halt_reg (s : State) (q : RegId) : s.halt.reg q = s.reg q := rfl
@[simp] theorem State.halt_mem (s : State) : s.halt.mem = s.mem := rfl
@[simp] theorem State.halt_opmap (s : State) : s.halt.opmap = s.opmap := rfl
@[simp] theorem State.halt_crmap (s : State) : s.halt.crmap = s.crmap := rfl
@[simp] theorem State.halt_nphys (s : State) : s.halt.nphys = s.nphys := rfl
@[simp] theorem State.halt_status (s : State) : s.halt.status = .halted (s.reg s.crmap.ex) := rfl
@[simp] theorem State.halt_hostLog (s : State) : s.halt.hostLog = s.hostLog := rfl
@[simp] theorem State.halt_hostSeed (s : State) : s.halt.hostSeed = s.hostSeed := rfl

@[simp] theorem State.park_reg (s : State) (q : RegId) : s.park.reg q = s.reg q := rfl
@[simp] theorem State.park_mem (s : State) : s.park.mem = s.mem := rfl
@[simp] theorem State.park_opmap (s : State) : s.park.opmap = s.opmap := rfl
@[simp] theorem State.park_crmap (s : State) : s.park.crmap = s.crmap := rfl
@[simp] theorem State.park_nphys (s : State) : s.park.nphys = s.nphys := rfl
@[simp] theorem State.park_status (s : State) : s.park.status = .parked := rfl
@[simp] theorem State.park_hostLog (s : State) : s.park.hostLog = s.hostLog := rfl
@[simp] theorem State.park_hostSeed (s : State) : s.park.hostSeed = s.hostSeed := rfl

/-! ### `store` and `storeBytes` -/

@[simp] theorem State.store_reg (s : State) (p n v : Nat) (q : RegId) : (s.store p n v).reg q = s.reg q := rfl
@[simp] theorem State.store_mem (s : State) (p n v : Nat) :
    (s.store p n v).mem = s.mem.writeBytes p (beBytes n v) := rfl
@[simp] theorem State.store_opmap (s : State) (p n v : Nat) : (s.store p n v).opmap = s.opmap := rfl
@[simp] theorem State.store_crmap (s : State) (p n v : Nat) : (s.store p n v).crmap = s.crmap := rfl
@[simp] theorem State.store_nphys (s : State) (p n v : Nat) : (s.store p n v).nphys = s.nphys := rfl
@[simp] theorem State.store_status (s : State) (p n v : Nat) : (s.store p n v).status = s.status := rfl
@[simp] theorem State.store_hostLog (s : State) (p n v : Nat) : (s.store p n v).hostLog = s.hostLog := rfl
@[simp] theorem State.store_hostSeed (s : State) (p n v : Nat) : (s.store p n v).hostSeed = s.hostSeed := rfl

@[simp] theorem State.storeBytes_reg (s : State) (p : Nat) (bs : List Byte) (q : RegId) :
    (s.storeBytes p bs).reg q = s.reg q := rfl
@[simp] theorem State.storeBytes_mem (s : State) (p : Nat) (bs : List Byte) :
    (s.storeBytes p bs).mem = s.mem.writeBytes p bs := rfl
@[simp] theorem State.storeBytes_opmap (s : State) (p : Nat) (bs : List Byte) :
    (s.storeBytes p bs).opmap = s.opmap := rfl
@[simp] theorem State.storeBytes_crmap (s : State) (p : Nat) (bs : List Byte) :
    (s.storeBytes p bs).crmap = s.crmap := rfl
@[simp] theorem State.storeBytes_nphys (s : State) (p : Nat) (bs : List Byte) :
    (s.storeBytes p bs).nphys = s.nphys := rfl
@[simp] theorem State.storeBytes_status (s : State) (p : Nat) (bs : List Byte) :
    (s.storeBytes p bs).status = s.status := rfl
@[simp] theorem State.storeBytes_hostLog (s : State) (p : Nat) (bs : List Byte) :
    (s.storeBytes p bs).hostLog = s.hostLog := rfl
@[simp] theorem State.storeBytes_hostSeed (s : State) (p : Nat) (bs : List Byte) :
    (s.storeBytes p bs).hostSeed = s.hostSeed := rfl

/-! ### `logHost` -/

@[simp] theorem State.logHost_reg (s : State) (e : Config.HostExchange) (q : RegId) : (s.logHost e).reg q = s.reg q := rfl
@[simp] theorem State.logHost_mem (s : State) (e : Config.HostExchange) : (s.logHost e).mem = s.mem := rfl
@[simp] theorem State.logHost_opmap (s : State) (e : Config.HostExchange) : (s.logHost e).opmap = s.opmap := rfl
@[simp] theorem State.logHost_crmap (s : State) (e : Config.HostExchange) : (s.logHost e).crmap = s.crmap := rfl
@[simp] theorem State.logHost_nphys (s : State) (e : Config.HostExchange) : (s.logHost e).nphys = s.nphys := rfl
@[simp] theorem State.logHost_status (s : State) (e : Config.HostExchange) : (s.logHost e).status = s.status := rfl
@[simp] theorem State.logHost_hostLog (s : State) (e : Config.HostExchange) :
    (s.logHost e).hostLog = e :: s.hostLog := rfl
@[simp] theorem State.logHost_hostSeed (s : State) (e : Config.HostExchange) : (s.logHost e).hostSeed = s.hostSeed := rfl

/-! ### `jump` -/

theorem State.reg_jump (s : State) (t : Word) (q : RegId) :
    (s.jump t).reg q = if q = s.crmap.ip then t else s.reg q := State.reg_setReg s s.crmap.ip q t

@[simp] theorem State.jump_mem (s : State) (t : Word) : (s.jump t).mem = s.mem := rfl
@[simp] theorem State.jump_opmap (s : State) (t : Word) : (s.jump t).opmap = s.opmap := rfl
@[simp] theorem State.jump_crmap (s : State) (t : Word) : (s.jump t).crmap = s.crmap := rfl
@[simp] theorem State.jump_nphys (s : State) (t : Word) : (s.jump t).nphys = s.nphys := rfl
@[simp] theorem State.jump_status (s : State) (t : Word) : (s.jump t).status = s.status := rfl
@[simp] theorem State.jump_hostLog (s : State) (t : Word) : (s.jump t).hostLog = s.hostLog := rfl
@[simp] theorem State.jump_hostSeed (s : State) (t : Word) : (s.jump t).hostSeed = s.hostSeed := rfl

theorem State.jumpIf_cases (s : State) (b : Bool) (t : Word) : s.jumpIf b t = s.jump t ∨ s.jumpIf b t = s := by
  cases b
  · exact Or.inr rfl
  · exact Or.inl rfl

/-! ### Two states with the same readings are the same state -/

theorem State.ext_of_reads {s t : State} (hr : ∀ r, s.reg r = t.reg r) (hm : s.mem = t.mem) (ho : s.opmap = t.opmap)
    (hc : s.crmap = t.crmap) (hn : s.nphys = t.nphys) (hs : s.status = t.status) (hl : s.hostLog = t.hostLog)
    (hd : s.hostSeed = t.hostSeed) : s = t := by
  obtain ⟨sr, sm, sp, sc, sn, ss, sl, sd⟩ := s
  obtain ⟨tr, tm, tp, tc, tn, ts, tl, td⟩ := t
  have : sr = tr := by
    ext i hi : 1
    have := hr (BitVec.ofNat 8 i)
    simp only [State.reg] at this
    have e : (BitVec.ofNat 8 i).toNat = i := by
      rw [BitVec.toNat_ofNat]; exact Nat.mod_eq_of_lt (by omega)
    simpa [e] using this
  simp only at hm ho hc hn hs hl hd
  subst this hm ho hc hn hs hl hd
  rfl

/-! ### Frames -/

theorem RegsKept.refl (rs : List RegId) (s : State) : RegsKept rs s s := fun _ _ => rfl

theorem RegsKept.setReg {rs : List RegId} {s t : State} {r : RegId} (h : RegsKept rs s t) (hr : r ∈ rs) (v : Word) :
    RegsKept rs s (t.setReg r v) := fun q hq => by
  rw [State.reg_setReg_ne t v fun e => hq (by rw [e]; exact hr), h q hq]

theorem LaunchKept.refl (s : State) : LaunchKept s s := ⟨rfl, rfl, rfl, rfl⟩

theorem LaunchKept.trans {s t u : State} (h1 : LaunchKept s t) (h2 : LaunchKept t u) : LaunchKept s u :=
  ⟨h2.1.trans h1.1, h2.2.1.trans h1.2.1, h2.2.2.1.trans h1.2.2.1, h2.2.2.2.trans h1.2.2.2⟩

theorem RestKept.refl (s : State) : RestKept s s := ⟨LaunchKept.refl s, rfl, rfl⟩

theorem RestKept.trans {s t u : State} (h1 : RestKept s t) (h2 : RestKept t u) : RestKept s u :=
  ⟨h1.1.trans h2.1, h2.2.1.trans h1.2.1, h2.2.2.trans h1.2.2⟩

theorem WritesOnly.setReg (s : State) (r : RegId) (v : Word) : WritesOnly [r] s (s.setReg r v) :=
  ⟨(RegsKept.refl [r] s).setReg (List.mem_singleton.mpr rfl) v, fun _ => rfl, RestKept.refl s⟩

/-- What `result` says of an instruction. -/
theorem ComputesInto.of_result {i : Instr} {s : State} {d : RegId} {v : Word} (h : exec i s = s.result d v) :
    ComputesInto i s d v :=
  ⟨s.setReg d v, h, State.reg_setReg_same s d v, WritesOnly.setReg s d v⟩

end Sys2Proof.Machine
end

