-- ==== Sys2Proof/Laws/Ops.lean ====
section
/-! SUPPORT. Sys2Proof/Laws/Ops.lean: for each shared operation, once, everything it can do. -/

namespace Sys2Proof.Machine

/-! ### Gates -/

theorem State.checkData_cases (s : State) (p n : Nat) :
    (s.checkData p n = none ∧ p + n < s.al) ∨ (s.checkData p n = some .b1 ∧ s.al ≤ p + n) := by
  unfold State.checkData
  split
  · exact Or.inr ⟨rfl, ‹_›⟩
  · exact Or.inl ⟨rfl, by omega⟩

theorem State.checkData_none {s : State} {p n : Nat} : s.checkData p n = none ↔ p + n < s.al := by
  rcases s.checkData_cases p n with ⟨h1, h2⟩ | ⟨h1, h2⟩ <;> simp [h1] <;> omega

theorem State.checkData_some {s : State} {p n : Nat} {c : FaultCode} :
    s.checkData p n = some c ↔ c = .b1 ∧ s.al ≤ p + n := by
  rcases s.checkData_cases p n with ⟨h1, h2⟩ | ⟨h1, h2⟩
  · simp [h1]; omega
  · simp [h1, h2, eq_comm]

theorem State.checkStack_none {s : State} {p n : Nat} :
    s.checkStack p n = none ↔ (s.reg s.crmap.ss).toNat ≤ p ∧ (s.reg s.crmap.sb).toNat ≤ p ∧ p + n < s.al := by
  unfold State.checkStack
  split
  · simp; omega
  · split
    · simp; omega
    · split
      · simp; omega
      · simp; omega

theorem State.checkStack_some_mem {s : State} {p n : Nat} {c : FaultCode} (h : s.checkStack p n = some c) :
    c ∈ [FaultCode.b2, .b3, .b4] := by
  unfold State.checkStack at h
  split at h
  · simp at h; simp [← h]
  · split at h
    · simp at h; simp [← h]
    · split at h
      · simp at h; simp [← h]
      · simp at h

theorem State.advanceIp_some {s s' : State} {n : Nat} {p : Word} :
    s.advanceIp n = some (p, s') ↔
      s.ip + n < s.al ∧ p = s.reg s.crmap.ip ∧ s' = s.setReg s.crmap.ip (BitVec.ofNat 64 (s.ip + n)) := by
  unfold State.advanceIp
  split
  · simp [*, eq_comm]
  · simp [*]

theorem State.advanceIp_none {s : State} {n : Nat} : s.advanceIp n = none ↔ s.al ≤ s.ip + n := by
  unfold State.advanceIp
  split
  · simp; omega
  · simp; omega

/-! ### What the shared shapes can answer -/

/-- The answers of `access`. -/
theorem State.access_next {s : State} {p n : Nat} {k : Result} {t : State} (h : s.access p n k = .next t) :
    s.inArena p n ∧ k = .next t := by
  unfold State.access at h
  split at h
  · exact ⟨‹_›, h⟩
  · simp at h

theorem State.access_of {s : State} {p n : Nat} (k : Result) (h : s.inArena p n) : s.access p n k = k := if_pos h

/-- An access to a byte the arena does not have is refused (R68). -/
theorem State.access_absent {s : State} {p n : Nat} (k : Result) (h0 : n ≠ 0) (h : s.nphys < p + n) :
    s.access p n k = .refused .outsidePhysicalArena := if_neg (by omega)

theorem State.gated_next {s : State} {g : Option FaultCode} {k : Result} {t : State} (h : s.gated g k = .next t) :
    (∃ c, g = some c ∧ t = s.raise c) ∨ (g = none ∧ k = .next t) := by
  cases g with
  | none => exact Or.inr ⟨rfl, h⟩
  | some c => exact Or.inl ⟨c, rfl, by simpa [State.gated] using h.symm⟩

@[simp] theorem State.gated_none (s : State) (k : Result) : s.gated none k = k := rfl

@[simp] theorem State.gated_some (s : State) (c : FaultCode) (k : Result) : s.gated (some c) k = .next (s.raise c) := rfl

/-- Everything a data access can do. -/
theorem State.withData_next {s : State} {p n : Nat} {k : Result} {t : State} (h : s.withData p n k = .next t) :
    (s.al ≤ p + n ∧ t = s.raise .b1) ∨ (p + n < s.al ∧ s.inArena p n ∧ k = .next t) := by
  rcases State.gated_next h with ⟨c, hg, ht⟩ | ⟨hg, hk⟩
  · rw [State.checkData_some] at hg
    exact Or.inl ⟨hg.2, by rw [ht, hg.1]⟩
  · exact Or.inr ⟨State.checkData_none.mp hg, State.access_next hk⟩

theorem State.withData_of {s : State} {p n : Nat} (k : Result) (hg : p + n < s.al) (ha : s.inArena p n) :
    s.withData p n k = k := by
  rw [State.withData, State.checkData_none.mpr hg, State.gated_none, State.access_of k ha]

theorem State.withData_fault {s : State} {p n : Nat} (k : Result) (hg : s.al ≤ p + n) :
    s.withData p n k = .next (s.raise .b1) := by
  rw [State.withData, State.checkData_some.mpr ⟨rfl, hg⟩, State.gated_some]

/-- Everything a stack access can do. -/
theorem State.withStack_next {s : State} {p n : Nat} {k : Result} {t : State} (h : s.withStack p n k = .next t) :
    (∃ c, s.checkStack p n = some c ∧ t = s.raise c) ∨ (s.checkStack p n = none ∧ s.inArena p n ∧ k = .next t) := by
  rcases State.gated_next h with h | ⟨hg, hk⟩
  · exact Or.inl h
  · exact Or.inr ⟨hg, State.access_next hk⟩

theorem State.withStack_of {s : State} {p n : Nat} (k : Result) (hg : s.checkStack p n = none) (ha : s.inArena p n) :
    s.withStack p n k = k := by
  rw [State.withStack, hg, State.gated_none, State.access_of k ha]

theorem State.withStack_fault {s : State} {p n : Nat} {c : FaultCode} (k : Result) (hg : s.checkStack p n = some c) :
    s.withStack p n k = .next (s.raise c) := by
  rw [State.withStack, hg, State.gated_some]

/-- The state after the memory and `ST` part of a push. -/
abbrev State.pushed (s : State) (w : Nat) (v : Word) : State :=
  (s.store (s.reg s.crmap.st).toNat w v.toNat).setReg s.crmap.st (s.reg s.crmap.st + BitVec.ofNat 64 w)

/-- Everything a push can do. -/
theorem State.push_next {s : State} {w : Nat} {v : Word} {k : State → Result} {t : State}
    (h : s.push w v k = .next t) :
    (∃ c, s.checkStack (s.reg s.crmap.st).toNat w = some c ∧ t = s.raise c) ∨
      (s.checkStack (s.reg s.crmap.st).toNat w = none ∧ s.inArena (s.reg s.crmap.st).toNat w ∧
        k (s.pushed w v) = .next t) := State.withStack_next h

/-- The state after the `ST` part of a pop. -/
abbrev State.lowered (s : State) (w : Nat) : State := s.setReg s.crmap.st (s.reg s.crmap.st - BitVec.ofNat 64 w)

/-- Everything a pop can do. -/
theorem State.pop_next {s : State} {w : Nat} {k : State → Word → Result} {t : State} (h : s.pop w k = .next t) :
    (∃ c, (s.lowered w).checkStack (s.reg s.crmap.st - BitVec.ofNat 64 w).toNat w = some c ∧ t = (s.lowered w).raise c) ∨
      ((s.lowered w).checkStack (s.reg s.crmap.st - BitVec.ofNat 64 w).toNat w = none ∧
        s.inArena (s.reg s.crmap.st - BitVec.ofNat 64 w).toNat w ∧
        k (s.lowered w) (BitVec.ofNat 64 (s.load (s.reg s.crmap.st - BitVec.ofNat 64 w).toNat w)) = .next t) :=
  State.withStack_next h

/-- Everything a division can do. -/
theorem State.divide_next {s t : State} {q r : RegId} {y quo rem : Word} (h : s.divide q r y quo rem = .next t) :
    (y = 0#64 ∧ t = s.raise .c2) ∨ (y ≠ 0#64 ∧ t = (s.setReg q quo).setReg r rem) := by
  unfold State.divide at h
  split at h
  · exact Or.inl ⟨‹_›, by simpa using h.symm⟩
  · exact Or.inr ⟨‹_›, by simpa using h.symm⟩

theorem State.result_next {s t : State} {d : RegId} {v : Word} (h : s.result d v = .next t) : t = s.setReg d v := by
  simpa [State.result] using h.symm

/-! ### Refusals -/

theorem State.access_refused {s : State} {p n : Nat} {k : Result} {r : Refusal} (h : s.access p n k = .refused r) :
    (¬ s.inArena p n ∧ r = .outsidePhysicalArena) ∨ (s.inArena p n ∧ k = .refused r) := by
  unfold State.access at h
  split at h
  · exact Or.inr ⟨‹_›, h⟩
  · exact Or.inl ⟨‹_›, by simpa using h.symm⟩

theorem State.gated_refused {s : State} {g : Option FaultCode} {k : Result} {r : Refusal}
    (h : s.gated g k = .refused r) : g = none ∧ k = .refused r := by
  cases g with
  | none => exact ⟨rfl, h⟩
  | some c => simp [State.gated] at h

theorem State.withData_refused {s : State} {p n : Nat} {k : Result} {r : Refusal} (h : s.withData p n k = .refused r) :
    p + n < s.al ∧ ((¬ s.inArena p n ∧ r = .outsidePhysicalArena) ∨ (s.inArena p n ∧ k = .refused r)) :=
  have h1 := State.gated_refused h
  ⟨State.checkData_none.mp h1.1, State.access_refused h1.2⟩

theorem State.withStack_refused {s : State} {p n : Nat} {k : Result} {r : Refusal} (h : s.withStack p n k = .refused r) :
    p + n < s.al ∧ ((¬ s.inArena p n ∧ r = .outsidePhysicalArena) ∨ (s.inArena p n ∧ k = .refused r)) :=
  have h1 := State.gated_refused h
  ⟨(State.checkStack_none.mp h1.1).2.2, State.access_refused h1.2⟩

/-! ### The host's answers (R240, R244) -/

theorem State.length_hostRead_le (s : State) (h : Word) (max : Nat) : (s.hostRead h max).length ≤ max := by
  unfold State.hostRead
  split
  · exact List.length_take_le _ _
  · exact Nat.zero_le _

theorem State.hostWrite_le (s : State) (h : Word) (bytes : List Byte) : s.hostWrite h bytes ≤ bytes.length := by
  unfold State.hostWrite
  split
  · exact Nat.min_le_right _ _
  · exact Nat.zero_le _

/-- A word above 2 that no FOPEN of the run returned is no handle the host knows (log 9). -/
theorem State.handleKnown_eq_false {s : State} {h : Word} (h3 : 3 ≤ h.toNat)
    (hn : ∀ p m e, Config.HostExchange.opened p m e h ∉ s.hostLog) : s.handleKnown h = false := by
  unfold State.handleKnown
  simp only [Bool.or_eq_false_iff, List.any_eq_false, decide_eq_false_iff_not]
  refine ⟨by omega, fun x hx hx' => ?_⟩
  cases x <;> simp [openedHandle] at hx'
  subst hx'
  exact hn _ _ _ hx

/-! ### Loads and stores -/

theorem State.load_lt (s : State) (p n : Nat) : s.load p n < 256 ^ n := by
  have := beNat_lt (s.mem.readBytes p n)
  rwa [Memory.length_readBytes] at this

/-- Reading back what was stored with the same width (R67). -/
theorem State.load_store_same (s : State) (p n v : Nat) : (s.store p n v).load p n = v % 256 ^ n := by
  have h := Memory.readBytes_writeBytes s.mem p (beBytes n v)
  rw [length_beBytes] at h
  rw [State.load, State.store_mem, h, beNat_beBytes]

theorem State.read_store_outside (s : State) (p n v x : Nat) (h : x < p ∨ p + n ≤ x) :
    (s.store p n v).mem.read x = s.mem.read x :=
  Memory.read_writeBytes_outside _ _ _ _ (by rwa [length_beBytes])

end Sys2Proof.Machine
end

