-- ==== Sys2Proof/Laws/Exec.lean ====
section
/-! SUPPORT. Sys2Proof/Laws/Exec.lean: `exec` of the sized families and the stack instructions as one shared operation each, for
every width at once; when those operations complete; how the frames grow by one write. -/

namespace Sys2Proof.Machine

/-! ### `exec` as a shared operation -/

theorem exec_mov (w : Width) (d r : RegId) (s : State) : exec (w.mov d r) s = s.move w.bytes d r := by cases w <;> rfl

theorem exec_get (w : Width) (d a : RegId) (s : State) : exec (w.get d a) s = s.loadReg w.bytes d a := by cases w <;> rfl

theorem exec_wrt (w : Width) (a v : RegId) (s : State) : exec (w.wrt a v) s = s.storeReg w.bytes a v := by cases w <;> rfl

theorem exec_psh (w : Width) (r : RegId) (s : State) : exec (w.psh r) s = s.pushReg w.bytes r := by cases w <;> rfl

theorem exec_pop (w : Width) (d : RegId) (s : State) : exec (w.pop d) s = s.popReg w.bytes d := by cases w <;> rfl

theorem exec_xchg (w : Width) (x a : RegId) (s : State) : exec (w.xchg x a) s = s.exchange w.bytes x a := by
  cases w <;> rfl

theorem exec_scas (w : Width) (d a n v : RegId) (s : State) : exec (w.scas d a n v) s = s.scan w.bytes d a n v := by
  cases w <;> rfl

theorem exec_call (t : RegId) (s : State) :
    exec (.call t) s = s.push 8 (s.reg s.crmap.ip) fun s' => .next (s'.jump (s.reg t)) := rfl

theorem exec_ret (s : State) : exec .ret s = s.pop 8 fun s' v => .next (s'.jump v) := rfl

/-- The widths are 1, 2, 4, 8. -/
theorem Width.bytes_mem (w : Width) : w.bytes ∈ [1, 2, 4, 8] := by cases w <;> decide

theorem Width.bytes_pos (w : Width) : 0 < w.bytes := by cases w <;> decide

theorem Width.bytes_le (w : Width) : w.bytes ≤ 8 := by cases w <;> decide

/-! ### The stack operations complete, or fault -/

@[simp] theorem State.al_setReg_ST (s : State) (v : Word) : (s.setReg s.crmap.st v).al = s.al :=
  State.al_setReg s v s.crmap.al_ne_st

/-- Lowering or raising `ST` moves no bound of the stack gate. -/
@[simp] theorem State.checkStack_setReg_ST (s : State) (v : Word) (p n : Nat) :
    (s.setReg s.crmap.st v).checkStack p n = s.checkStack p n := by
  unfold State.checkStack
  rw [State.al_setReg_ST, State.setReg_crmap, State.reg_setReg_ne s v s.crmap.ss_ne_st,
    State.reg_setReg_ne s v s.crmap.sb_ne_st]

theorem State.push_of {s : State} {w : Nat} {v : Word} (k : State → Result)
    (hg : s.checkStack (s.reg s.crmap.st).toNat w = none) (ha : s.inArena (s.reg s.crmap.st).toNat w) :
    s.push w v k = k (s.pushed w v) := State.withStack_of _ hg ha

theorem State.push_fault {s : State} {w : Nat} {v : Word} {c : FaultCode} (k : State → Result)
    (hg : s.checkStack (s.reg s.crmap.st).toNat w = some c) : s.push w v k = .next (s.raise c) :=
  State.withStack_fault _ hg

theorem State.pop_of {s : State} {w : Nat} (k : State → Word → Result)
    (hg : s.checkStack (s.reg s.crmap.st - BitVec.ofNat 64 w).toNat w = none)
    (ha : s.inArena (s.reg s.crmap.st - BitVec.ofNat 64 w).toNat w) :
    s.pop w k = k (s.lowered w) (BitVec.ofNat 64 (s.load (s.reg s.crmap.st - BitVec.ofNat 64 w).toNat w)) :=
  State.withStack_of _ (by rwa [State.checkStack_setReg_ST]) ha

theorem State.pop_fault {s : State} {w : Nat} {c : FaultCode} (k : State → Word → Result)
    (hg : s.checkStack (s.reg s.crmap.st - BitVec.ofNat 64 w).toNat w = some c) :
    s.pop w k = .next ((s.lowered w).raise c) :=
  State.withStack_fault _ (by rwa [State.checkStack_setReg_ST])

/-! ### Frames grow by one write -/

theorem WritesOnly.refl (rs : List RegId) (s : State) : WritesOnly rs s s :=
  ⟨RegsKept.refl rs s, fun _ => rfl, RestKept.refl s⟩

theorem WritesOnly.andSetReg {rs : List RegId} {s t : State} {r : RegId} (h : WritesOnly rs s t) (hr : r ∈ rs) (v : Word) :
    WritesOnly rs s (t.setReg r v) := ⟨h.1.setReg hr v, h.2⟩

theorem StoresOnly.store (rs : List RegId) (s : State) (p n v : Nat) : StoresOnly rs p n s (s.store p n v) :=
  ⟨RegsKept.refl rs s, fun a h => State.read_store_outside s p n v a h, RestKept.refl s⟩

theorem StoresOnly.andSetReg {rs : List RegId} {p n : Nat} {s t : State} {r : RegId} (h : StoresOnly rs p n s t)
    (hr : r ∈ rs) (v : Word) : StoresOnly rs p n s (t.setReg r v) := ⟨h.1.setReg hr v, h.2⟩

/-! ### Numbers -/

/-- The `256^n` of the byte functions is the `2^(8n)` of the spec's rules. -/
theorem pow256_eq (n : Nat) : 256 ^ n = 2 ^ (8 * n) := by rw [pow_mul]; norm_num

/-- A load of one byte. -/
@[simp] theorem State.load_one (s : State) (p : Nat) : s.load p 1 = (s.mem.read p).toNat := by
  simp [State.load, Memory.readBytes]

/-- Loads of equal bytes are equal. -/
theorem State.load_congr {s t : State} {p n : Nat} (h : ∀ x, p ≤ x → x < p + n → s.mem.read x = t.mem.read x) :
    s.load p n = t.load p n := by
  unfold State.load
  rw [Memory.readBytes_congr h]

/-- Subtraction of words on integers. -/
theorem sub_eq_ofInt (x y : Word) : x - y = BitVec.ofInt 64 ((x.toNat : Int) - y.toNat) := by
  apply BitVec.eq_of_toNat_eq
  have := x.isLt
  have := y.isLt
  simp [BitVec.toNat_sub, BitVec.toNat_ofInt]
  omega

/-- An integer in the signed range is read back from its word (R8). -/
theorem toInt_ofInt_of_range {x : Int} (h1 : -2 ^ 63 ≤ x) (h2 : x < 2 ^ 63) : (BitVec.ofInt 64 x).toInt = x := by
  rw [BitVec.toInt_ofInt, Int.bmod_def]
  norm_num at *
  omega

end Sys2Proof.Machine
end

