-- ==== Sys2Proof/Laws/Fetch.lean ====
section
/-! SUPPORT. Sys2Proof/Laws/Fetch.lean: fetching through the gate reads what the decoder reads from the same bytes
(30_encoding.md R101). -/

namespace Sys2Proof.Machine

theorem State.setReg_setReg (s : State) (r : RegId) (v w : Word) : (s.setReg r v).setReg r w = s.setReg r w := by
  apply State.ext_of_reads <;> try rfl
  intro q
  simp only [State.reg_setReg]
  split <;> rfl

theorem State.setReg_self (s : State) (r : RegId) : s.setReg r (s.reg r) = s := by
  apply State.ext_of_reads <;> try rfl
  intro q
  rw [State.reg_setReg]
  split
  · rw [‹q = r›]
  · rfl

@[simp] theorem State.al_setReg_IP (s : State) (v : Word) : (s.setReg s.crmap.ip v).al = s.al :=
  State.al_setReg s v s.crmap.al_ne_ip

theorem State.al_lt (s : State) : s.al < 2 ^ 64 := (s.reg s.crmap.al).isLt

theorem State.ip_lt (s : State) : s.ip < 2 ^ 64 := (s.reg s.crmap.ip).isLt

theorem State.ip_setReg_IP (s : State) {n : Nat} (h : n < 2 ^ 64) :
    (s.setReg s.crmap.ip (BitVec.ofNat 64 n)).ip = n := by
  unfold State.ip
  rw [State.setReg_crmap, State.reg_setReg_same, BitVec.toNat_ofNat]
  exact Nat.mod_eq_of_lt h

/-- Everything a field fetch can do. -/
theorem State.fetchField_cases (s : State) (n : Nat) :
    (s.al ≤ s.ip + n ∧ s.fetchField n = .stopped (.next (s.raise .b5))) ∨
    (s.ip + n < s.al ∧ s.inArena s.ip n ∧
      s.fetchField n = .got (s.load s.ip n) (s.setReg s.crmap.ip (BitVec.ofNat 64 (s.ip + n)))) ∨
    (s.ip + n < s.al ∧ ¬ s.inArena s.ip n ∧ s.fetchField n = .stopped (.refused .outsidePhysicalArena)) := by
  unfold State.fetchField
  rcases hadv : s.advanceIp n with _ | ⟨p, s'⟩
  · exact Or.inl ⟨State.advanceIp_none.mp hadv, rfl⟩
  · obtain ⟨h1, h2, h3⟩ := State.advanceIp_some.mp hadv
    subst h2 h3
    right
    by_cases ha : s.inArena s.ip n
    · exact Or.inl ⟨h1, ha, if_pos ha⟩
    · exact Or.inr ⟨h1, ha, if_neg ha⟩

theorem State.fetchField_of {s : State} {n : Nat} (hg : s.ip + n < s.al) (ha : s.inArena s.ip n) :
    s.fetchField n = .got (s.load s.ip n) (s.setReg s.crmap.ip (BitVec.ofNat 64 (s.ip + n))) := by
  rcases s.fetchField_cases n with ⟨h, _⟩ | ⟨_, _, h⟩ | ⟨_, h, _⟩
  · omega
  · exact h
  · exact absurd ha h

/-- Fields fetched in a row are the fields taken from the same bytes, and `IP` moves past all of them. -/
theorem State.fetchFields_of {s : State} {ws : List Nat} {tail : List Byte} (hg : s.ip + ws.sum < s.al)
    (ha : s.ip + ws.sum ≤ s.nphys) :
    ∃ vs, s.fetchFields ws = .got vs (s.setReg s.crmap.ip (BitVec.ofNat 64 (s.ip + ws.sum))) ∧
      takeFields ws (s.mem.readBytes s.ip ws.sum ++ tail) = some (vs, tail) := by
  induction ws generalizing s with
  | nil =>
    refine ⟨[], ?_, rfl⟩
    have : BitVec.ofNat 64 (s.ip + ([] : List Nat).sum) = s.reg s.crmap.ip := by
      apply BitVec.eq_of_toNat_eq
      rw [BitVec.toNat_ofNat]
      exact Nat.mod_eq_of_lt s.ip_lt
    rw [this, State.setReg_self]
    rfl
  | cons w ws ih =>
    rw [List.sum_cons] at hg ha
    have hw := State.fetchField_of (s := s) (n := w) (by omega) (Or.inr (by omega))
    have hlt : s.ip + w < 2 ^ 64 := by have := s.al_lt; omega
    have hip := State.ip_setReg_IP s hlt
    obtain ⟨vs, h1, h2⟩ := ih (s := s.setReg s.crmap.ip (BitVec.ofNat 64 (s.ip + w)))
      (by rw [hip, State.al_setReg_IP]; omega) (by rw [hip, State.setReg_nphys]; omega)
    refine ⟨s.load s.ip w :: vs, ?_, ?_⟩
    · simp only [State.fetchFields, hw, h1, List.sum_cons]
      rw [hip, State.setReg_crmap, State.setReg_setReg, Nat.add_assoc]
    · rw [hip, State.setReg_mem] at h2
      rw [List.sum_cons, Memory.readBytes_add, List.append_assoc, takeFields,
        if_pos (by simp), List.drop_left' (by simp), h2, List.take_left' (by simp)]
      rfl

/-- What `takeFields` leaves. -/
theorem takeFields_length {ws : List Nat} {bs rest : List Byte} {vs : List Nat}
    (h : takeFields ws bs = some (vs, rest)) : bs.length = ws.sum + rest.length := by
  induction ws generalizing bs vs rest with
  | nil => simp [takeFields] at h; simp [h.2]
  | cons w ws ih =>
    rw [takeFields] at h
    split at h
    · split at h
      · rename_i hw _ vs' rest' h'
        simp only [Option.some.injEq, Prod.mk.injEq] at h
        have := ih h'
        rw [List.length_drop, h.2] at this
        rw [List.sum_cons]; omega
      · simp at h
    · simp at h

/-- The bytes at `IP` decode to an instruction and the gate admits them: the fetch gives that instruction, with `IP` moved
past them (R39, R101). -/
theorem State.fetchInstr_of_decode {s : State} {n : Nat} {i : Instr} (hd : decode s.opmap (s.mem.readBytes s.ip n) = .ok (i, []))
    (hg : s.ip + n < s.al) (ha : s.ip + n ≤ s.nphys) :
    s.fetchInstr = .got i (s.setReg s.crmap.ip (BitVec.ofNat 64 (s.ip + n))) := by
  cases n with
  | zero => simp [Memory.readBytes, decode] at hd
  | succ n =>
    have hop := State.fetchField_of (s := s) (n := 1) (by omega) (Or.inr (by omega))
    have hload : BitVec.ofNat 8 (s.load s.ip 1) = s.mem.read s.ip := by simp [State.load, Memory.readBytes]
    simp only [Memory.readBytes, decode] at hd
    unfold State.fetchInstr
    rw [hop]
    dsimp only
    rw [hload]
    cases hf : formOf s.opmap (s.mem.read s.ip) with
    | none => rw [hf] at hd; simp at hd
    | some f =>
      rw [hf] at hd
      dsimp only at hd ⊢
      cases ht : takeFields f.widths (s.mem.readBytes (s.ip + 1) n) with
      | none => rw [ht] at hd; simp at hd
      | some p =>
        obtain ⟨vs, rest⟩ := p
        rw [ht] at hd
        simp only [Except.ok.injEq, Prod.mk.injEq] at hd
        have hlen := takeFields_length ht
        rw [hd.2, Memory.length_readBytes, List.length_nil, Nat.add_zero] at hlen
        have hip : (s.setReg s.crmap.ip (BitVec.ofNat 64 (s.ip + 1))).ip = s.ip + 1 :=
          State.ip_setReg_IP s (by have := s.al_lt; omega)
        obtain ⟨vs', h1, h2⟩ := State.fetchFields_of (s := s.setReg s.crmap.ip (BitVec.ofNat 64 (s.ip + 1)))
          (ws := f.widths) (tail := []) (by rw [hip, State.al_setReg_IP]; omega)
          (by rw [hip, State.setReg_nphys]; omega)
        rw [hip, State.setReg_mem, List.append_nil, ← hlen, ht] at h2
        simp only [Option.some.injEq, Prod.mk.injEq] at h2
        rw [h1]
        dsimp only
        rw [← h2.1, hd.1, hip, State.setReg_crmap, State.setReg_setReg, ← hlen, show s.ip + 1 + n = s.ip + (n + 1) by omega]

/-! ### Everything a fetch can do -/

/-- A fetch keeps everything but `IP`, and ends a step only by 0xb5 or the refusal of an absent byte. -/
theorem State.fetchFields_cases (s : State) (ws : List Nat) :
    (∃ vs ip, s.fetchFields ws = .got vs (s.setReg s.crmap.ip ip)) ∨
    (∃ ip, s.fetchFields ws = .stopped (.next ((s.setReg s.crmap.ip ip).raise .b5))) ∨
    (s.fetchFields ws = .stopped (.refused .outsidePhysicalArena) ∧ s.nphys < s.al) := by
  induction ws generalizing s with
  | nil => exact Or.inl ⟨[], s.reg s.crmap.ip, by rw [State.setReg_self]; rfl⟩
  | cons w ws ih =>
    rcases s.fetchField_cases w with ⟨_, h⟩ | ⟨_, _, h⟩ | ⟨h1, h2, h⟩
    · exact Or.inr (Or.inl ⟨s.reg s.crmap.ip, by simp only [State.fetchFields, h]; rw [State.setReg_self]⟩)
    · rcases ih (s.setReg s.crmap.ip (BitVec.ofNat 64 (s.ip + w))) with ⟨vs, ip, h'⟩ | ⟨ip, h'⟩ | ⟨h', hn⟩
      · refine Or.inl ⟨s.load s.ip w :: vs, ip, ?_⟩
        simp only [State.fetchFields, h, h', State.setReg_crmap, State.setReg_setReg]
      · refine Or.inr (Or.inl ⟨ip, ?_⟩)
        simp only [State.fetchFields, h, h', State.setReg_crmap, State.setReg_setReg]
      · refine Or.inr (Or.inr ⟨by simp only [State.fetchFields, h, h'], by simpa using hn⟩)
    · exact Or.inr (Or.inr ⟨by simp only [State.fetchFields, h], by omega⟩)

/-- Everything the fetch of an instruction can do. -/
theorem State.fetchInstr_cases (s : State) :
    (∃ i ip, s.fetchInstr = .got i (s.setReg s.crmap.ip ip)) ∨
    (∃ ip c, (c = .b5 ∨ c = .c1) ∧ s.fetchInstr = .stopped (.next ((s.setReg s.crmap.ip ip).raise c))) ∨
    (s.fetchInstr = .stopped (.refused .outsidePhysicalArena) ∧ s.nphys < s.al) := by
  rcases s.fetchField_cases 1 with ⟨_, h⟩ | ⟨_, _, h⟩ | ⟨h1, h2, h⟩
  · refine Or.inr (Or.inl ⟨s.reg s.crmap.ip, .b5, Or.inl rfl, ?_⟩)
    simp only [State.fetchInstr, h]
    rw [State.setReg_self]
  · cases hf : formOf s.opmap (BitVec.ofNat 8 (s.load s.ip 1)) with
    | none => exact Or.inr (Or.inl ⟨_, .c1, Or.inr rfl, by simp only [State.fetchInstr, h, hf]; rfl⟩)
    | some f =>
      rcases (s.setReg s.crmap.ip (BitVec.ofNat 64 (s.ip + 1))).fetchFields_cases f.widths with
        ⟨vs, ip, h'⟩ | ⟨ip, h'⟩ | ⟨h', hn⟩
      · exact Or.inl ⟨f.build vs, ip, by simp only [State.fetchInstr, h, hf, h', State.setReg_crmap, State.setReg_setReg]⟩
      · exact Or.inr (Or.inl ⟨ip, .b5, Or.inl rfl, by
          simp only [State.fetchInstr, h, hf, h', State.setReg_crmap, State.setReg_setReg]⟩)
      · exact Or.inr (Or.inr ⟨by simp only [State.fetchInstr, h, hf, h'], by simpa using hn⟩)
  · exact Or.inr (Or.inr ⟨by simp only [State.fetchInstr, h], by omega⟩)

/-! ### Taking fields of written-out bytes -/

/-- A one-byte field takes one byte. -/
theorem takeFields_byte (ws : List Nat) (b : Byte) (bs : List Byte) :
    takeFields (1 :: ws) (b :: bs) = (takeFields ws bs).map fun r => (b.toNat :: r.1, r.2) := by
  simp [takeFields]
  split <;> simp [*]

/-- A field of `w` bytes takes the big-endian bytes of its value. -/
theorem takeFields_literal (w v : Nat) (bs : List Byte) :
    takeFields [w] (beBytes w v ++ bs) = some ([v % 256 ^ w], bs) := by
  simp [takeFields, beNat_beBytes]

end Sys2Proof.Machine
end

