-- ==== Sys2Proof/Laws/PerInstr.lean ====
section
/-! SUPPORT. Sys2Proof/Laws/PerInstr.lean: facts about every instruction as syntax, one lemma per constructor. -/

/-- Under every opcode map the encoder gives as many bytes as the length column of 30_encoding.md R92 says. -/
def Sys2Proof.Laws.EncodeLength.Statement (i : Sys2Proof.Instr) : Prop :=
  ∀ m : Sys2Proof.Opmap, (Sys2Proof.encode m i).length = i.size

namespace Sys2Proof.Laws.EncodeLength

theorem nop : Statement (.nop) := fun _ => rfl
theorem exit : Statement (.exit) := fun _ => rfl
theorem goto (t : RegId) : Statement (.goto t) := fun _ => rfl
theorem ifGo (c t : RegId) : Statement (.ifGo c t) := fun _ => rfl
theorem ifNG (c t : RegId) : Statement (.ifNG c t) := fun _ => rfl
theorem svIp (d : RegId) : Statement (.svIp d) := fun _ => rfl
theorem loop (c t : RegId) : Statement (.loop c t) := fun _ => rfl
theorem call (t : RegId) : Statement (.call t) := fun _ => rfl
theorem ret : Statement (.ret) := fun _ => rfl
theorem htl : Statement (.htl) := fun _ => rfl
theorem data (d : RegId) (len : Word) : Statement (.data d len) := by
  simp [Statement, encode, Instr.size]
theorem add (d a b : RegId) : Statement (.add d a b) := fun _ => rfl
theorem sub (d a b : RegId) : Statement (.sub d a b) := fun _ => rfl
theorem mul (d a b : RegId) : Statement (.mul d a b) := fun _ => rfl
theorem div (q r a b : RegId) : Statement (.div q r a b) := fun _ => rfl
theorem inc (d : RegId) : Statement (.inc d) := fun _ => rfl
theorem dec (d : RegId) : Statement (.dec d) := fun _ => rfl
theorem iMul (d a b : RegId) : Statement (.iMul d a b) := fun _ => rfl
theorem iDiv (q r a b : RegId) : Statement (.iDiv q r a b) := fun _ => rfl
theorem iThan (d a b : RegId) : Statement (.iThan d a b) := fun _ => rfl
theorem iLess (d a b : RegId) : Statement (.iLess d a b) := fun _ => rfl
theorem iMore (d a b : RegId) : Statement (.iMore d a b) := fun _ => rfl
theorem iLMov (d a s : RegId) : Statement (.iLMov d a s) := fun _ => rfl
theorem iRMov (d a s : RegId) : Statement (.iRMov d a s) := fun _ => rfl
theorem than (d a b : RegId) : Statement (.than d a b) := fun _ => rfl
theorem less (d a b : RegId) : Statement (.less d a b) := fun _ => rfl
theorem more (d a b : RegId) : Statement (.more d a b) := fun _ => rfl
theorem not (d a : RegId) : Statement (.not d a) := fun _ => rfl
theorem and (d a b : RegId) : Statement (.and d a b) := fun _ => rfl
theorem or (d a b : RegId) : Statement (.or d a b) := fun _ => rfl
theorem xor (d a b : RegId) : Statement (.xor d a b) := fun _ => rfl
theorem lMov (d a s : RegId) : Statement (.lMov d a s) := fun _ => rfl
theorem rMov (d a s : RegId) : Statement (.rMov d a s) := fun _ => rfl
theorem rol (d a s : RegId) : Statement (.rol d a s) := fun _ => rfl
theorem ror (d a s : RegId) : Statement (.ror d a s) := fun _ => rfl
theorem complement (d a : RegId) : Statement (.complement d a) := fun _ => rfl
theorem toBool (d a : RegId) : Statement (.toBool d a) := fun _ => rfl
theorem mov1 (d s : RegId) : Statement (.mov1 d s) := fun _ => rfl
theorem mov2 (d s : RegId) : Statement (.mov2 d s) := fun _ => rfl
theorem mov4 (d s : RegId) : Statement (.mov4 d s) := fun _ => rfl
theorem mov8 (d s : RegId) : Statement (.mov8 d s) := fun _ => rfl
theorem set1 (d : RegId) (lit : Word) : Statement (.set1 d lit) := by
  simp [Statement, encode, Instr.size]
theorem set2 (d : RegId) (lit : Word) : Statement (.set2 d lit) := by
  simp [Statement, encode, Instr.size]
theorem set4 (d : RegId) (lit : Word) : Statement (.set4 d lit) := by
  simp [Statement, encode, Instr.size]
theorem set8 (d : RegId) (lit : Word) : Statement (.set8 d lit) := by
  simp [Statement, encode, Instr.size]
theorem get1 (d a : RegId) : Statement (.get1 d a) := fun _ => rfl
theorem get2 (d a : RegId) : Statement (.get2 d a) := fun _ => rfl
theorem get4 (d a : RegId) : Statement (.get4 d a) := fun _ => rfl
theorem get8 (d a : RegId) : Statement (.get8 d a) := fun _ => rfl
theorem wrt1 (a s : RegId) : Statement (.wrt1 a s) := fun _ => rfl
theorem wrt2 (a s : RegId) : Statement (.wrt2 a s) := fun _ => rfl
theorem wrt4 (a s : RegId) : Statement (.wrt4 a s) := fun _ => rfl
theorem wrt8 (a s : RegId) : Statement (.wrt8 a s) := fun _ => rfl
theorem lea (d b i k : RegId) : Statement (.lea d b i k) := fun _ => rfl
theorem psh1 (s : RegId) : Statement (.psh1 s) := fun _ => rfl
theorem psh2 (s : RegId) : Statement (.psh2 s) := fun _ => rfl
theorem psh4 (s : RegId) : Statement (.psh4 s) := fun _ => rfl
theorem psh8 (s : RegId) : Statement (.psh8 s) := fun _ => rfl
theorem pop1 (d : RegId) : Statement (.pop1 d) := fun _ => rfl
theorem pop2 (d : RegId) : Statement (.pop2 d) := fun _ => rfl
theorem pop4 (d : RegId) : Statement (.pop4 d) := fun _ => rfl
theorem pop8 (d : RegId) : Statement (.pop8 d) := fun _ => rfl
theorem xchg1 (x a : RegId) : Statement (.xchg1 x a) := fun _ => rfl
theorem xchg2 (x a : RegId) : Statement (.xchg2 x a) := fun _ => rfl
theorem xchg4 (x a : RegId) : Statement (.xchg4 x a) := fun _ => rfl
theorem xchg8 (x a : RegId) : Statement (.xchg8 x a) := fun _ => rfl
theorem swap (x y : RegId) : Statement (.swap x y) := fun _ => rfl
theorem movs (d s n : RegId) : Statement (.movs d s n) := fun _ => rfl
theorem cmps (d a b n : RegId) : Statement (.cmps d a b n) := fun _ => rfl
theorem scas1 (d a n v : RegId) : Statement (.scas1 d a n v) := fun _ => rfl
theorem scas2 (d a n v : RegId) : Statement (.scas2 d a n v) := fun _ => rfl
theorem scas4 (d a n v : RegId) : Statement (.scas4 d a n v) := fun _ => rfl
theorem scas8 (d a n v : RegId) : Statement (.scas8 d a n v) := fun _ => rfl
theorem bcdT (d a : RegId) : Statement (.bcdT d a) := fun _ => rfl
theorem bcdF (d a : RegId) : Statement (.bcdF d a) := fun _ => rfl
theorem signT (d m f : RegId) : Statement (.signT d m f) := fun _ => rfl
theorem signF (dm df a : RegId) : Statement (.signF dm df a) := fun _ => rfl
theorem fopen (d pa pl ma ml : RegId) : Statement (.fopen d pa pl ma ml) := fun _ => rfl
theorem fin (d h b l o c : RegId) : Statement (.fin d h b l o c) := fun _ => rfl
theorem fout (d h b l o c : RegId) : Statement (.fout d h b l o c) := fun _ => rfl

end Sys2Proof.Laws.EncodeLength
end

