-- ==== Sys2Proof/Laws/Step.lean ====
section
/-! SUPPORT. Sys2Proof/Laws/Step.lean: everything a step can do (30_encoding.md R104). -/

namespace Sys2Proof.Machine

theorem step_of_running {s : State} (h : s.status = .running) : step s = s.runningStep := by
  simp only [step, engineStep, h]

theorem step_of_terminal {s : State} (h : s.status ≠ .running) : step s = .fault (.terminal s.status) := by
  unfold step engineStep
  split
  · exact absurd ‹_› h
  · rw [‹s.status = _›]
  · rw [‹s.status = _›]
  · rw [‹s.status = _›]

/-- If a step answers a next state: the end-of-arena halt, a fault of the fetch, or one instruction executed with `IP` moved
past it. -/
theorem step_next {s t : State} (h : step s = .next t) :
    s.status = .running ∧
    ((s.al ≤ s.ip ∧ t = s.halt) ∨
     (s.ip < s.al ∧ ∃ ip c, (c = .b5 ∨ c = .c1) ∧ t = (s.setReg s.crmap.ip ip).raise c) ∨
     (s.ip < s.al ∧ ∃ i ip, s.fetchInstr = .got i (s.setReg s.crmap.ip ip) ∧
        exec i (s.setReg s.crmap.ip ip) = .next t)) := by
  by_cases hs : s.status = .running
  · refine ⟨hs, ?_⟩
    rw [step_of_running hs, State.runningStep] at h
    split at h
    · rename_i hlt
      rcases s.fetchInstr_cases with ⟨i, ip, hf⟩ | ⟨ip, c, hc, hf⟩ | ⟨hf, _⟩
      · rw [hf] at h
        exact Or.inr (Or.inr ⟨hlt, i, ip, hf, h⟩)
      · rw [hf] at h
        simp only [Host.Outcome.next.injEq] at h
        exact Or.inr (Or.inl ⟨hlt, ip, c, hc, h.symm⟩)
      · rw [hf] at h
        simp at h
    · simp only [Host.Outcome.next.injEq] at h
      exact Or.inl ⟨by omega, h.symm⟩
  · rw [step_of_terminal hs] at h
    simp at h

/-- If a step is refused: the fetch met an absent byte, or the instruction was refused. -/
theorem step_refused {s : State} {r : Refusal} (h : step s = .refused r) :
    s.status = .running ∧ s.ip < s.al ∧
    ((r = .outsidePhysicalArena ∧ s.nphys < s.al) ∨
     (∃ i ip, s.fetchInstr = .got i (s.setReg s.crmap.ip ip) ∧ exec i (s.setReg s.crmap.ip ip) = .refused r)) := by
  by_cases hs : s.status = .running
  · rw [step_of_running hs, State.runningStep] at h
    split at h
    · rename_i hlt
      refine ⟨hs, hlt, ?_⟩
      rcases s.fetchInstr_cases with ⟨i, ip, hf⟩ | ⟨ip, c, hc, hf⟩ | ⟨hf, hn⟩
      · rw [hf] at h
        exact Or.inr ⟨i, ip, hf, h⟩
      · rw [hf] at h
        simp at h
      · rw [hf] at h
        simp only [Host.Outcome.refused.injEq] at h
        exact Or.inl ⟨h.symm, hn⟩
    · simp at h
  · rw [step_of_terminal hs] at h
    simp at h

end Sys2Proof.Machine
end

