-- ==== Sys2Proof/Tests/Slice0.lean ====
section
/-! SUPPORT. Sys2Proof/Tests/Slice0.lean: the decoder against words written from spec/opcode_table.json and 30_encoding.md R92,
single steps against the vectors of 95_test_vectors.md (each test is named after its vector), the well-formedness checks, and
for every obligation with hypotheses a state and operands that meet them. -/

open Sys2Proof Sys2Proof.Machine

namespace Sys2Proof.Tests

set_option Elab.async false

/-! ### Well-formedness refuses what does not fit (R94, R102) -/

theorem test_wf_set1 : (Instr.set1 3 256).wellFormed = false ∧ (Instr.set1 3 255).wellFormed = true := by decide
theorem test_wf_set2 : (Instr.set2 3 65536).wellFormed = false ∧ (Instr.set2 3 65535).wellFormed = true := by decide
theorem test_wf_set4 :
    (Instr.set4 3 4294967296).wellFormed = false ∧ (Instr.set4 3 4294967295).wellFormed = true := by decide

/-! ### Every constructor's word, from the columns "match" and "source_fields" of the opcode table -/

/-- What the decoder reads from a byte string under the default map, with the bytes left over. -/
def reads (bs : List Byte) : Option (Instr × List Byte) := (decode Opmap.default bs).toOption

theorem test_decode_control :
    reads [0x00] = some (.nop, []) ∧
    reads [0x01] = some (.exit, []) ∧
    reads [0x02, 0x11] = some (.goto 0x11, []) ∧
    reads [0x03, 0x11, 0xF7] = some (.ifGo 0x11 0xF7, []) ∧
    reads [0x04, 0x11, 0xF7] = some (.ifNG 0x11 0xF7, []) ∧
    reads [0x05, 0x11] = some (.svIp 0x11, []) ∧
    reads [0x06, 0x11, 0xF7] = some (.loop 0x11 0xF7, []) ∧
    reads [0x07, 0x11] = some (.call 0x11, []) ∧
    reads [0x08] = some (.ret, []) := by decide

theorem test_decode_unsigned :
    reads [0x10, 0x11, 0xF7, 0x00] = some (.add 0x11 0xF7 0x00, []) ∧
    reads [0x11, 0x11, 0xF7, 0x00] = some (.sub 0x11 0xF7 0x00, []) ∧
    reads [0x12, 0x11, 0xF7, 0x00] = some (.mul 0x11 0xF7 0x00, []) ∧
    reads [0x13, 0x11, 0xF7, 0x00, 0xA5] = some (.div 0x11 0xF7 0x00 0xA5, []) ∧
    reads [0x14, 0x11] = some (.inc 0x11, []) ∧
    reads [0x15, 0x11] = some (.dec 0x11, []) := by decide

theorem test_decode_signed :
    reads [0x18, 0x11, 0xF7, 0x00] = some (.iMul 0x11 0xF7 0x00, []) ∧
    reads [0x19, 0x11, 0xF7, 0x00, 0xA5] = some (.iDiv 0x11 0xF7 0x00 0xA5, []) ∧
    reads [0x1A, 0x11, 0xF7, 0x00] = some (.iThan 0x11 0xF7 0x00, []) ∧
    reads [0x1B, 0x11, 0xF7, 0x00] = some (.iLess 0x11 0xF7 0x00, []) ∧
    reads [0x1C, 0x11, 0xF7, 0x00] = some (.iMore 0x11 0xF7 0x00, []) ∧
    reads [0x1D, 0x11, 0xF7, 0x00] = some (.iLMov 0x11 0xF7 0x00, []) ∧
    reads [0x1E, 0x11, 0xF7, 0x00] = some (.iRMov 0x11 0xF7 0x00, []) := by decide

theorem test_decode_compare :
    reads [0x20, 0x11, 0xF7, 0x00] = some (.than 0x11 0xF7 0x00, []) ∧
    reads [0x21, 0x11, 0xF7, 0x00] = some (.less 0x11 0xF7 0x00, []) ∧
    reads [0x22, 0x11, 0xF7, 0x00] = some (.more 0x11 0xF7 0x00, []) := by decide

theorem test_decode_bitwise1 :
    reads [0x30, 0x11, 0xF7] = some (.not 0x11 0xF7, []) ∧
    reads [0x31, 0x11, 0xF7, 0x00] = some (.and 0x11 0xF7 0x00, []) ∧
    reads [0x32, 0x11, 0xF7, 0x00] = some (.or 0x11 0xF7 0x00, []) ∧
    reads [0x33, 0x11, 0xF7, 0x00] = some (.xor 0x11 0xF7 0x00, []) ∧
    reads [0x34, 0x11, 0xF7, 0x00] = some (.lMov 0x11 0xF7 0x00, []) ∧
    reads [0x35, 0x11, 0xF7, 0x00] = some (.rMov 0x11 0xF7 0x00, []) ∧
    reads [0x36, 0x11, 0xF7, 0x00] = some (.rol 0x11 0xF7 0x00, []) ∧
    reads [0x37, 0x11, 0xF7, 0x00] = some (.ror 0x11 0xF7 0x00, []) ∧
    reads [0x38, 0x11, 0xF7] = some (.complement 0x11 0xF7, []) := by decide

theorem test_decode_bitwise2 :
    reads [0x39, 0x11, 0xF7] = some (.toBool 0x11 0xF7, []) := by decide

theorem test_decode_move1 :
    reads [0x40, 0x11, 0xF7] = some (.mov1 0x11 0xF7, []) ∧
    reads [0x41, 0x11, 0xF7] = some (.mov2 0x11 0xF7, []) ∧
    reads [0x42, 0x11, 0xF7] = some (.mov4 0x11 0xF7, []) ∧
    reads [0x43, 0x11, 0xF7] = some (.mov8 0x11 0xF7, []) ∧
    reads [0x44, 0x11, 0x9C] = some (.set1 0x11 0x9C, []) ∧
    reads [0x45, 0x11, 0x12, 0x34] = some (.set2 0x11 0x1234, []) ∧
    reads [0x46, 0x11, 0xDE, 0xAD, 0xBE, 0xEF] = some (.set4 0x11 0xDEADBEEF, []) ∧
    reads [0x47, 0x11, 0x81, 0x22, 0x33, 0x44, 0x55, 0x66, 0x77, 0x08] = some (.set8 0x11 0x8122334455667708, []) ∧
    reads [0x48, 0x11, 0xF7] = some (.get1 0x11 0xF7, []) := by decide

theorem test_decode_move2 :
    reads [0x49, 0x11, 0xF7] = some (.get2 0x11 0xF7, []) ∧
    reads [0x4A, 0x11, 0xF7] = some (.get4 0x11 0xF7, []) ∧
    reads [0x4B, 0x11, 0xF7] = some (.get8 0x11 0xF7, []) ∧
    reads [0x4C, 0x11, 0xF7] = some (.wrt1 0x11 0xF7, []) ∧
    reads [0x4D, 0x11, 0xF7] = some (.wrt2 0x11 0xF7, []) ∧
    reads [0x4E, 0x11, 0xF7] = some (.wrt4 0x11 0xF7, []) ∧
    reads [0x4F, 0x11, 0xF7] = some (.wrt8 0x11 0xF7, []) ∧
    reads [0x50, 0x11, 0xF7, 0x00, 0xA5] = some (.lea 0x11 0xF7 0x00 0xA5, []) := by decide

theorem test_decode_stack1 :
    reads [0x60, 0x11] = some (.psh1 0x11, []) ∧
    reads [0x61, 0x11] = some (.psh2 0x11, []) ∧
    reads [0x62, 0x11] = some (.psh4 0x11, []) ∧
    reads [0x63, 0x11] = some (.psh8 0x11, []) ∧
    reads [0x64, 0x11] = some (.pop1 0x11, []) ∧
    reads [0x65, 0x11] = some (.pop2 0x11, []) ∧
    reads [0x66, 0x11] = some (.pop4 0x11, []) ∧
    reads [0x67, 0x11] = some (.pop8 0x11, []) ∧
    reads [0x70, 0x11, 0xF7] = some (.xchg1 0x11 0xF7, []) := by decide

theorem test_decode_stack2 :
    reads [0x71, 0x11, 0xF7] = some (.xchg2 0x11 0xF7, []) ∧
    reads [0x72, 0x11, 0xF7] = some (.xchg4 0x11 0xF7, []) ∧
    reads [0x73, 0x11, 0xF7] = some (.xchg8 0x11 0xF7, []) ∧
    reads [0x74, 0x11, 0xF7] = some (.swap 0x11 0xF7, []) := by decide

theorem test_decode_block :
    reads [0x80, 0x11, 0xF7, 0x00] = some (.movs 0x11 0xF7 0x00, []) ∧
    reads [0x81, 0x11, 0xF7, 0x00, 0xA5] = some (.cmps 0x11 0xF7 0x00 0xA5, []) ∧
    reads [0x84, 0x11, 0xF7, 0x00, 0xA5] = some (.scas1 0x11 0xF7 0x00 0xA5, []) ∧
    reads [0x85, 0x11, 0xF7, 0x00, 0xA5] = some (.scas2 0x11 0xF7 0x00 0xA5, []) ∧
    reads [0x86, 0x11, 0xF7, 0x00, 0xA5] = some (.scas4 0x11 0xF7 0x00 0xA5, []) ∧
    reads [0x87, 0x11, 0xF7, 0x00, 0xA5] = some (.scas8 0x11 0xF7 0x00 0xA5, []) := by decide

theorem test_decode_convert :
    reads [0x90, 0x11, 0xF7] = some (.bcdT 0x11 0xF7, []) ∧
    reads [0x91, 0x11, 0xF7] = some (.bcdF 0x11 0xF7, []) ∧
    reads [0x92, 0x11, 0xF7, 0x00] = some (.signT 0x11 0xF7 0x00, []) ∧
    reads [0x93, 0x11, 0xF7, 0x00] = some (.signF 0x11 0xF7 0x00, []) := by decide

theorem test_decode_host :
    reads [0x09] = some (.htl, []) ∧
    reads [0x0A, 0x11, 0x00, 0x00, 0x00, 0x00, 0x00, 0x00, 0x00, 0x02, 0xAA, 0xBB] = some (.data 0x11 0x2, [0xAA, 0xBB]) ∧
    reads [0xA0, 0x11, 0xF7, 0x00, 0xA5, 0x5C] = some (.fopen 0x11 0xF7 0x00 0xA5 0x5C, []) ∧
    reads [0xA1, 0x11, 0xF7, 0x00, 0xA5, 0x5C, 0xFF] = some (.fin 0x11 0xF7 0x00 0xA5 0x5C 0xFF, []) ∧
    reads [0xA2, 0x11, 0xF7, 0x00, 0xA5, 0x5C, 0xFF] = some (.fout 0x11 0xF7 0x00 0xA5 0x5C 0xFF, []) := by decide

theorem test_decode_refuses : reads [0x0B] = none ∧ reads [0x10, 0x02] = none ∧ reads [] = none := by decide
theorem test_encode_data : encode Opmap.default (.data 5 3) = [0x0A, 5, 0, 0, 0, 0, 0, 0, 0, 3] := by decide
theorem test_table_word : decodeTableWord 8 0x10 = some (.add 0 0 0) ∧ decodeTableWord 32 0x01000210 = some (.add 2 0 1) ∧
    decodeTableWord 8 0x0B = none := by decide

/-- A map other than the default: Add and Sub have exchanged bytes, and NOP has a byte the default leaves unassigned. -/
def otherOpmap : Opmap :=
  { codes := Opmap.default.codes.map fun c => if c = 0x10 then 0x11 else if c = 0x11 then 0x10 else if c = 0 then 0xFF else c
    complete := by decide, injective := by decide }

-- R5, R97, R98: the map is an argument, and what it does not assign is unknown
theorem test_other_opmap :
    (decode otherOpmap [0x10, 2, 0, 1]).toOption = some (.sub 2 0 1, []) ∧ encode otherOpmap (.sub 2 0 1) = [0x10, 2, 0, 1] ∧
    (decode otherOpmap [0xFF]).toOption = some (.nop, []) ∧ (decode otherOpmap [0x00]).toOption = none := by decide

/-! ### Single steps -/

/-- The default control-register ids, under which the vectors are written. -/
abbrev cr : Crmap := Crmap.default

/-- The state of a vector: the reset state of an image with these code bytes (padded to `c`), `d` bytes of Data and `s` bytes
of Stack, with registers and memory bytes set on top. -/
def image (c d s : Nat) (code : List Byte) (regs : List (RegId × Word)) (cells : List (Nat × Byte)) : State :=
  let boot := State.boot { Launch.empty with
    program := code ++ List.replicate (c - code.length) 0, dataSize := d, stackSize := s }
  let withRegs := regs.foldl (fun t r => t.setReg r.1 r.2) boot
  { withRegs with mem := cells.foldl (fun m p => m.write p.1 p.2) withRegs.mem }

/-- The standard state of 95_test_vectors.md: `N = NPHYS = 100`, `CS = 16`, `DS = 32`, `SS = SB = ST = 80`. -/
def std (code : List Byte) (regs : List (RegId × Word)) (cells : List (Nat × Byte)) : State := image 16 48 20 code regs cells

/-- An observation of the state after one step, if there is one. -/
def after {α : Type} (s : State) (f : State → α) : Option α :=
  match step s with
  | .next t => some (f t)
  | .fault _ => none
  | .refused _ => none

theorem test_ct_01 :
    after (std [0x00] [] [])
      (fun t => (t.reg cr.ip)) = some (17) := by decide +kernel
theorem test_ct_02 :
    after (std [0x01] [(cr.ex, 42)] [])
      (fun t => (t.reg cr.ip, t.status)) = some (17, .halted 42) := by decide +kernel
theorem test_ct_04 :
    after (std [0x02, 0x05] [(5, 40)] [])
      (fun t => (t.reg cr.ip)) = some (40) := by decide +kernel
theorem test_ct_06 :
    after (std [0x03, 0x01, 0x02] [(1, 7), (2, 100)] [])
      (fun t => (t.reg cr.ip)) = some (100) := by decide +kernel
theorem test_ct_07 :
    after (std [0x03, 0x01, 0x02] [(1, 0), (2, 100)] [])
      (fun t => (t.reg cr.ip)) = some (19) := by decide +kernel
theorem test_ct_08 :
    after (std [0x04, 0x01, 0x02] [(1, 0), (2, 100)] [])
      (fun t => (t.reg cr.ip)) = some (100) := by decide +kernel
theorem test_ct_09 :
    after (std [0x04, 0x01, 0x02] [(1, 0x8000000000000000), (2, 100)] [])
      (fun t => (t.reg cr.ip)) = some (19) := by decide +kernel
theorem test_ct_10 :
    after (std [0x05, 0x09] [] [])
      (fun t => (t.reg 9, t.reg cr.ip)) = some (18, 18) := by decide +kernel
theorem test_ct_12 :
    after (std [0x06, 0x00, 0x03] [(0, 1), (3, 25)] [])
      (fun t => (t.reg 0, t.reg cr.ip)) = some (0, 19) := by decide +kernel
theorem test_ct_13 :
    after (std [0x06, 0x00, 0x03] [(0, 0), (3, 25)] [])
      (fun t => (t.reg 0, t.reg cr.ip)) = some (0xFFFFFFFFFFFFFFFF, 25) := by decide +kernel
theorem test_ct_15 :
    after (std [0x07, 0x0A] [(10, 41), (cr.ss, 60), (cr.sb, 60), (cr.st, 60)] [])
      (fun t => (t.reg cr.st, t.reg cr.ip, t.load 67 1)) = some (68, 41, 18) := by decide +kernel
theorem test_ct_19 :
    after (std [0x07, 0x0A] [(10, 41), (cr.st, 92)] [])
      (fun t => (t.reg cr.ip, t.status)) = some (18, .faulted .b4) := by decide +kernel
theorem test_ct_17 :
    after (std [0x08] [(cr.ss, 60), (cr.sb, 60), (cr.st, 68)] [(60, 0x00), (61, 0x00), (62, 0x00), (63, 0x00), (64, 0x00), (65, 0x00), (66, 0x00), (67, 0x28)])
      (fun t => (t.reg cr.st, t.reg cr.ip)) = some (60, 40) := by decide +kernel
theorem test_ct_18 :
    after (std [0x08] [] [])
      (fun t => (t.reg cr.st, t.reg cr.ip, t.status)) = some (72, 17, .faulted .b2) := by decide +kernel
theorem test_au_02 :
    after (std [0x10, 0x02, 0x00, 0x01] [(0, 0xFFFFFFFFFFFFFFFF), (1, 1)] [])
      (fun t => (t.reg 2, t.reg cr.ip)) = some (0, 20) := by decide +kernel
theorem test_au_04 :
    after (std [0x11, 0x02, 0x00, 0x01] [(0, 5), (1, 8)] [])
      (fun t => (t.reg 2, t.reg cr.ip)) = some (0xFFFFFFFFFFFFFFFD, 20) := by decide +kernel
theorem test_au_07 :
    after (std [0x12, 0x02, 0x00, 0x01] [(0, 0x100000000), (1, 0x100000000)] [])
      (fun t => (t.reg 2, t.reg cr.ip)) = some (0, 20) := by decide +kernel
theorem test_au_07b :
    after (std [0x12, 0x02, 0x00, 0x00] [(0, 0xFFFFFFFFFFFFFFFF)] [])
      (fun t => (t.reg 2, t.reg cr.ip)) = some (1, 20) := by decide +kernel
theorem test_au_09 :
    after (std [0x13, 0x02, 0x03, 0x00, 0x01] [(0, 17), (1, 5)] [])
      (fun t => (t.reg 2, t.reg 3, t.reg cr.ip)) = some (3, 2, 21) := by decide +kernel
theorem test_au_11 :
    after (std [0x13, 0x02, 0x02, 0x00, 0x01] [(0, 17), (1, 5)] [])
      (fun t => (t.reg 2, t.reg cr.ip)) = some (2, 21) := by decide +kernel
theorem test_au_14 :
    after (std [0x14, 0x04] [(4, 0xFFFFFFFFFFFFFFFF)] [])
      (fun t => (t.reg 4, t.reg cr.ip)) = some (0, 18) := by decide +kernel
theorem test_au_16 :
    after (std [0x15, 0x04] [(4, 0)] [])
      (fun t => (t.reg 4, t.reg cr.ip)) = some (0xFFFFFFFFFFFFFFFF, 18) := by decide +kernel
theorem test_as_01 :
    after (std [0x18, 0x02, 0x00, 0x01] [(0, 0xFFFFFFFFFFFFFFFD), (1, 5)] [])
      (fun t => (t.reg 2, t.reg cr.ip)) = some (0xFFFFFFFFFFFFFFF1, 20) := by decide +kernel
theorem test_as_03 :
    after (std [0x18, 0x02, 0x00, 0x01] [(0, 0x8000000000000000), (1, 0xFFFFFFFFFFFFFFFF)] [])
      (fun t => (t.reg 2, t.reg cr.ip)) = some (0x8000000000000000, 20) := by decide +kernel
theorem test_as_06 :
    after (std [0x19, 0x02, 0x03, 0x00, 0x01] [(0, 7), (1, 0xFFFFFFFFFFFFFFFE)] [])
      (fun t => (t.reg 2, t.reg 3, t.reg cr.ip)) = some (0xFFFFFFFFFFFFFFFD, 1, 21) := by decide +kernel
theorem test_as_08 :
    after (std [0x19, 0x02, 0x03, 0x00, 0x01] [(0, 0x8000000000000000), (1, 0xFFFFFFFFFFFFFFFF)] [])
      (fun t => (t.reg 2, t.reg 3, t.reg cr.ip)) = some (0x8000000000000000, 0, 21) := by decide +kernel
theorem test_as_11 :
    after (std [0x1A, 0x02, 0x00, 0x01] [(0, 0xFFFFFFFFFFFFFFFF), (1, 1)] [])
      (fun t => (t.reg 2, t.reg cr.ip)) = some (0xFFFFFFFFFFFFFFFF, 20) := by decide +kernel
theorem test_as_12 :
    after (std [0x1A, 0x02, 0x00, 0x01] [(0, 1), (1, 0xFFFFFFFFFFFFFFFF)] [])
      (fun t => (t.reg 2, t.reg cr.ip)) = some (1, 20) := by decide +kernel
theorem test_as_14 :
    after (std [0x1B, 0x02, 0x00, 0x01] [(0, 0xFFFFFFFFFFFFFFFF), (1, 0)] [])
      (fun t => (t.reg 2, t.reg cr.ip)) = some (1, 20) := by decide +kernel
theorem test_as_16 :
    after (std [0x1B, 0x02, 0x00, 0x01] [(0, 4), (1, 4)] [])
      (fun t => (t.reg 2, t.reg cr.ip)) = some (0, 20) := by decide +kernel
theorem test_as_17 :
    after (std [0x1C, 0x02, 0x00, 0x01] [(0, 0xFFFFFFFFFFFFFFFF), (1, 0)] [])
      (fun t => (t.reg 2, t.reg cr.ip)) = some (0, 20) := by decide +kernel
theorem test_as_18 :
    after (std [0x1C, 0x02, 0x00, 0x01] [(0, 0), (1, 0xFFFFFFFFFFFFFFFF)] [])
      (fun t => (t.reg 2, t.reg cr.ip)) = some (1, 20) := by decide +kernel
theorem test_as_20 :
    after (std [0x1D, 0x02, 0x00, 0x01] [(0, 0x4000000000000001), (1, 1)] [])
      (fun t => (t.reg 2, t.reg cr.ip)) = some (0x8000000000000002, 20) := by decide +kernel
theorem test_as_21 :
    after (std [0x1D, 0x02, 0x00, 0x01] [(0, 5), (1, 64)] [])
      (fun t => (t.reg 2, t.reg cr.ip)) = some (5, 20) := by decide +kernel
theorem test_as_22 :
    after (std [0x1E, 0x02, 0x00, 0x01] [(0, 0x8000000000000000), (1, 63)] [])
      (fun t => (t.reg 2, t.reg cr.ip)) = some (0xFFFFFFFFFFFFFFFF, 20) := by decide +kernel
theorem test_as_23 :
    after (std [0x1E, 0x02, 0x00, 0x01] [(0, 0xFFFFFFFFFFFFFFF9), (1, 1)] [])
      (fun t => (t.reg 2, t.reg cr.ip)) = some (0xFFFFFFFFFFFFFFFC, 20) := by decide +kernel
theorem test_cm_03 :
    after (std [0x20, 0x02, 0x00, 0x01] [(0, 3), (1, 5)] [])
      (fun t => (t.reg 2, t.reg cr.ip)) = some (0xFFFFFFFFFFFFFFFF, 20) := by decide +kernel
theorem test_cm_04 :
    after (std [0x20, 0x02, 0x00, 0x01] [(0, 0xFFFFFFFFFFFFFFFF), (1, 1)] [])
      (fun t => (t.reg 2, t.reg cr.ip)) = some (1, 20) := by decide +kernel
theorem test_cm_06 :
    after (std [0x21, 0x02, 0x00, 0x01] [(0, 5), (1, 5)] [])
      (fun t => (t.reg 2, t.reg cr.ip)) = some (0, 20) := by decide +kernel
theorem test_cm_07 :
    after (std [0x21, 0x02, 0x00, 0x01] [(0, 0), (1, 0xFFFFFFFFFFFFFFFF)] [])
      (fun t => (t.reg 2, t.reg cr.ip)) = some (1, 20) := by decide +kernel
theorem test_cm_08 :
    after (std [0x22, 0x02, 0x00, 0x01] [(0, 3), (1, 5)] [])
      (fun t => (t.reg 2, t.reg cr.ip)) = some (0, 20) := by decide +kernel
theorem test_cm_09 :
    after (std [0x22, 0x02, 0x00, 0x01] [(0, 0xFFFFFFFFFFFFFFFF), (1, 0)] [])
      (fun t => (t.reg 2, t.reg cr.ip)) = some (1, 20) := by decide +kernel
theorem test_bw_01 :
    after (std [0x30, 0x01, 0x00] [(0, 0x100)] [])
      (fun t => (t.reg 1, t.reg cr.ip)) = some (0, 19) := by decide +kernel
theorem test_bw_02 :
    after (std [0x30, 0x01, 0x00] [(0, 0)] [])
      (fun t => (t.reg 1, t.reg cr.ip)) = some (1, 19) := by decide +kernel
theorem test_bw_04 :
    after (std [0x31, 0x02, 0x00, 0x01] [(0, 0xFF00FF00FF00FF00), (1, 0xFF00FF00FF00FF0)] [])
      (fun t => (t.reg 2, t.reg cr.ip)) = some (0xF000F000F000F00, 20) := by decide +kernel
theorem test_bw_05 :
    after (std [0x32, 0x02, 0x00, 0x01] [(0, 0xFF00FF00FF00FF00), (1, 0xFF00FF00FF00FF0)] [])
      (fun t => (t.reg 2, t.reg cr.ip)) = some (0xFFF0FFF0FFF0FFF0, 20) := by decide +kernel
theorem test_bw_06 :
    after (std [0x33, 0x02, 0x00, 0x01] [(0, 0xFF00FF00FF00FF00), (1, 0xFF00FF00FF00FF0)] [])
      (fun t => (t.reg 2, t.reg cr.ip)) = some (0xF0F0F0F0F0F0F0F0, 20) := by decide +kernel
theorem test_bw_09 :
    after (std [0x34, 0x02, 0x00, 0x01] [(0, 3), (1, 63)] [])
      (fun t => (t.reg 2, t.reg cr.ip)) = some (0x8000000000000000, 20) := by decide +kernel
theorem test_bw_10 :
    after (std [0x34, 0x02, 0x00, 0x01] [(0, 5), (1, 64)] [])
      (fun t => (t.reg 2, t.reg cr.ip)) = some (5, 20) := by decide +kernel
theorem test_bw_13 :
    after (std [0x35, 0x02, 0x00, 0x01] [(0, 0x8000000000000000), (1, 63)] [])
      (fun t => (t.reg 2, t.reg cr.ip)) = some (1, 20) := by decide +kernel
theorem test_bw_14 :
    after (std [0x35, 0x02, 0x00, 0x01] [(0, 0xFFFFFFFFFFFFFFFF), (1, 0x100000041)] [])
      (fun t => (t.reg 2, t.reg cr.ip)) = some (0x7FFFFFFFFFFFFFFF, 20) := by decide +kernel
theorem test_bw_16 :
    after (std [0x36, 0x02, 0x00, 0x01] [(0, 0x8000000000000001), (1, 0xFFFFFFFFFFFFFFFF)] [])
      (fun t => (t.reg 2, t.reg cr.ip)) = some (0xC000000000000000, 20) := by decide +kernel
theorem test_bw_18 :
    after (std [0x36, 0x02, 0x00, 0x01] [(0, 0x1122334455667788), (1, 8)] [])
      (fun t => (t.reg 2, t.reg cr.ip)) = some (0x2233445566778811, 20) := by decide +kernel
theorem test_bw_19 :
    after (std [0x37, 0x02, 0x00, 0x01] [(0, 0x8000000000000001), (1, 1)] [])
      (fun t => (t.reg 2, t.reg cr.ip)) = some (0xC000000000000000, 20) := by decide +kernel
theorem test_bw_20 :
    after (std [0x37, 0x02, 0x00, 0x01] [(0, 0x1122334455667788), (1, 8)] [])
      (fun t => (t.reg 2, t.reg cr.ip)) = some (0x8811223344556677, 20) := by decide +kernel
theorem test_bw_22 :
    after (std [0x38, 0x01, 0x00] [(0, 0xFFFFFFFF)] [])
      (fun t => (t.reg 1, t.reg cr.ip)) = some (0xFFFFFFFF00000000, 19) := by decide +kernel
theorem test_bw_24 :
    after (std [0x39, 0x01, 0x00] [(0, 0x100)] [])
      (fun t => (t.reg 1, t.reg cr.ip)) = some (1, 19) := by decide +kernel
theorem test_bw_25 :
    after (std [0x39, 0x01, 0x00] [(0, 0)] [])
      (fun t => (t.reg 1, t.reg cr.ip)) = some (0, 19) := by decide +kernel
theorem test_mm_01 :
    after (std [0x40, 0x01, 0x00] [(0, 0x1122334455667788)] [])
      (fun t => (t.reg 1, t.reg cr.ip)) = some (136, 19) := by decide +kernel
theorem test_mm_02 :
    after (std [0x41, 0x01, 0x00] [(0, 0x1122334455667788)] [])
      (fun t => (t.reg 1, t.reg cr.ip)) = some (0x7788, 19) := by decide +kernel
theorem test_mm_03 :
    after (std [0x42, 0x01, 0x00] [(0, 0x1122334455667788)] [])
      (fun t => (t.reg 1, t.reg cr.ip)) = some (0x55667788, 19) := by decide +kernel
theorem test_mm_06 :
    after (std [0x43, 0x01, 0xF5] [] [])
      (fun t => (t.reg 1, t.reg cr.ip)) = some (19, 19) := by decide +kernel
theorem test_mm_08 :
    after (std [0x44, 0x03, 0xFF] [] [])
      (fun t => (t.reg 3, t.reg cr.ip)) = some (255, 19) := by decide +kernel
theorem test_mm_09 :
    after (std [0x45, 0x03, 0x12, 0x34] [] [])
      (fun t => (t.reg 3, t.reg cr.ip)) = some (0x1234, 20) := by decide +kernel
theorem test_mm_10 :
    after (std [0x46, 0x03, 0xDE, 0xAD, 0xBE, 0xEF] [] [])
      (fun t => (t.reg 3, t.reg cr.ip)) = some (0xDEADBEEF, 22) := by decide +kernel
theorem test_mm_12 :
    after (std [0x47, 0x00, 0x11, 0x22, 0x33, 0x44, 0x55, 0x66, 0x77, 0x88] [] [])
      (fun t => (t.reg 0, t.reg cr.ip)) = some (0x1122334455667788, 26) := by decide +kernel
theorem test_mm_18 :
    after (std [0x48, 0x02, 0x01] [(1, 98)] [(98, 0x7F)])
      (fun t => (t.reg 2, t.reg cr.ip)) = some (127, 19) := by decide +kernel
theorem test_mm_19 :
    after (std [0x48, 0x02, 0x01] [(1, 99), (2, 111)] [])
      (fun t => (t.reg cr.ip, t.status)) = some (19, .faulted .b1) := by decide +kernel
theorem test_mm_14 :
    after (std [0x49, 0x02, 0x01] [(1, 50)] [(50, 0x11), (51, 0x22)])
      (fun t => (t.reg 2, t.reg cr.ip)) = some (0x1122, 19) := by decide +kernel
theorem test_mm_15 :
    after (std [0x4A, 0x02, 0x01] [(1, 51)] [(51, 0x11), (52, 0x22), (53, 0x33), (54, 0x44)])
      (fun t => (t.reg 2, t.reg cr.ip)) = some (0x11223344, 19) := by decide +kernel
theorem test_mm_16 :
    after (std [0x4B, 0x02, 0x01] [(1, 91)] [(91, 0x11), (92, 0x22), (93, 0x33), (94, 0x44), (95, 0x55), (96, 0x66), (97, 0x77), (98, 0x88)])
      (fun t => (t.reg 2, t.reg cr.ip)) = some (0x1122334455667788, 19) := by decide +kernel
theorem test_mm_17 :
    after (std [0x4B, 0x02, 0x01] [(1, 92), (2, 111)] [])
      (fun t => (t.reg cr.ip, t.status)) = some (19, .faulted .b1) := by decide +kernel
theorem test_mm_23 :
    after (std [0x4C, 0x01, 0x00] [(1, 50), (0, 0x1234)] [])
      (fun t => (t.reg cr.ip, t.load 50 1)) = some (19, 52) := by decide +kernel
theorem test_mm_24 :
    after (std [0x4D, 0x01, 0x00] [(1, 50), (0, 0x123456)] [])
      (fun t => (t.reg cr.ip, t.load 50 2)) = some (19, 0x3456) := by decide +kernel
theorem test_mm_25 :
    after (std [0x4E, 0x01, 0x00] [(1, 50), (0, 0x1122334455667788)] [])
      (fun t => (t.reg cr.ip, t.load 50 4)) = some (19, 0x55667788) := by decide +kernel
theorem test_mm_26 :
    after (std [0x4F, 0x01, 0x00] [(1, 50), (0, 0x1122334455667788)] [])
      (fun t => (t.reg cr.ip, t.load 50 8)) = some (19, 0x1122334455667788) := by decide +kernel
theorem test_mm_27 :
    after (std [0x4F, 0x01, 0x00] [(1, 92), (0, 0x1122334455667788)] [])
      (fun t => (t.reg cr.ip, t.status)) = some (19, .faulted .b1) := by decide +kernel
theorem test_mm_36 :
    after (std [0x50, 0x04, 0x01, 0x02, 0x03] [(1, 40), (2, 8), (3, 8), (4, 111)] [])
      (fun t => (t.reg 4, t.reg cr.ip)) = some (0, 21) := by decide +kernel
theorem test_mm_39 :
    after (std [0x50, 0x04, 0x01, 0x02, 0x03] [(1, 0xFFFFFFFFFFFFFFFF), (2, 1), (3, 51)] [])
      (fun t => (t.reg 4, t.reg cr.ip)) = some (50, 21) := by decide +kernel
theorem test_st_01 :
    after (std [0x60, 0x00] [(cr.ss, 60), (cr.sb, 60), (cr.st, 60), (0, 0x1234)] [])
      (fun t => (t.reg cr.st, t.reg cr.ip, t.load 60 1)) = some (61, 18, 52) := by decide +kernel
theorem test_st_18 :
    after (std [0x60, 0x00] [(0, 1), (cr.sb, 90), (cr.st, 85)] [])
      (fun t => (t.reg cr.ip, t.status)) = some (18, .faulted .b3) := by decide +kernel
theorem test_st_02 :
    after (std [0x61, 0x00] [(cr.ss, 60), (cr.sb, 60), (cr.st, 60), (0, 0x1234)] [])
      (fun t => (t.reg cr.st, t.reg cr.ip, t.load 60 2)) = some (62, 18, 0x1234) := by decide +kernel
theorem test_st_03 :
    after (std [0x62, 0x00] [(cr.ss, 60), (cr.sb, 60), (cr.st, 60), (0, 0x1122334455667788)] [])
      (fun t => (t.reg cr.st, t.reg cr.ip, t.load 60 4)) = some (64, 18, 0x55667788) := by decide +kernel
theorem test_st_11 :
    after (std [0x63, 0x00] [(0, 0x1122334455667788), (cr.st, 91)] [])
      (fun t => (t.reg cr.st, t.reg cr.ip, t.load 91 8)) = some (99, 18, 0x1122334455667788) := by decide +kernel
theorem test_st_12 :
    after (std [0x63, 0x00] [(0, 0x1122334455667788), (cr.st, 92)] [])
      (fun t => (t.reg cr.ip, t.status)) = some (18, .faulted .b4) := by decide +kernel
theorem test_st_19 :
    after (std [0x64, 0xF7] [(cr.ss, 60), (cr.sb, 60), (cr.st, 61)] [(60, 0x2A)])
      (fun t => (t.reg cr.st, t.reg cr.ip)) = some (42, 18) := by decide +kernel
theorem test_st_21 :
    after (std [0x65, 0x01] [(cr.ss, 60), (cr.sb, 60), (cr.st, 61), (1, 111)] [])
      (fun t => (t.reg cr.st, t.reg cr.ip, t.status)) = some (59, 18, .faulted .b2) := by decide +kernel
theorem test_st_14 :
    after (std [0x67, 0x01] [(1, 111)] [])
      (fun t => (t.reg cr.st, t.reg cr.ip, t.status)) = some (72, 18, .faulted .b2) := by decide +kernel
theorem test_st_16 :
    after (std [0x67, 0x01] [(cr.ss, 0), (cr.sb, 0), (cr.st, 4), (1, 111)] [])
      (fun t => (t.reg cr.st, t.reg cr.ip, t.status)) = some (0xFFFFFFFFFFFFFFFC, 18, .faulted .b4) := by decide +kernel
theorem test_xc_01 :
    after (std [0x70, 0x00, 0x01] [(0, 0x1122334455667788), (1, 50)] [(50, 0xAB)])
      (fun t => (t.reg 0, t.reg cr.ip, t.load 50 1)) = some (0x11223344556677AB, 19, 136) := by decide +kernel
theorem test_xc_06 :
    after (std [0x70, 0x01, 0x01] [(1, 50)] [(50, 0xAB)])
      (fun t => (t.reg 1, t.reg cr.ip, t.load 50 1)) = some (171, 19, 50) := by decide +kernel
theorem test_xc_02 :
    after (std [0x71, 0x00, 0x01] [(0, 0x1122334455667788), (1, 50)] [(50, 0xAB), (51, 0xCD)])
      (fun t => (t.reg 0, t.reg cr.ip, t.load 50 2)) = some (0x112233445566ABCD, 19, 0x7788) := by decide +kernel
theorem test_xc_03 :
    after (std [0x72, 0x00, 0x01] [(0, 0x1122334455667788), (1, 50)] [(50, 0xAA), (51, 0xBB), (52, 0xCC), (53, 0xDD)])
      (fun t => (t.reg 0, t.reg cr.ip, t.load 50 4)) = some (0x11223344AABBCCDD, 19, 0x55667788) := by decide +kernel
theorem test_xc_05 :
    after (std [0x72, 0x00, 0x01] [(0, 0x1122334455667788), (1, 96)] [])
      (fun t => (t.reg cr.ip, t.status)) = some (19, .faulted .b1) := by decide +kernel
theorem test_xc_04 :
    after (std [0x73, 0x00, 0x01] [(0, 0x1122334455667788), (1, 50)] [(50, 0x01), (51, 0x02), (52, 0x03), (53, 0x04), (54, 0x05), (55, 0x06), (56, 0x07), (57, 0x08)])
      (fun t => (t.reg 0, t.reg cr.ip, t.load 50 8)) = some (0x102030405060708, 19, 0x1122334455667788) := by decide +kernel
theorem test_xc_07 :
    after (std [0x74, 0x00, 0x01] [(0, 1), (1, 2)] [])
      (fun t => (t.reg 0, t.reg 1, t.reg cr.ip)) = some (2, 1, 19) := by decide +kernel
theorem test_xc_09 :
    after (std [0x74, 0xF5, 0x00] [(0, 40)] [])
      (fun t => (t.reg 0, t.reg cr.ip)) = some (19, 40) := by decide +kernel
theorem test_bl_02 :
    after (std [0x80, 0x00, 0x01, 0x02] [(0, 51), (1, 50), (2, 4)] [(50, 0x01), (51, 0x02), (52, 0x03), (53, 0x04), (54, 0x05)])
      (fun t => (t.reg cr.ip, t.load 51 4)) = some (20, 0x1010101) := by decide +kernel
theorem test_bl_03 :
    after (std [0x80, 0x00, 0x01, 0x02] [(0, 50), (1, 51), (2, 4)] [(50, 0x01), (51, 0x02), (52, 0x03), (53, 0x04), (54, 0x05)])
      (fun t => (t.reg cr.ip, t.load 50 4)) = some (20, 0x2030405) := by decide +kernel
theorem test_bl_06 :
    after (std [0x81, 0x00, 0x01, 0x02, 0x03] [(1, 50), (2, 60), (3, 3)] [(50, 0x01), (51, 0x02), (52, 0x03), (60, 0x01), (61, 0x02), (62, 0x04)])
      (fun t => (t.reg 0, t.reg cr.ip)) = some (0xFFFFFFFFFFFFFFFF, 21) := by decide +kernel
theorem test_bl_08c :
    after (std [0x81, 0x00, 0x01, 0x02, 0x03] [(1, 50), (2, 60), (3, 1)] [(50, 0x80), (60, 0x7F)])
      (fun t => (t.reg 0, t.reg cr.ip)) = some (1, 21) := by decide +kernel
theorem test_bl_10 :
    after (std [0x84, 0x00, 0x01, 0x02, 0x03] [(1, 50), (2, 4), (3, 0x10B)] [(50, 0x0A), (51, 0x0B), (52, 0x0C), (53, 0x0B)])
      (fun t => (t.reg 0, t.reg cr.ip)) = some (1, 21) := by decide +kernel
theorem test_bl_15 :
    after (std [0x84, 0x00, 0x01, 0x02, 0x03] [(1, 50), (2, 0), (3, 0)] [])
      (fun t => (t.reg 0, t.reg cr.ip)) = some (0xFFFFFFFFFFFFFFFF, 21) := by decide +kernel
theorem test_bl_11 :
    after (std [0x85, 0x00, 0x01, 0x02, 0x03] [(1, 50), (2, 3), (3, 0x1234)] [(50, 0x00), (51, 0x01), (52, 0x12), (53, 0x34), (54, 0x00), (55, 0x02)])
      (fun t => (t.reg 0, t.reg cr.ip)) = some (1, 21) := by decide +kernel
theorem test_bl_12 :
    after (std [0x85, 0x00, 0x01, 0x02, 0x03] [(1, 50), (2, 3), (3, 0x112)] [(50, 0x00), (51, 0x01), (52, 0x12), (53, 0x34), (54, 0x00), (55, 0x02)])
      (fun t => (t.reg 0, t.reg cr.ip)) = some (0xFFFFFFFFFFFFFFFF, 21) := by decide +kernel
theorem test_bl_13 :
    after (std [0x86, 0x00, 0x01, 0x02, 0x03] [(1, 50), (2, 2), (3, 0xDEADBEEF)] [(50, 0x00), (51, 0x00), (52, 0x00), (53, 0x01), (54, 0xDE), (55, 0xAD), (56, 0xBE), (57, 0xEF)])
      (fun t => (t.reg 0, t.reg cr.ip)) = some (1, 21) := by decide +kernel
theorem test_bl_17 :
    after (std [0x86, 0x00, 0x01, 0x02, 0x03] [(0, 111), (1, 50), (2, 13), (3, 0)] [])
      (fun t => (t.reg cr.ip, t.status)) = some (21, .faulted .b1) := by decide +kernel
theorem test_bl_14 :
    after (std [0x87, 0x00, 0x01, 0x02, 0x03] [(1, 50), (2, 2), (3, 9)] [(50, 0x00), (51, 0x00), (52, 0x00), (53, 0x00), (54, 0x00), (55, 0x00), (56, 0x00), (57, 0x07), (58, 0x00), (59, 0x00), (60, 0x00), (61, 0x00), (62, 0x00), (63, 0x00), (64, 0x00), (65, 0x09)])
      (fun t => (t.reg 0, t.reg cr.ip)) = some (1, 21) := by decide +kernel
theorem test_bl_16 :
    after (std [0x87, 0x00, 0x01, 0x02, 0x03] [(0, 111), (1, 50), (2, 0x2000000000000000), (3, 0)] [])
      (fun t => (t.reg cr.ip, t.status)) = some (21, .faulted .b1) := by decide +kernel
theorem test_cv_01 :
    after (std [0x90, 0x01, 0x00] [(0, 0x1234)] [])
      (fun t => (t.reg 1, t.reg cr.ip)) = some (0x4D2, 19) := by decide +kernel
theorem test_cv_04 :
    after (std [0x90, 0x01, 0x00] [(0, 26)] [])
      (fun t => (t.reg 1, t.reg cr.ip)) = some (20, 19) := by decide +kernel
theorem test_cv_05 :
    after (std [0x91, 0x01, 0x00] [(0, 0x4D2)] [])
      (fun t => (t.reg 1, t.reg cr.ip)) = some (0x1234, 19) := by decide +kernel
theorem test_cv_08 :
    after (std [0x91, 0x01, 0x00] [(0, 0x2386F26FC10000)] [])
      (fun t => (t.reg 1, t.reg cr.ip)) = some (0, 19) := by decide +kernel
theorem test_cv_12 :
    after (std [0x92, 0x02, 0x00, 0x01] [(0, 5), (1, 0)] [])
      (fun t => (t.reg 2, t.reg cr.ip)) = some (0xFFFFFFFFFFFFFFFB, 20) := by decide +kernel
theorem test_cv_14 :
    after (std [0x92, 0x02, 0x00, 0x01] [(0, 5), (1, 0x8000000000000000)] [])
      (fun t => (t.reg 2, t.reg cr.ip)) = some (5, 20) := by decide +kernel
theorem test_cv_18 :
    after (std [0x93, 0x01, 0x02, 0x00] [(0, 5)] [])
      (fun t => (t.reg 1, t.reg 2, t.reg cr.ip)) = some (5, 1, 20) := by decide +kernel
theorem test_cv_20 :
    after (std [0x93, 0x01, 0x02, 0x00] [(0, 0x8000000000000000)] [])
      (fun t => (t.reg 1, t.reg 2, t.reg cr.ip)) = some (0x8000000000000000, 0, 20) := by decide +kernel
theorem test_ms_01 :
    after (std [0x0A, 0x05, 0x00, 0x00, 0x00, 0x00, 0x00, 0x00, 0x00, 0x03, 0xAA, 0xBB, 0xCC] [] [])
      (fun t => (t.reg 5, t.reg cr.ip)) = some (26, 29) := by decide +kernel
theorem test_ms_03 :
    after (std [0x0A, 0x05, 0x7F, 0xFF, 0xFF, 0xFF, 0xFF, 0xFF, 0xFF, 0xFF] [(5, 111)] [])
      (fun t => (t.reg cr.ip, t.status)) = some (26, .faulted .b5) := by decide +kernel
theorem test_ms_04 :
    after (std [0x09] [] [])
      (fun t => (t.reg cr.ip, t.status)) = some (17, .parked) := by decide +kernel
theorem test_ms_06 :
    after (std [0xA2, 0x00, 0x01, 0x02, 0x03, 0x04, 0x05] [(0, 111), (1, 2), (2, 60), (3, 3), (4, 1), (5, 4)] [(60, 0x68), (61, 0x69), (62, 0x0A)])
      (fun t => (t.reg 0, t.reg cr.ip)) = some (0, 23) := by decide +kernel
theorem test_ms_08 :
    after (std [0xA2, 0x00, 0x01, 0x02, 0x03, 0x04, 0x05] [(0, 111), (1, 2), (2, 98), (3, 2), (4, 1), (5, 1)] [])
      (fun t => (t.reg cr.ip, t.status)) = some (23, .faulted .b1) := by decide +kernel
theorem test_ms_14 :
    after (std [0xA0, 0x00, 0x01, 0x02, 0x03, 0x04] [(0, 111), (1, 60), (2, 5), (3, 99), (4, 1)] [])
      (fun t => (t.reg cr.ip, t.status)) = some (22, .faulted .b1) := by decide +kernel
theorem test_dc_01 :
    after (std [0xFF] [] [])
      (fun t => (t.reg cr.ip, t.status)) = some (17, .faulted .c1) := by decide +kernel
theorem test_dc_03 :
    after (image 1 0 0 [0x01] [] [])
      (fun t => (t.reg cr.ip, t.status)) = some (16, .faulted .b5) := by decide +kernel
theorem test_dc_06 :
    after (image 4 0 1 [0x47, 0x00, 0x00, 0x00] [(0, 111)] [])
      (fun t => (t.reg cr.ip, t.status)) = some (18, .faulted .b5) := by decide +kernel

-- R207's operation on R203's bytes: Psh4 of ST-03, popped again
theorem test_pop4 :
    after (std [0x66, 0x01] [(cr.ss, 60), (cr.sb, 60), (cr.st, 64)] [(60, 0x55), (61, 0x66), (62, 0x77), (63, 0x88)])
      (fun t => (t.reg 1, t.reg cr.st)) = some (0x55667788, 60) := by decide +kernel
-- MS-11, and R242's refusal of a request above the buffer
theorem test_ms_11 :
    after (std [0xA1, 0, 1, 2, 3, 4, 5] [(1, 1), (2, 60), (3, 8), (4, 0), (5, 2)] [])
      (fun t => (t.reg 0, t.ip)) = some (0, 23) := by decide +kernel
theorem test_fin_overrun :
    step (std [0xA1, 0, 1, 2, 3, 4, 5] [(1, 1), (2, 60), (3, 8), (4, 3), (5, 3)] []) = .refused .finOverrun := rfl
-- R292: the refusals that need no magic
theorem test_loader :
    loadImage .missing Setting.default = .error .a1 ∧ loadImage .unreadable Setting.default = .error .a2 :=
  ⟨rfl, rfl⟩
-- the host's placing of a table word runs it from reset
theorem test_fetch_word :
    after (State.reset.withFetchWord 8 0x05) (fun t => (t.reg 0, t.ip)) = some (18, 18) := by decide +kernel

/-- The default map with the ids of `IP` and `EX` exchanged. -/
def otherCrmap : Crmap := { Crmap.default with ip := 0xFA, ex := 0xF5, injective := by decide }

/-- An image of two bytes of code and two of stack under the two other maps. -/
def otherImage (code : List Byte) : State :=
  State.boot { Setting.default with
    opmap := otherOpmap, crmap := otherCrmap, program := code, dataSize := 0, stackSize := 2 }

-- R5, R24, R31, R37: the machine's own registers are where the map says; SvIp into r0, then an unknown opcode
theorem test_other_crmap :
    after (otherImage [0x05, 0x00]) (fun t => (t.reg 0, t.reg 0xFA, t.reg 0xF5)) = some (18, 18, 0) ∧
    after (otherImage [0x00]) (fun t => (t.reg 0xFA, t.status)) = some (17, .faulted .c1) := by decide +kernel

/-! ### Witnesses: the hypotheses of the obligations can be met, each clause at a boundary -/

/-- Whether a step runs an instruction that answers a next state. -/
def execs (i : Instr) (s : State) : Bool :=
  match exec i s with
  | .next _ => true
  | .fault _ => false
  | .refused _ => false

/-- The status after an instruction that answers a next state. -/
def statusAfter (i : Instr) (s : State) : Option Status :=
  match exec i s with
  | .next t => some t.status
  | .fault _ => none
  | .refused _ => none

theorem witness_StoreWritesBigEndianBytes : 2 + 2 ≤ 4 ∧ 0 + 8 ≤ 8 ∧ 3 < 4 := by decide

theorem witness_AccessOutsideTheArenaIsRefused :
    let s := std [] [(1, 93), (2, 100), (3, 2), (4, 50), (cr.st, 93), (cr.al, 200)] []
    (s.regNat 1 + Width.w8.bytes < s.al ∧ s.nphys < s.regNat 1 + Width.w8.bytes) ∧
    (s.regNat 2 + Width.w1.bytes < s.al ∧ s.nphys < s.regNat 2 + Width.w1.bytes) ∧
    (s.regNat 1 + s.regNat 3 * Width.w4.bytes < s.al ∧ s.regNat 3 ≠ 0 ∧ s.nphys < s.regNat 1 + s.regNat 3 * Width.w4.bytes) ∧
    (s.checkStack (s.reg s.crmap.st).toNat Width.w8.bytes = none ∧
      s.nphys < (s.reg s.crmap.st).toNat + Width.w8.bytes) ∧
    (s.regNat 2 + s.regNat 3 < s.al ∧ s.regNat 4 + s.regNat 3 < s.al ∧ s.regNat 3 ≠ 0 ∧
      s.nphys < s.regNat 2 + s.regNat 3) := by
  decide +kernel

theorem witness_AccessOutsideTheArenaIsRefused_pop :
    let s := std [] [(cr.st, 101), (cr.al, 200)] []
    let e := std [] [(cr.st, 106), (cr.al, 200)] []
    (s.checkStack (s.reg s.crmap.st - BitVec.ofNat 64 Width.w1.bytes).toNat Width.w1.bytes = none ∧
      s.nphys < (s.reg s.crmap.st - BitVec.ofNat 64 Width.w1.bytes).toNat + Width.w1.bytes) ∧
    (e.checkStack (e.reg e.crmap.st - BitVec.ofNat 64 8).toNat 8 = none ∧
      e.nphys < (e.reg e.crmap.st - BitVec.ofNat 64 8).toNat + 8) := by
  decide +kernel

-- FIN and FOUT: buffer at 98, one element of 3 bytes; and the handle 7, which delivers nothing, so that FIN is not refused
theorem witness_AccessOutsideTheArenaIsRefused_host :
    let s := std [] [(1, 7), (2, 98), (3, 3), (4, 3), (5, 1), (cr.al, 200)] []
    s.regNat 2 + s.regNat 3 < s.al ∧ s.regNat 4 * s.regNat 5 ≤ s.regNat 3 ∧
    s.nphys < s.regNat 2 + s.regNat 4 * s.regNat 5 ∧ s.regNat 4 * s.regNat 5 ≠ 0 ∧
    s.hostRead (s.reg 1) (s.regNat 4 * s.regNat 5) = [] := by decide +kernel

-- the opcode field; and the last operand byte of Div, the fifth byte of the code, at the first absent address
theorem witness_AccessOutsideTheArenaIsRefused_fetch :
    let s := std [] [(cr.ip, 100), (cr.al, 200)] []
    let u := image 4 0 0 [0x13, 2, 3, 0] [(cr.al, 200)] []
    (s.status = .running ∧ s.ip + 1 < s.al ∧ s.nphys < s.ip + 1) ∧
    (u.status = .running ∧ formOf u.opmap (u.mem.read u.ip) = some (.r4 .div) ∧
      (Form.r4 Instr.div).widths = [1, 1, 1] ++ 1 :: [] ∧ u.ip + 1 + [1, 1, 1].sum + 1 < u.al ∧
      u.ip + 1 + [1, 1, 1].sum ≤ u.nphys ∧ u.nphys < u.ip + 1 + [1, 1, 1].sum + 1) :=
  ⟨by decide +kernel, rfl, rfl, rfl, by decide +kernel, by decide +kernel, by decide +kernel⟩

theorem witness_InstructionPointerGate :
    let s := std [] [] []
    s.ip + 83 < s.al ∧ s.al ≤ s.ip + 84 := by decide +kernel

theorem witness_StackGateTestsInOrder :
    let s := std [] [(cr.sb, 90)] []
    79 < (s.reg s.crmap.ss).toNat ∧
    ((s.reg s.crmap.ss).toNat ≤ 80 ∧ 89 < (s.reg s.crmap.sb).toNat ∧ (s.reg s.crmap.ss).toNat ≤ 89) ∧
    ((s.reg s.crmap.ss).toNat ≤ 92 ∧ (s.reg s.crmap.sb).toNat ≤ 92 ∧ s.al ≤ 92 + 8) ∧
    ((s.reg s.crmap.ss).toNat ≤ 90 ∧ (s.reg s.crmap.sb).toNat ≤ 90 ∧ 91 + 8 < s.al) := by decide +kernel

theorem witness_DataGateAndSafeAddressGate :
    let s := std [] [] []
    s.al ≤ 92 + 8 ∧ 91 + 8 < s.al ∧ s.al ≤ (100 : Word).toNat ∧ (99 : Word).toNat < s.al := by decide +kernel

theorem witness_StepWhereNothingIsFetched :
    (std [] [] []).park.status ≠ .running ∧
    ((std [] [(cr.ip, 100)] []).status = .running ∧
      (std [] [(cr.ip, 100)] []).al ≤ (std [] [(cr.ip, 100)] []).ip) ∧
    (std [] [(cr.ip, 99)] []).ip + 1 = (std [] [(cr.ip, 99)] []).al := by decide +kernel

theorem witness_UnknownOpcodeFaults :
    let s := image 1 0 1 [0xFF] [] []
    s.status = .running ∧ s.ip + 1 < s.al ∧ s.ip + 1 ≤ s.nphys ∧ (formOf s.opmap (s.mem.read s.ip)).isNone = true := by
  decide +kernel

-- vectors DC-05 and DC-06: the last operand byte of Div, and the literal of Set8
theorem witness_TruncatedInstructionFaults :
    let s := image 4 0 1 [0x13, 2, 3, 0] [] []
    let u := image 4 0 1 [0x47, 0, 0, 0] [] []
    (s.status = .running ∧ s.al ≤ s.nphys ∧ s.ip + 1 < s.al ∧ formOf s.opmap (s.mem.read s.ip) = some (.r4 .div) ∧
      (Form.r4 Instr.div).widths = [1, 1, 1] ++ 1 :: [] ∧ s.ip + 1 + [1, 1, 1].sum < s.al ∧
      s.al ≤ s.ip + 1 + [1, 1, 1].sum + 1) ∧
    (u.status = .running ∧ u.al ≤ u.nphys ∧ u.ip + 1 < u.al ∧ formOf u.opmap (u.mem.read u.ip) = some (.lit 8 .set8) ∧
      (Form.lit 8 Instr.set8).widths = [1] ++ 8 :: [] ∧ u.ip + 1 + [1].sum < u.al ∧ u.al ≤ u.ip + 1 + [1].sum + 8) :=
  ⟨⟨rfl, by decide +kernel, by decide +kernel, rfl, rfl, by decide +kernel, by decide +kernel⟩,
    ⟨rfl, by decide +kernel, by decide +kernel, rfl, rfl, by decide +kernel, by decide +kernel⟩⟩

theorem witness_StepRunsTheDecodedInstruction :
    let s := image 4 0 1 [0x10, 2, 0, 1] [] []
    s.status = .running ∧ reads (s.mem.readBytes s.ip 4) = some (.add 2 0 1, []) ∧ s.ip + 4 < s.al ∧ s.ip + 4 ≤ s.nphys := by
  decide +kernel

theorem witness_DecodeOfEncodeIsTheInstruction : (Instr.set1 3 255).WF ∧ (Instr.data 5 0xFFFFFFFFFFFFFFFF).WF := by decide

theorem witness_EncodeOfDecodeIsTheBytes : decode Opmap.default [0x45, 3, 0x12, 0x34, 7] = .ok (.set2 3 0x1234, [7]) := rfl

theorem witness_ResetStateIsTheTable :
    ({ Launch.empty with program := [1, 2], dataSize := 3, stackSize := 4, stackFill := [9, 9, 9, 9] } : Launch).fits = true ∧
    ({ Launch.empty with stackSize := 2 ^ 64 - 17 } : Launch).fits = true := by decide +kernel

theorem witness_ResetSatisfiesTheInvariant : Launch.empty.fits = true := by decide +kernel

theorem witness_LoaderBuildsTheResetState :
    ([1, 2, 3] : List Byte).length = 3 ∧ Setting.default.stackFill.length ≤ 1 ∧
    16 + ([0x01] : List Byte).length + 2 + 1 < 2 ^ 64 ∧ ([] : List Byte).length < ([0x01] : List Byte).length ∧
    ((2 : Nat) ^ 64 - 17 < 2 ^ 64 ∧ 2 ^ 64 ≤ 16 + (2 ^ 64 - 17) + 1 + 0) ∧
    ([] : List Byte).take 4 ≠ beBytes 4 Config.magic.toNat ∧
    ((beBytes 4 Config.magic.toNat).take 4 = beBytes 4 Config.magic.toNat ∧
      (beBytes 4 Config.magic.toNat).length < 32) :=
  ⟨rfl, by decide, by decide, by decide, by decide, fun h => by simpa [beBytes] using congrArg List.length h, rfl,
    by simp [beBytes]⟩

theorem witness_EveryStepKeepsTheInvariant :
    let s := std [0x4F, 1, 0] [(1, 50), (0, 7)] []
    s.Inv ∧ (after s (fun t => t.load 50 8)) = some 7 := by decide +kernel

theorem witness_OnlyDestinationRegistersChange : execs (.div 2 3 0 1) (std [] [(0, 17), (1, 5)] []) = true := by
  decide +kernel

theorem witness_OnlyStoredBytesChange :
    let s := std [] [(0, 51), (1, 50), (2, 4)] []
    execs (.movs 0 1 2) s = true ∧ storedRange s (.movs 0 1 2) = some (51, 4) ∧
      execs (.cmps 3 0 1 2) s = true ∧ storedRange s (.cmps 3 0 1 2) = none := by decide +kernel

theorem witness_StatusChangesOnlyForItsCauses :
    statusAfter .exit (std [] [(cr.ex, 42)] []) = some (.halted 42) ∧ statusAfter .htl (std [] [] []) = some .parked ∧
    statusAfter (.get8 2 1) (std [] [(1, 92)] []) = some (.faulted .b1) ∧
    statusAfter (.get8 2 1) (std [] [(1, 91)] []) = some .running := by decide +kernel

theorem witness_FaultLeavesOnlyALoweredTop :
    (std [] [] []).status = .running ∧ statusAfter (.psh8 0) (std [] [(cr.st, 92)] []) = some (.faulted .b4) ∧
    popWidth (.psh8 0) = none ∧ statusAfter (.pop8 1) (std [] [] []) = some (.faulted .b2) ∧
    popWidth (.pop8 1) = some 8 := by decide +kernel

theorem witness_StepsInsideTheArenaAreNotRefused :
    let s := std [0xA1, 0, 1, 2, 3, 4, 5] [(1, 1), (2, 60), (3, 8), (4, 3), (5, 3)] []
    GatesInsideArena s ∧ step s = .refused .finOverrun := ⟨by unfold GatesInsideArena; decide +kernel, rfl⟩

theorem witness_OnlyHostInstructionsReachTheHost : execs (.add 2 0 1) (std [] [] []) = true := by decide +kernel

theorem witness_LoopDecrementsThenTests :
    (std [] [(0, 1)] []).reg 0 = 1#64 ∧ (std [] [(0, 2)] []).reg 0 ≠ 1#64 ∧ (std [] [(0, 0)] []).reg 0 ≠ 1#64 := by
  decide +kernel

theorem witness_CallPushesTheReturnAddress :
    let s := std [] [(cr.st, 91)] []
    let p := (s.reg s.crmap.st).toNat
    (s.reg s.crmap.ss).toNat ≤ p ∧ (s.reg s.crmap.sb).toNat ≤ p ∧ p + 8 < s.al ∧ p + 8 ≤ s.nphys := by decide +kernel

theorem witness_RetPopsTheReturnAddress :
    let s := std [] [(cr.st, 88)] []
    let p := (s.reg s.crmap.st - 8#64).toNat
    (s.reg s.crmap.ss).toNat ≤ p ∧ (s.reg s.crmap.sb).toNat ≤ p ∧ p + 8 < s.al ∧ p + 8 ≤ s.nphys := by decide +kernel

-- with the callee's state `r` the state `u` right after the call
theorem witness_RetReturnsBehindItsCall :
    (std [] [(10, 41)] []).status = .running ∧ statusAfter (.call 10) (std [] [(10, 41)] []) = some .running := by
  decide +kernel

theorem witness_DivStoresQuotientAndRemainder : (std [] [(0, 17), (1, 5)] []).reg 1 ≠ 0#64 ∧ (2 : RegId) ≠ 3 := by
  decide +kernel

theorem witness_IDivTruncatesTowardZero :
    let s := std [] [(0, 0x8000000000000000), (1, 0xFFFFFFFFFFFFFFFF), (2, 2)] []
    s.reg 1 ≠ 0#64 ∧ (3 : RegId) ≠ 4 ∧ (s.reg 0 = 0x8000000000000000#64 ∧ s.reg 1 = 0xFFFFFFFFFFFFFFFF#64) ∧
    (s.reg 2 ≠ 0#64 ∧ ¬ (s.reg 0 = 0x8000000000000000#64 ∧ s.reg 2 = 0xFFFFFFFFFFFFFFFF#64)) := by decide +kernel

theorem witness_DivisionByZeroFaults : (std [] [(1, 0)] []).reg 1 = 0#64 ∧ (std [] [(1, 1)] []).reg 1 ≠ 0#64 := by
  decide +kernel

theorem witness_MovesAndLiteralsZeroExtend :
    (Width.w1.set 3 0xFF).WF ∧ (Width.w2.set 3 0xFFFF).WF ∧ (Width.w4.set 3 0xFFFFFFFF).WF ∧
    (Width.w8.set 3 0xFFFFFFFFFFFFFFFF).WF := by decide

theorem witness_GetLoadsBigEndian :
    let s := std [] [(1, 91), (2, 98)] []
    (s.regNat 1 + Width.w8.bytes < s.al ∧ s.regNat 1 + Width.w8.bytes ≤ s.nphys) ∧
    (s.regNat 2 + Width.w1.bytes < s.al ∧ s.regNat 2 + Width.w1.bytes ≤ s.nphys) := by decide +kernel

theorem witness_WrtStoresTheLowBytes :
    let s := std [] [(1, 0), (2, 95)] []
    (s.regNat 1 + Width.w8.bytes < s.al ∧ s.regNat 1 + Width.w8.bytes ≤ s.nphys) ∧
    (s.regNat 2 + Width.w4.bytes < s.al ∧ s.regNat 2 + Width.w4.bytes ≤ s.nphys) := by decide +kernel

theorem witness_DataGateFailureFaults :
    let s := std [] [(1, 92), (2, 8), (3, 0), (4, 1)] []
    s.al ≤ s.regNat 1 + Width.w8.bytes ∧ s.al ≤ s.regNat 1 + s.regNat 2 ∧
    s.al ≤ s.regNat 1 + s.regNat 4 * Width.w8.bytes := by decide +kernel

theorem witness_LeaClampsOutOfRangeToZero :
    let s := std [] [(1, 91), (2, 1), (3, 8), (4, 92)] []
    (s.regNat 1 + s.regNat 2 * s.regNat 3) % 2 ^ 64 < s.al ∧ s.al ≤ (s.regNat 4 + s.regNat 2 * s.regNat 3) % 2 ^ 64 := by
  decide +kernel

theorem witness_PshStoresAtTheTop :
    let s := std [] [(cr.st, 91)] []
    let p := (s.reg s.crmap.st).toNat
    (s.reg s.crmap.ss).toNat ≤ p ∧ (s.reg s.crmap.sb).toNat ≤ p ∧ p + Width.w8.bytes < s.al ∧
      p + Width.w8.bytes ≤ s.nphys := by decide +kernel

theorem witness_PopLoadsBelowTheTop :
    let s := std [] [(cr.st, 81)] []
    let p := s.reg s.crmap.st - BitVec.ofNat 64 Width.w1.bytes
    (s.reg s.crmap.ss).toNat ≤ p.toNat ∧ (s.reg s.crmap.sb).toNat ≤ p.toNat ∧ p.toNat + Width.w1.bytes < s.al ∧
      p.toNat + Width.w1.bytes ≤ s.nphys ∧ (1 : RegId) ≠ s.crmap.st := by decide +kernel

theorem witness_StackGateFailureFaults :
    let s := std [] [(cr.st, 92)] []
    let e := std [] [] []
    s.checkStack (s.reg s.crmap.st).toNat Width.w8.bytes = some .b4 ∧ s.checkStack (s.reg s.crmap.st).toNat 8 = some .b4 ∧
    e.checkStack (e.reg e.crmap.st - BitVec.ofNat 64 Width.w2.bytes).toNat Width.w2.bytes = some .b2 ∧
    e.checkStack (e.reg e.crmap.st - 8#64).toNat 8 = some .b2 := by decide +kernel

theorem witness_PushesThenPopsReverse :
    let s := std [] [] []
    let rs : List RegId := [0, 1]
    let ds : List RegId := [2, 0]
    ds.length = rs.length ∧ ds.Nodup ∧ (∀ d ∈ ds, d ∉ [s.crmap.st, s.crmap.ss, s.crmap.sb, s.crmap.al]) ∧ s.crmap.st ∉ rs ∧
    (s.reg s.crmap.ss).toNat ≤ (s.reg s.crmap.st).toNat ∧ (s.reg s.crmap.sb).toNat ≤ (s.reg s.crmap.st).toNat ∧
    (s.reg s.crmap.st).toNat + rs.length * Width.w8.bytes < s.al ∧
    (s.reg s.crmap.st).toNat + rs.length * Width.w8.bytes ≤ s.nphys := by decide +kernel

theorem witness_XchgExchangesLowBits :
    let s := std [] [(1, 97)] []
    s.regNat 1 + Width.w2.bytes < s.al ∧ s.regNat 1 + Width.w2.bytes ≤ s.nphys := by decide +kernel

theorem witness_SwapAndInlineData :
    let s := std [] [] []
    s.ip + (83 : Word).toNat < s.al ∧ s.al ≤ s.ip + (84 : Word).toNat ∧ (5 : RegId) ≠ s.crmap.ip := by decide +kernel

theorem witness_MovsCopiesForward :
    let s := std [] [(0, 51), (1, 50), (2, 4), (3, 95)] []
    (s.regNat 1 + s.regNat 2 < s.al ∧ s.regNat 0 + s.regNat 2 < s.al ∧ s.regNat 1 + s.regNat 2 ≤ s.nphys ∧
      s.regNat 0 + s.regNat 2 ≤ s.nphys ∧ s.regNat 1 < s.regNat 0) ∧
    (s.regNat 3 + s.regNat 2 < s.al ∧ s.regNat 3 + s.regNat 2 ≤ s.nphys ∧ s.regNat 0 ≤ s.regNat 3) := by decide +kernel

theorem witness_CmpsDecidesAtTheFirstDifference :
    let s := std [] [(1, 50), (2, 60), (3, 3)] [(50, 1), (51, 2), (52, 0x80), (60, 1), (61, 2), (62, 0x7F)]
    s.regNat 1 + s.regNat 3 < s.al ∧ s.regNat 2 + s.regNat 3 < s.al ∧ s.regNat 1 + s.regNat 3 ≤ s.nphys ∧
    s.regNat 2 + s.regNat 3 ≤ s.nphys ∧ (∀ i, i < 2 → s.mem.read (50 + i) = s.mem.read (60 + i)) ∧
    (s.mem.read (60 + 2)).toNat < (s.mem.read (50 + 2)).toNat := by decide +kernel

theorem witness_ScasFindsTheFirstMatch :
    let s := std [] [(1, 96), (2, 3), (3, 0x10B), (4, 0x0C)] [(96, 0x0A), (97, 0x0B), (98, 0x0B)]
    s.regNat 1 + s.regNat 2 * Width.w1.bytes < s.al ∧ s.regNat 1 + s.regNat 2 * Width.w1.bytes ≤ s.nphys ∧
    (s.load (96 + 1 * 1) 1 = s.regNat 3 % 2 ^ 8 ∧ ∀ i, i < 1 → s.load (96 + i * 1) 1 ≠ s.regNat 3 % 2 ^ 8) ∧
    (∀ i, i < 3 → s.load (96 + i * 1) 1 ≠ s.regNat 4 % 2 ^ 8) := by decide +kernel

theorem witness_RegisterWriteReplacesOneSlot : (1 : RegId) ≠ 2 := by decide

theorem witness_ConversionsFollowTheirSums : (1 : RegId) ≠ 2 := by decide

theorem witness_ConversionsRoundTrip :
    (∀ i, i < 16 → (std [] [(0, 0x9999999999999999)] []).regNat 0 / 16 ^ i % 16 ≤ 9) ∧ (1 : RegId) ≠ 2 := by decide +kernel

theorem witness_FopenStoresTheHostsAnswer :
    let s := std [] [(1, 60), (2, 39), (3, 70), (4, 0)] []
    s.regNat 1 + s.regNat 2 < s.al ∧ s.regNat 3 + s.regNat 4 < s.al ∧ s.regNat 1 + s.regNat 2 ≤ s.nphys ∧
    s.regNat 3 + s.regNat 4 ≤ s.nphys ∧ (0 : RegId) ≠ s.crmap.er := by decide +kernel

-- an unknown handle (7 in register 1) with a request that just fits; the same buffer with a request one too large
theorem witness_FinStoresWhatIsDelivered :
    let s := std [] [(1, 7), (2, 60), (3, 39), (4, 13), (5, 3), (6, 40), (7, 1)] []
    let bytes := s.hostRead (s.reg 1) (s.regNat 4 * s.regNat 5)
    s.regNat 2 + s.regNat 3 < s.al ∧ (s.regNat 4 * s.regNat 5 ≤ s.regNat 3 ∧ s.inArena (s.regNat 2) bytes.length) ∧
    s.regNat 3 < s.regNat 6 * s.regNat 7 ∧ 3 ≤ s.regNat 1 ∧ s.hostLog = [] := by decide +kernel

theorem witness_FoutCountsWhatIsTaken :
    let s := std [] [(1, 7), (2, 99), (3, 0), (4, 0), (5, 3), (6, 1)] []
    s.regNat 2 + s.regNat 3 < s.al ∧ (s.regNat 4 * s.regNat 5 ≤ s.regNat 3 ∧
      s.inArena (s.regNat 2) (s.regNat 4 * s.regNat 5)) ∧
    s.regNat 3 < s.regNat 6 * s.regNat 5 ∧ 3 ≤ s.regNat 1 ∧ s.hostLog = [] := by decide +kernel

end Sys2Proof.Tests
end

section
/-! PROOF of O26 (00_scope.md R5, 10_state.md R41, R45): which instructions reach the host, and what no step changes. -/

namespace Sys2Proof.Machine

/-! ### What holds of the next state, carried through the shared operations -/

/-- If the answer is a next state, `P` holds of it. -/
def EveryNext (P : State → Prop) (o : Result) : Prop := ∀ t, o = .next t → P t

section EveryNext
variable {P Q : State → Prop} {s : State} {k : Result}

theorem EveryNext.mono (h : EveryNext P k) (hPQ : ∀ t, P t → Q t) : EveryNext Q k := fun t ht => hPQ t (h t ht)

theorem EveryNext.next (h : P s) : EveryNext P (.next s) := by
  rintro _ ⟨⟩
  exact h

theorem EveryNext.refused (r : Refusal) : EveryNext P (.refused r) := nofun

theorem EveryNext.result {d : RegId} {v : Word} (h : P (s.setReg d v)) : EveryNext P (s.result d v) := .next h

theorem EveryNext.access {p n : Nat} (hk : EveryNext P k) : EveryNext P (s.access p n k) :=
  fun t h => hk t (State.access_next h).2

theorem EveryNext.gated {g : Option FaultCode} (hf : ∀ c, P (s.raise c)) (hk : EveryNext P k) :
    EveryNext P (s.gated g k) := by
  intro t h
  rcases State.gated_next h with ⟨c, -, rfl⟩ | ⟨-, hnext⟩
  · exact hf c
  · exact hk t hnext

theorem EveryNext.withData {p n : Nat} (hf : ∀ c, P (s.raise c)) (hk : EveryNext P k) :
    EveryNext P (s.withData p n k) := .gated hf (.access hk)

theorem EveryNext.withStack {p n : Nat} (hf : ∀ c, P (s.raise c)) (hk : EveryNext P k) :
    EveryNext P (s.withStack p n k) := .gated hf (.access hk)

theorem EveryNext.push {w : Nat} {v : Word} {f : State → Result} (hf : ∀ c, P (s.raise c))
    (hk : EveryNext P (f (s.pushed w v))) : EveryNext P (s.push w v f) := .withStack hf hk

theorem EveryNext.pop {w : Nat} {f : State → Word → Result} (hf : ∀ c, P ((s.lowered w).raise c))
    (hk : ∀ v, EveryNext P (f (s.lowered w) v)) : EveryNext P (s.pop w f) := .withStack hf (hk _)

theorem EveryNext.divide {q r : RegId} {y quo rem : Word} (hf : ∀ c, P (s.raise c))
    (hk : P ((s.setReg q quo).setReg r rem)) : EveryNext P (s.divide q r y quo rem) := by
  intro t h
  rcases State.divide_next h with ⟨-, rfl⟩ | ⟨-, rfl⟩
  · exact hf .c2
  · exact hk

end EveryNext

/-! ### The host side as before -/

/-- What the launch fixed and the record of the host's exchanges are as before. -/
def HostKept (s t : State) : Prop := LaunchKept s t ∧ t.hostLog = s.hostLog

/-- What the launch fixed is as before, and at most one exchange with the host is new. -/
def AtMostOneExchange (s t : State) : Prop :=
  LaunchKept s t ∧ (t.hostLog = s.hostLog ∨ ∃ e, t.hostLog = e :: s.hostLog)

section HostKept
variable {s t : State}

theorem HostKept.refl (s : State) : HostKept s s := ⟨LaunchKept.refl s, rfl⟩

theorem HostKept.setReg (h : HostKept s t) (r : RegId) (v : Word) : HostKept s (t.setReg r v) := h

theorem HostKept.raise (h : HostKept s t) (c : FaultCode) : HostKept s (t.raise c) := h

theorem HostKept.store (h : HostKept s t) (p n v : Nat) : HostKept s (t.store p n v) := h

theorem HostKept.jump (h : HostKept s t) (v : Word) : HostKept s (t.jump v) := h

theorem HostKept.jumpIf (h : HostKept s t) (b : Bool) (v : Word) : HostKept s (t.jumpIf b v) := by
  rcases t.jumpIf_cases b v with e | e
  · rw [e]; exact h.jump v
  · rw [e]; exact h

theorem HostKept.atMostOneExchange (h : HostKept s t) : AtMostOneExchange s t := ⟨h.1, Or.inl h.2⟩

theorem hostKept_raise (s : State) (c : FaultCode) : HostKept s (s.raise c) := (HostKept.refl s).raise c

theorem hostKept_setReg (s : State) (r : RegId) (v : Word) : HostKept s (s.setReg r v) := (HostKept.refl s).setReg r v

/-- An exchange recorded once; a register write or a store after it adds none. -/
theorem AtMostOneExchange.logHost (s : State) (e : Config.HostExchange) : AtMostOneExchange s (s.logHost e) :=
  ⟨LaunchKept.refl s, Or.inr ⟨e, rfl⟩⟩

theorem AtMostOneExchange.setReg (h : AtMostOneExchange s t) (r : RegId) (v : Word) :
    AtMostOneExchange s (t.setReg r v) := h

theorem AtMostOneExchange.storeBytes (h : AtMostOneExchange s t) (p : Nat) (bs : List Byte) :
    AtMostOneExchange s (t.storeBytes p bs) := h

theorem atMostOneExchange_raise (s : State) (c : FaultCode) : AtMostOneExchange s (s.raise c) :=
  (hostKept_raise s c).atMostOneExchange

end HostKept

/-! ### Each shape of instruction that asks nobody keeps the host side -/

theorem hostKept_result (s : State) (d : RegId) (v : Word) : EveryNext (HostKept s) (s.result d v) :=
  .result (hostKept_setReg s d v)

theorem hostKept_divide (s : State) (q r : RegId) (y quo rem : Word) :
    EveryNext (HostKept s) (s.divide q r y quo rem) :=
  .divide (hostKept_raise s) ((hostKept_setReg s q quo).setReg r rem)

theorem hostKept_loadReg (s : State) (w : Nat) (d a : RegId) : EveryNext (HostKept s) (s.loadReg w d a) :=
  .withData (hostKept_raise s) (hostKept_result s d _)

theorem hostKept_storeReg (s : State) (w : Nat) (a v : RegId) : EveryNext (HostKept s) (s.storeReg w a v) :=
  .withData (hostKept_raise s) (.next ((HostKept.refl s).store _ _ _))

theorem hostKept_exchange (s : State) (w : Nat) (x a : RegId) : EveryNext (HostKept s) (s.exchange w x a) :=
  .withData (hostKept_raise s) (.next (((HostKept.refl s).store _ _ _).setReg x _))

theorem hostKept_scan (s : State) (w : Nat) (d a n v : RegId) : EveryNext (HostKept s) (s.scan w d a n v) :=
  .withData (hostKept_raise s) (hostKept_result s d _)

theorem hostKept_push {s : State} {w : Nat} {v : Word} {f : State → Result}
    (hk : EveryNext (HostKept s) (f (s.pushed w v))) : EveryNext (HostKept s) (s.push w v f) :=
  .push (hostKept_raise s) hk

theorem hostKept_pop {s : State} {w : Nat} {f : State → Word → Result}
    (hk : ∀ v, EveryNext (HostKept s) (f (s.lowered w) v)) : EveryNext (HostKept s) (s.pop w f) :=
  .pop (fun c => (hostKept_setReg s _ _).raise c) hk

theorem hostKept_pushed (s : State) (w : Nat) (v : Word) : HostKept s (s.pushed w v) :=
  ((HostKept.refl s).store _ _ _).setReg _ _

theorem hostKept_pushReg (s : State) (w : Nat) (r : RegId) : EveryNext (HostKept s) (s.pushReg w r) :=
  hostKept_push (.next (hostKept_pushed s w _))

theorem hostKept_popReg (s : State) (w : Nat) (d : RegId) : EveryNext (HostKept s) (s.popReg w d) :=
  hostKept_pop fun v => .result ((hostKept_setReg s _ _).setReg d v)

theorem hostKept_execData (d : RegId) (len : Word) (s : State) : EveryNext (HostKept s) (execData d len s) := by
  unfold execData
  split
  case h_1 => exact .next (hostKept_raise s .b5)
  case h_2 addr s' hadv =>
    obtain ⟨-, -, rfl⟩ := State.advanceIp_some.mp hadv
    exact .result ((hostKept_setReg s _ _).setReg d addr)

theorem hostKept_execMovs (d a n : RegId) (s : State) : EveryNext (HostKept s) (execMovs d a n s) :=
  .gated (hostKept_raise s) (.gated (hostKept_raise s) (.access (.access (.next (HostKept.refl s)))))

theorem hostKept_execCmps (d a b n : RegId) (s : State) : EveryNext (HostKept s) (execCmps d a b n s) :=
  .gated (hostKept_raise s) (.gated (hostKept_raise s) (.access (.access (hostKept_result s d _))))

/-- R45: an instruction that is none of FOPEN, FIN, FOUT keeps the host side. -/
theorem exec_hostKept (s : State) {i : Instr} (hi : asksHost i = false) : EveryNext (HostKept s) (exec i s) := by
  cases i with
  | nop => exact .next (HostKept.refl s)
  | exit => exact .next (HostKept.refl s)
  | htl => exact .next (HostKept.refl s)
  | goto t => exact .next ((HostKept.refl s).jump _)
  | ifGo c t | ifNG c t => exact .next ((HostKept.refl s).jumpIf _ _)
  | loop c t => exact .next ((hostKept_setReg s c _).jumpIf _ _)
  | call t =>
    rw [exec_call]
    exact hostKept_push (.next ((hostKept_pushed s 8 _).jump _))
  | ret =>
    rw [exec_ret]
    exact hostKept_pop fun v => .next ((hostKept_setReg s _ _).jump v)
  | data d len => exact hostKept_execData d len s
  | div q r | iDiv q r => exact hostKept_divide s q r _ _ _
  | svIp d | add d | sub d | mul d | inc d | dec d | iMul d | iThan d | iLess d | iMore d | iLMov d | iRMov d | than d
  | less d | more d | not d | and d | or d | xor d | lMov d | rMov d | rol d | ror d | complement d | toBool d
  | mov1 d | mov2 d | mov4 d | mov8 d | set1 d | set2 d | set4 d | set8 d | lea d | bcdT d | bcdF d | signT d =>
    exact hostKept_result s d _
  | get1 | get2 | get4 | get8 => exact hostKept_loadReg s _ _ _
  | wrt1 | wrt2 | wrt4 | wrt8 => exact hostKept_storeReg s _ _ _
  | psh1 | psh2 | psh4 | psh8 => exact hostKept_pushReg s _ _
  | pop1 | pop2 | pop4 | pop8 => exact hostKept_popReg s _ _
  | xchg1 | xchg2 | xchg4 | xchg8 => exact hostKept_exchange s _ _ _
  | scas1 | scas2 | scas4 | scas8 => exact hostKept_scan s _ _ _ _ _
  | swap x y => exact .next ((hostKept_setReg s x _).setReg y _)
  | signF dm df => exact .next ((hostKept_setReg s dm _).setReg df _)
  | movs d a n => exact hostKept_execMovs d a n s
  | cmps d a b n => exact hostKept_execCmps d a b n s
  | fopen | fin | fout => exact Bool.noConfusion hi

/-! ### FOPEN, FIN and FOUT record at most one exchange -/

theorem execFopen_atMostOneExchange (d pa pl ma ml : RegId) (s : State) :
    EveryNext (AtMostOneExchange s) (execFopen d pa pl ma ml s) :=
  .gated (atMostOneExchange_raise s) (.gated (atMostOneExchange_raise s) (.access (.access
    (.next (((AtMostOneExchange.logHost s _).setReg _ _).setReg d _)))))

theorem execFin_atMostOneExchange (d h b l o c : RegId) (s : State) :
    EveryNext (AtMostOneExchange s) (execFin d h b l o c s) := by
  refine .gated (atMostOneExchange_raise s) ?_
  split
  · exact .refused _
  · dsimp only
    split
    · exact .next (((AtMostOneExchange.logHost s _).storeBytes _ _).setReg d _)
    · exact .refused _

theorem execFout_atMostOneExchange (d h b l o c : RegId) (s : State) :
    EveryNext (AtMostOneExchange s) (execFout d h b l o c s) := by
  refine .gated (atMostOneExchange_raise s) ?_
  split
  · exact .result (hostKept_setReg s d _).atMostOneExchange
  · exact .access (.result ((AtMostOneExchange.logHost s _).setReg d _))

theorem exec_atMostOneExchange (s : State) {i : Instr} (hi : asksHost i = true) :
    EveryNext (AtMostOneExchange s) (exec i s) := by
  cases i with
  | fopen d pa pl ma ml => exact execFopen_atMostOneExchange d pa pl ma ml s
  | fin d h b l o c => exact execFin_atMostOneExchange d h b l o c s
  | fout d h b l o c => exact execFout_atMostOneExchange d h b l o c s
  | _ => exact Bool.noConfusion hi

/-! ### No instruction and no step changes what the launch fixed -/

theorem exec_launchKept (i : Instr) (s : State) : EveryNext (LaunchKept s) (exec i s) := by
  cases hi : asksHost i with
  | true => exact (exec_atMostOneExchange s hi).mono fun _ h => h.1
  | false => exact (exec_hostKept s hi).mono fun _ h => h.1

theorem exec_hostLog (i : Instr) (s : State) : EveryNext
    (fun t => t.hostLog = s.hostLog ∨ (asksHost i = true ∧ ∃ e, t.hostLog = e :: s.hostLog)) (exec i s) := by
  cases hi : asksHost i with
  | true => exact (exec_atMostOneExchange s hi).mono fun _ h => h.2.imp_right fun he => ⟨rfl, he⟩
  | false => exact (exec_hostKept s hi).mono fun _ h => Or.inl h.2

theorem step_launchKept {s t : State} (h : step s = .next t) : LaunchKept s t := by
  obtain ⟨-, ⟨-, rfl⟩ | ⟨-, ip, c, -, rfl⟩ | ⟨-, i, ip, -, hexec⟩⟩ := step_next h
  · exact LaunchKept.refl s
  · exact ((hostKept_setReg s _ ip).raise c).1
  · exact (hostKept_setReg s _ ip).1.trans (exec_launchKept i _ t hexec)

/-- Settles O26: `exec` by the kind of instruction, a step by what `step_next` says it can do. -/
theorem onlyHostInstructionsReachTheHost : Obligations.OnlyHostInstructionsReachTheHost :=
  ⟨fun i s t h => ⟨exec_hostLog i s t h, exec_launchKept i s t h⟩, fun _ _ => step_launchKept⟩

end Sys2Proof.Machine
end

section
/-! PROOF of O20, O21, O22 (10_state.md R26 to R37, R41): the registers and the bytes each instruction may write, as one
footprint, and the invariant that follows from it. -/

namespace Sys2Proof.Machine

/-! ### The footprint of a change -/

/-- `m` is the arena of `s` unchanged, or after storing a byte string into `range` or copying forward into it, where `range`
lies inside the arena. -/
def ArenaChanged (range : Option (Nat × Nat)) (s : State) (m : Memory) : Prop :=
  m = s.mem ∨ ∃ p n, range = some (p, n) ∧ s.inArena p n ∧
    ((∃ bs, bs.length = n ∧ m = s.mem.writeBytes p bs) ∨ ∃ src, m = s.mem.copyForward p src n)

/-- From `s` to `t` no register but those of `rs` changes, and the arena changes in `range` only. -/
def Footprint (rs : List RegId) (range : Option (Nat × Nat)) (s t : State) : Prop :=
  RegsKept rs s t ∧ ArenaChanged range s t.mem

section ArenaChanged
variable {range : Option (Nat × Nat)} {s : State} {m : Memory}

theorem ArenaChanged.of_none (h : ArenaChanged none s m) : m = s.mem := by
  rcases h with h | ⟨p, n, hrange, -⟩
  · exact h
  · cases hrange

theorem ArenaChanged.read_outside {p n : Nat} (h : ArenaChanged (some (p, n)) s m) {a : Nat} (ha : a < p ∨ p + n ≤ a) :
    m.read a = s.mem.read a := by
  obtain rfl | ⟨p, n, ⟨⟩, -, ⟨bs, rfl, rfl⟩ | ⟨src, rfl⟩⟩ := h
  · rfl
  · exact Memory.read_writeBytes_outside _ _ _ _ ha
  · exact Memory.read_copyForward_outside _ _ _ _ _ ha

theorem ArenaChanged.wf (h : ArenaChanged range s m) (hs : s.mem.wf = true) : m.wf = true := by
  obtain rfl | ⟨p, n, -, -, ⟨bs, -, rfl⟩ | ⟨src, rfl⟩⟩ := h
  · exact hs
  · exact Memory.wf_writeBytes p bs hs
  · exact Memory.wf_copyForward p src n hs

theorem ArenaChanged.below (h : ArenaChanged range s m) (hs : s.mem.below s.nphys = true) : m.below s.nphys = true := by
  obtain rfl | ⟨p, n, -, hin, ⟨bs, rfl, rfl⟩ | ⟨src, rfl⟩⟩ := h
  · exact hs
  · exact Memory.below_writeBytes hs hin
  · exact Memory.below_copyForward hs hin

end ArenaChanged

section Footprint
variable {rs : List RegId} {range : Option (Nat × Nat)} {s t : State}

theorem Footprint.refl (rs : List RegId) (range : Option (Nat × Nat)) (s : State) : Footprint rs range s s :=
  ⟨RegsKept.refl rs s, Or.inl rfl⟩

theorem Footprint.setReg (h : Footprint rs range s t) {r : RegId} (hr : r ∈ rs) (v : Word) :
    Footprint rs range s (t.setReg r v) := ⟨h.1.setReg hr v, h.2⟩

theorem Footprint.jump (h : Footprint rs range s t) (hip : t.crmap.ip ∈ rs) (v : Word) :
    Footprint rs range s (t.jump v) := h.setReg hip v

theorem Footprint.jumpIf (h : Footprint rs range s t) (hip : t.crmap.ip ∈ rs) (b : Bool) (v : Word) :
    Footprint rs range s (t.jumpIf b v) := by
  rcases t.jumpIf_cases b v with e | e
  · rw [e]; exact h.jump hip v
  · rw [e]; exact h

theorem Footprint.raise (h : Footprint rs range s t) (c : FaultCode) : Footprint rs range s (t.raise c) := h

theorem Footprint.halt (h : Footprint rs range s t) : Footprint rs range s t.halt := h

theorem Footprint.park (h : Footprint rs range s t) : Footprint rs range s t.park := h

theorem Footprint.logHost (h : Footprint rs range s t) (e : Config.HostExchange) :
    Footprint rs range s (t.logHost e) := h

theorem Footprint.storeBytes (h : Footprint rs none s t) {p : Nat} {bs : List Byte} (hin : s.inArena p bs.length) :
    Footprint rs (some (p, bs.length)) s (t.storeBytes p bs) :=
  ⟨h.1, Or.inr ⟨p, bs.length, rfl, hin, Or.inl ⟨bs, rfl, by rw [State.storeBytes_mem, h.2.of_none]⟩⟩⟩

theorem footprint_store {p n : Nat} (hin : s.inArena p n) (v : Nat) :
    Footprint rs (some (p, n)) s (s.store p n v) :=
  ⟨RegsKept.refl rs s, Or.inr ⟨p, n, rfl, hin, Or.inl ⟨beBytes n v, length_beBytes n v, rfl⟩⟩⟩

theorem footprint_copyForward {p n : Nat} (hin : s.inArena p n) (src : Nat) :
    Footprint rs (some (p, n)) s { s with mem := s.mem.copyForward p src n } :=
  ⟨RegsKept.refl rs s, Or.inr ⟨p, n, rfl, hin, Or.inr ⟨src, rfl⟩⟩⟩

theorem footprint_raise (rs : List RegId) (range : Option (Nat × Nat)) (s : State) (c : FaultCode) :
    Footprint rs range s (s.raise c) := (Footprint.refl rs range s).raise c

theorem footprint_setReg {r : RegId} (hr : r ∈ rs) (v : Word) : Footprint rs range s (s.setReg r v) :=
  (Footprint.refl rs range s).setReg hr v

end Footprint

/-! ### What goes on behind an access may use that its bytes exist -/

section Inside
variable {P : State → Prop} {s : State} {k : Result}

theorem EveryNext.accessInside {p n : Nat} (hk : s.inArena p n → EveryNext P k) : EveryNext P (s.access p n k) := by
  intro t h
  obtain ⟨hin, hnext⟩ := State.access_next h
  exact hk hin t hnext

theorem EveryNext.withDataInside {p n : Nat} (hf : ∀ c, P (s.raise c)) (hk : s.inArena p n → EveryNext P k) :
    EveryNext P (s.withData p n k) := .gated hf (.accessInside hk)

theorem EveryNext.pushInside {w : Nat} {v : Word} {f : State → Result} (hf : ∀ c, P (s.raise c))
    (hk : s.inArena (s.reg s.crmap.st).toNat w → EveryNext P (f (s.pushed w v))) : EveryNext P (s.push w v f) :=
  .gated hf (.accessInside hk)

end Inside

/-! ### The footprint of each shape of instruction -/

section Shapes
variable {rs : List RegId} {range : Option (Nat × Nat)}

theorem footprint_result (s : State) (d : RegId) (v : Word) : EveryNext (Footprint [d] range s) (s.result d v) :=
  .result (footprint_setReg (.head _) v)

theorem footprint_setTwo (s : State) (x y : RegId) (v w : Word) :
    Footprint [x, y] range s ((s.setReg x v).setReg y w) :=
  (footprint_setReg (.head _) v).setReg (.tail _ (.head _)) w

theorem footprint_divide (s : State) (q r : RegId) (y quo rem : Word) :
    EveryNext (Footprint [q, r] range s) (s.divide q r y quo rem) :=
  .divide (footprint_raise _ _ s) (footprint_setTwo s q r quo rem)

theorem footprint_loadReg (s : State) (w : Nat) (d a : RegId) : EveryNext (Footprint [d] range s) (s.loadReg w d a) :=
  .withData (footprint_raise _ _ s) (footprint_result s d _)

theorem footprint_scan (s : State) (w : Nat) (d a n v : RegId) :
    EveryNext (Footprint [d] range s) (s.scan w d a n v) :=
  .withData (footprint_raise _ _ s) (footprint_result s d _)

theorem footprint_storeReg (s : State) (w : Nat) (a v : RegId) :
    EveryNext (Footprint rs (some (s.regNat a, w)) s) (s.storeReg w a v) :=
  .withDataInside (footprint_raise _ _ s) fun hin => .next (footprint_store hin _)

theorem footprint_exchange (s : State) (w : Nat) (x a : RegId) :
    EveryNext (Footprint [x] (some (s.regNat a, w)) s) (s.exchange w x a) :=
  .withDataInside (footprint_raise _ _ s) fun hin => .next ((footprint_store hin _).setReg (.head _) _)

theorem footprint_pushed {s : State} {w : Nat} (hin : s.inArena (s.reg s.crmap.st).toNat w) (hst : s.crmap.st ∈ rs)
    (v : Word) : Footprint rs (some ((s.reg s.crmap.st).toNat, w)) s (s.pushed w v) :=
  (footprint_store hin _).setReg hst _

theorem footprint_pushReg (s : State) (w : Nat) (r : RegId) :
    EveryNext (Footprint [s.crmap.st] (some ((s.reg s.crmap.st).toNat, w)) s) (s.pushReg w r) :=
  .pushInside (footprint_raise _ _ s) fun hin => .next (footprint_pushed hin (.head _) _)

theorem footprint_call (t : RegId) (s : State) :
    EveryNext (Footprint [s.crmap.st, s.crmap.ip] (some ((s.reg s.crmap.st).toNat, 8)) s) (exec (.call t) s) := by
  rw [exec_call]
  exact .pushInside (footprint_raise _ _ s) fun hin =>
    .next ((footprint_pushed hin (.head _) _).jump (.tail _ (.head _)) _)

/-- A pop lowers `ST` also where its gate fails (R269). -/
theorem footprint_pop {s : State} {w : Nat} {f : State → Word → Result} (hst : s.crmap.st ∈ rs)
    (hk : ∀ v, EveryNext (Footprint rs range s) (f (s.lowered w) v)) : EveryNext (Footprint rs range s) (s.pop w f) :=
  .pop (fun c => (footprint_setReg hst _).raise c) hk

theorem footprint_popReg (s : State) (w : Nat) (d : RegId) :
    EveryNext (Footprint [s.crmap.st, d] range s) (s.popReg w d) :=
  footprint_pop (.head _) fun v => .result (footprint_setTwo s _ d _ v)

theorem footprint_execRet (s : State) : EveryNext (Footprint [s.crmap.st, s.crmap.ip] range s) (execRet s) :=
  footprint_pop (.head _) fun v => .next (footprint_setTwo s _ _ _ v)

theorem footprint_execLoop (c t : RegId) (s : State) : EveryNext (Footprint [c, s.crmap.ip] range s) (execLoop c t s) :=
  .next ((footprint_setReg (.head _) _).jumpIf (.tail _ (.head _)) _ _)

theorem footprint_execData (d : RegId) (len : Word) (s : State) :
    EveryNext (Footprint [s.crmap.ip, d] range s) (execData d len s) := by
  unfold execData
  split
  case h_1 => exact .next (footprint_raise _ _ s .b5)
  case h_2 addr s' hadv =>
    obtain ⟨-, -, rfl⟩ := State.advanceIp_some.mp hadv
    exact .result (footprint_setTwo s _ d _ addr)

theorem footprint_execMovs (d a n : RegId) (s : State) :
    EveryNext (Footprint rs (some (s.regNat d, s.regNat n)) s) (execMovs d a n s) :=
  .gated (footprint_raise _ _ s) (.gated (footprint_raise _ _ s)
    (.access (.accessInside fun hin => .next (footprint_copyForward hin _))))

theorem footprint_execCmps (d a b n : RegId) (s : State) :
    EveryNext (Footprint [d] range s) (execCmps d a b n s) :=
  .gated (footprint_raise _ _ s) (.gated (footprint_raise _ _ s) (.access (.access (footprint_result s d _))))

theorem footprint_execFopen (d pa pl ma ml : RegId) (s : State) :
    EveryNext (Footprint [s.crmap.er, d] range s) (execFopen d pa pl ma ml s) :=
  .gated (footprint_raise _ _ s) (.gated (footprint_raise _ _ s) (.access (.access
    (.next ((((Footprint.refl _ range s).logHost _).setReg (.head _) _).setReg (.tail _ (.head _)) _)))))

/-- The bytes a FIN delivers are at most its request, so they exist where either of its two tests passes (log 10). -/
theorem State.inArena_hostRead {s : State} {p max : Nat} {h : Word}
    (hin : s.inArena p max ∨ s.inArena p (s.hostRead h max).length) : s.inArena p (s.hostRead h max).length := by
  have := s.length_hostRead_le h max
  omega

theorem footprint_execFin (d h b l o c : RegId) (s : State) :
    EveryNext (Footprint [d] (storedRange s (.fin d h b l o c)) s) (execFin d h b l o c s) := by
  refine .gated (footprint_raise _ _ s) ?_
  split
  · exact .refused _
  · dsimp only
    split
    case isTrue hin =>
      exact .next ((((Footprint.refl _ none s).logHost _).storeBytes (State.inArena_hostRead hin)).setReg (.head _) _)
    case isFalse => exact .refused _

theorem footprint_execFout (d h b l o c : RegId) (s : State) :
    EveryNext (Footprint [d] range s) (execFout d h b l o c s) := by
  refine .gated (footprint_raise _ _ s) ?_
  split
  · exact footprint_result s d _
  · exact .access (.result (((Footprint.refl _ range s).logHost _).setReg (.head _) _))

end Shapes

/-! ### The footprint of every instruction, and what follows from it -/

/-- Every instruction writes at most the registers its rule names and the bytes of its stored range. -/
theorem exec_footprint (i : Instr) (s : State) :
    EveryNext (Footprint (dests s.crmap i) (storedRange s i) s) (exec i s) := by
  cases i with
  | nop => exact .next (.refl _ _ s)
  | exit => exact .next (Footprint.refl _ _ s).halt
  | htl => exact .next (Footprint.refl _ _ s).park
  | goto t => exact .next ((Footprint.refl _ _ s).jump (.head _) _)
  | ifGo c t | ifNG c t => exact .next ((Footprint.refl _ _ s).jumpIf (.head _) _ _)
  | loop c t => exact footprint_execLoop c t s
  | call t => exact footprint_call t s
  | ret => exact footprint_execRet s
  | data d len => exact footprint_execData d len s
  | div q r | iDiv q r => exact footprint_divide s q r _ _ _
  | svIp d | add d | sub d | mul d | inc d | dec d | iMul d | iThan d | iLess d | iMore d | iLMov d | iRMov d | than d
  | less d | more d | not d | and d | or d | xor d | lMov d | rMov d | rol d | ror d | complement d | toBool d
  | mov1 d | mov2 d | mov4 d | mov8 d | set1 d | set2 d | set4 d | set8 d | lea d | bcdT d | bcdF d | signT d =>
    exact footprint_result s d _
  | get1 | get2 | get4 | get8 => exact footprint_loadReg s _ _ _
  | wrt1 | wrt2 | wrt4 | wrt8 => exact footprint_storeReg s _ _ _
  | psh1 | psh2 | psh4 | psh8 => exact footprint_pushReg s _ _
  | pop1 | pop2 | pop4 | pop8 => exact footprint_popReg s _ _
  | xchg1 | xchg2 | xchg4 | xchg8 => exact footprint_exchange s _ _ _
  | scas1 | scas2 | scas4 | scas8 => exact footprint_scan s _ _ _ _ _
  | swap x y | signF x y => exact .next (footprint_setTwo s x y _ _)
  | movs d a n => exact footprint_execMovs d a n s
  | cmps d a b n => exact footprint_execCmps d a b n s
  | fopen d pa pl ma ml => exact footprint_execFopen d pa pl ma ml s
  | fin d h b l o c => exact footprint_execFin d h b l o c s
  | fout d h b l o c => exact footprint_execFout d h b l o c s

/-- Settles O21: the register half of `exec_footprint`. -/
theorem onlyDestinationRegistersChange : Obligations.OnlyDestinationRegistersChange :=
  fun i s t h => (exec_footprint i s t h).1

/-- Settles O22: the arena half of `exec_footprint`. -/
theorem onlyStoredBytesChange : Obligations.OnlyStoredBytesChange := by
  intro i s t h
  obtain ⟨-, hmem⟩ := exec_footprint i s t h
  refine ⟨fun p n hrange a ha => ?_, fun hrange a => ?_⟩
  · rw [hrange] at hmem
    exact hmem.read_outside ha
  · rw [hrange] at hmem
    rw [hmem.of_none]

theorem exec_inv {i : Instr} {s t : State} (hs : s.Inv) (h : exec i s = .next t) : t.Inv := by
  obtain ⟨hwf, hbelow, hlt⟩ := hs
  obtain ⟨-, hmem⟩ := exec_footprint i s t h
  obtain ⟨-, -, hnphys, -⟩ := exec_launchKept i s t h
  rw [State.Inv, hnphys]
  exact ⟨hmem.wf hwf, hmem.below hbelow, hlt⟩

/-- Settles O20: the halt, the fetch and its faults leave the arena alone; an instruction stores inside it. -/
theorem everyStepKeepsTheInvariant : Obligations.EveryStepKeepsTheInvariant := by
  intro s t hs h
  obtain ⟨-, ⟨-, rfl⟩ | ⟨-, ip, c, -, rfl⟩ | ⟨-, i, ip, -, hexec⟩⟩ := step_next h
  · exact hs
  · exact hs
  · exact exec_inv (s := s.setReg s.crmap.ip ip) hs hexec

end Sys2Proof.Machine
end

section
/-! PROOF of O1, O10, O17, O18 (10_state.md R21, R40, R46): a register write, the step that fetches nothing, and the reset
state of every launch. -/

namespace Sys2Proof.Machine

/-- Settles O1. -/
theorem registerWriteReplacesOneSlot : Obligations.RegisterWriteReplacesOneSlot := fun s r v =>
  ⟨s.reg_setReg_same r v, fun _ hq => s.reg_setReg_ne v hq, fun _ => rfl, RestKept.refl s⟩

/-! ### The step that fetches nothing -/

theorem runningStep_of_al_le_ip {s : State} (h : s.al ≤ s.ip) : s.runningStep = .next s.halt :=
  if_neg (Nat.not_lt.mpr h)

/-- With `IP` at the last byte below `AL` the gate already refuses the opcode byte (R104). -/
theorem fetchInstr_of_lastByte {s : State} (h : s.ip + 1 = s.al) : s.fetchInstr = .stopped (.next (s.raise .b5)) := by
  rcases s.fetchField_cases 1 with ⟨-, hfetch⟩ | ⟨hlt, -⟩ | ⟨hlt, -⟩
  · simp only [State.fetchInstr, hfetch]
  · omega
  · omega

theorem runningStep_of_lastByte {s : State} (h : s.ip + 1 = s.al) : s.runningStep = .next (s.raise .b5) := by
  have hlt : s.ip < s.al := by omega
  simp only [State.runningStep, if_pos hlt, fetchInstr_of_lastByte h]

/-- Settles O10. -/
theorem stepWhereNothingIsFetched : Obligations.StepWhereNothingIsFetched := by
  refine ⟨fun s hs => step_of_terminal hs, fun s hs => ?_⟩
  rw [step_of_running hs]
  exact ⟨runningStep_of_al_le_ip, runningStep_of_lastByte⟩

/-! ### The register file at reset -/

/-- The register file at reset as the Loader writes it, slot by slot: the last write of a slot is its contents (R46). -/
theorem boot_reg (l : Launch) (q : RegId) :
    (State.boot l).reg q =
      if q = l.crmap.ex then 0#64
      else if q = l.crmap.er then 0#64
      else if q = l.crmap.st then BitVec.ofNat 64 l.stackBase
      else if q = l.crmap.sb then BitVec.ofNat 64 l.stackBase
      else if q = l.crmap.ip then BitVec.ofNat 64 Config.preSize
      else if q = l.crmap.ss then BitVec.ofNat 64 l.stackBase
      else if q = l.crmap.ds then BitVec.ofNat 64 l.dataBase
      else if q = l.crmap.cs then BitVec.ofNat 64 Config.preSize
      else if q = l.crmap.al then BitVec.ofNat 64 l.nphys
      else if q = l.crmap.ab then 0#64
      else l.gpr[q.toNat]'q.isLt := by
  simp only [State.reg, State.boot, Launch.resetRegs, getElem_setSlot]

/-- Since no two control registers share a slot, no later write of the Loader covers an earlier one (R24). -/
theorem boot_reg_control (l : Launch) :
    let cr := l.crmap
    let s := State.boot l
    s.reg cr.ab = 0#64 ∧ s.reg cr.al = BitVec.ofNat 64 l.nphys ∧ s.reg cr.cs = BitVec.ofNat 64 Config.preSize ∧
      s.reg cr.ds = BitVec.ofNat 64 l.dataBase ∧ s.reg cr.ss = BitVec.ofNat 64 l.stackBase ∧
      s.reg cr.ip = BitVec.ofNat 64 Config.preSize ∧ s.reg cr.sb = BitVec.ofNat 64 l.stackBase ∧
      s.reg cr.st = BitVec.ofNat 64 l.stackBase ∧ s.reg cr.er = 0#64 ∧ s.reg cr.ex = 0#64 := by
  have hdistinct := l.crmap.nodup
  simp only [List.nodup_cons, List.mem_cons, not_or] at hdistinct
  simp [boot_reg, hdistinct]

theorem boot_reg_drawn (l : Launch) {r : RegId}
    (hr : r ∉ [l.crmap.ab, l.crmap.al, l.crmap.cs, l.crmap.ds, l.crmap.ss, l.crmap.ip, l.crmap.sb, l.crmap.st, l.crmap.er,
      l.crmap.ex]) : (State.boot l).reg r = l.gpr[r.toNat]'r.isLt := by
  simp only [List.mem_cons, List.not_mem_nil, or_false, not_or] at hr
  simp [boot_reg, hr]

/-! ### The arena at reset -/

theorem boot_mem (l : Launch) :
    (State.boot l).mem = Memory.writeBytes (Memory.writeBytes [] 16 l.program) l.stackBase l.stackFill := rfl

theorem Launch.dataBase_eq (l : Launch) : l.dataBase = 16 + l.program.length := rfl

theorem Launch.stackBase_eq (l : Launch) : l.stackBase = 16 + l.program.length + l.dataSize := rfl

theorem Launch.nphys_eq (l : Launch) : l.nphys = 16 + l.program.length + l.dataSize + l.stackSize := rfl

theorem Launch.fits_iff (l : Launch) : l.fits = true ↔ l.nphys < 2 ^ 64 ∧ l.stackFill.length ≤ l.stackSize := by
  simp only [Launch.fits, Bool.and_eq_true, decide_eq_true_eq]

/-- Every address up to the arena's end is read back from its word (R293). -/
theorem Launch.toNat_word {l : Launch} (h : l.fits = true) {n : Nat} (hn : n ≤ l.nphys) : (BitVec.ofNat 64 n).toNat = n := by
  obtain ⟨hlt, -⟩ := l.fits_iff.mp h
  rw [BitVec.toNat_ofNat, Nat.mod_eq_of_lt (by omega)]

/-- The Pre and Data segments are zero: the program and the Stack bytes lie outside them (R42). -/
theorem boot_read_zero (l : Launch) {a : Nat} (h : a < 16 ∨ 16 + l.program.length ≤ a)
    (hstack : a < 16 + l.program.length + l.dataSize) : (State.boot l).mem.read a = 0#8 := by
  rw [boot_mem, Memory.read_writeBytes_outside _ _ _ _ (Or.inl (by rwa [l.stackBase_eq])),
    Memory.read_writeBytes_outside _ _ _ _ h]
  rfl

theorem boot_read_program (l : Launch) {k : Nat} (hk : k < l.program.length) :
    (State.boot l).mem.read (16 + k) = l.program[k] := by
  rw [boot_mem, Memory.read_writeBytes_outside _ _ _ _ (Or.inl (by rw [l.stackBase_eq]; omega)),
    Memory.read_writeBytes_inside _ _ _ _ hk]

theorem boot_read_stack (l : Launch) {k : Nat} (hk : k < l.stackFill.length) :
    (State.boot l).mem.read (16 + l.program.length + l.dataSize + k) = l.stackFill[k] :=
  Memory.read_writeBytes_inside _ _ _ _ hk

/-- Settles O17: registers by `boot_reg`, bytes by where each write of the Loader lies. -/
theorem resetStateIsTheTable : Obligations.ResetStateIsTheTable := by
  intro l hfits
  dsimp only
  refine ⟨?_, fun r => boot_reg_drawn l, fun a ha => boot_read_zero l (Or.inl ha) (by omega), fun k => boot_read_program l,
    fun k hk => boot_read_zero l (Or.inr (by omega)) (by omega), fun k => boot_read_stack l, rfl, rfl, rfl, rfl⟩
  obtain ⟨hab, hal, hcs, hds, hss, hip, hsb, hst, her, hex⟩ := boot_reg_control l
  have data : (BitVec.ofNat 64 l.dataBase).toNat = l.dataBase :=
    Launch.toNat_word hfits (by rw [l.dataBase_eq, l.nphys_eq]; omega)
  have stack : (BitVec.ofNat 64 l.stackBase).toNat = l.stackBase :=
    Launch.toNat_word hfits (by rw [l.stackBase_eq, l.nphys_eq]; omega)
  rw [hab, hal, hcs, hds, hss, hip, hsb, hst]
  exact ⟨rfl, Launch.toNat_word hfits le_rfl, rfl, data, stack, rfl, stack, stack, her, hex⟩

/-! ### The invariant at reset -/

theorem boot_inv {l : Launch} (h : l.fits = true) : (State.boot l).Inv := by
  obtain ⟨hlt, hfill⟩ := l.fits_iff.mp h
  have hprogram : 16 + l.program.length ≤ l.nphys := by rw [l.nphys_eq]; omega
  have hstack : l.stackBase + l.stackFill.length ≤ l.nphys := by rw [l.stackBase_eq, l.nphys_eq]; omega
  exact ⟨Memory.wf_writeBytes _ _ (Memory.wf_writeBytes _ _ rfl),
    Memory.below_writeBytes (Memory.below_writeBytes rfl (Or.inr hprogram)) (Or.inr hstack), hlt⟩

/-- At reset `AL` is the arena's size (R46). -/
theorem boot_gatesInsideArena (l : Launch) : GatesInsideArena (State.boot l) := by
  obtain ⟨-, hal, -⟩ := boot_reg_control l
  calc (State.boot l).al = l.nphys % 2 ^ 64 := (congrArg BitVec.toNat hal).trans (BitVec.toNat_ofNat ..)
    _ ≤ l.nphys := Nat.mod_le ..

/-- Settles O18: `State.reset` is the reset state of the empty image. -/
theorem resetSatisfiesTheInvariant : Obligations.ResetSatisfiesTheInvariant :=
  have hempty : Launch.empty.fits = true := rfl
  ⟨fun l h => ⟨boot_inv h, boot_gatesInsideArena l⟩, boot_inv hempty, boot_gatesInsideArena Launch.empty⟩

end Sys2Proof.Machine
end

section
/-! PROOF of O2, O3, O4, O6, O7, O8 (20_memory.md R62 to R72): what loads and stores read and change, and what each gate
answers. -/

namespace Sys2Proof.Machine

/-! ### A load is a sum of bytes -/

/-- The first byte of a load is its most significant one (R63). -/
theorem State.load_succ (s : State) (p n : Nat) :
    s.load p (n + 1) = (s.mem.read p).toNat * 2 ^ (8 * n) + s.load (p + 1) n := by
  rw [← pow256_eq]
  simp [State.load, Memory.readBytes]

theorem State.load_eq_sum (s : State) (p n : Nat) :
    s.load p n = ∑ i ∈ Finset.range n, (s.mem.read (p + i)).toNat * 2 ^ (8 * (n - 1 - i)) := by
  induction n generalizing p with
  | zero => rfl
  | succ n ih =>
    have tail : ∀ i, (s.mem.read (p + 1 + i)).toNat * 2 ^ (8 * (n - 1 - i)) =
        (s.mem.read (p + (i + 1))).toNat * 2 ^ (8 * (n + 1 - 1 - (i + 1))) := fun i => by
      rw [show p + 1 + i = p + (i + 1) by omega, show n + 1 - 1 - (i + 1) = n - 1 - i by omega]
    rw [State.load_succ, ih, Finset.sum_congr rfl fun i _ => tail i, Finset.sum_range_succ', Nat.add_comm]
    rfl

/-- Settles O2: a load is its first byte above the load of the rest. -/
theorem loadIsBigEndianSum : Obligations.LoadIsBigEndianSum := fun s p n =>
  ⟨s.load_eq_sum p n, pow256_eq n ▸ s.load_lt p n⟩

/-! ### What is read inside a stored value -/

theorem State.read_store_inside (s : State) (p v : Nat) {n i : Nat} (h : i < n) :
    (s.store p n v).mem.read (p + i) = BitVec.ofNat 8 (v / 256 ^ (n - 1 - i)) := by
  rw [State.store_mem, Memory.read_writeBytes_inside _ _ _ _ (by rwa [length_beBytes]), getElem_beBytes]

/-- The bytes inside a stored value are those of its quotient by what lies behind them (R66). -/
theorem State.readBytes_store_inside (s : State) (p v : Nat) {n k m : Nat} (h : k + m ≤ n) :
    (s.store p n v).mem.readBytes (p + k) m = beBytes m (v / 256 ^ (n - k - m)) := by
  apply List.ext_getElem
  · rw [Memory.length_readBytes, length_beBytes]
  · intro i hi _
    rw [Memory.length_readBytes] at hi
    rw [Memory.getElem_readBytes, getElem_beBytes, Nat.add_assoc, s.read_store_inside p v (by omega), Nat.div_div_eq_div_mul,
      ← pow_add, show n - k - m + (m - 1 - i) = n - 1 - (k + i) by omega]

theorem State.load_store_inside (s : State) (p v : Nat) {n k m : Nat} (h : k + m ≤ n) :
    (s.store p n v).load (p + k) m = v / 256 ^ (n - k - m) % 256 ^ m := by
  rw [State.load, s.readBytes_store_inside p v h, beNat_beBytes]

/-- Settles O3: both readings are of the written big-endian bytes. -/
theorem storeWritesBigEndianBytes : Obligations.StoreWritesBigEndianBytes := by
  refine fun s p n v => ⟨fun i hi => ?_, StoresOnly.store [] s p n v, fun k m h => ?_⟩
  · rw [s.read_store_inside p v hi, BitVec.toNat_ofNat, pow256_eq]
  · rw [s.load_store_inside p v h, pow256_eq, pow256_eq]

/-- Settles O4. -/
theorem storeThenLoadRoundTrips : Obligations.StoreThenLoadRoundTrips := fun s p w v =>
  pow256_eq w.bytes ▸ s.load_store_same p w.bytes v

/-! ### The gates -/

theorem State.gated_checkData {s : State} {p n : Nat} (k : Result) (h : p + n < s.al) :
    s.gated (s.checkData p n) k = k := by
  rw [State.checkData_none.mpr h, State.gated_none]

/-- The state after a field of `n` bytes passed the gate. -/
abbrev State.advanced (s : State) (n : Nat) : State := s.setReg s.crmap.ip (BitVec.ofNat 64 (s.ip + n))

theorem State.ip_advanced {s : State} {n : Nat} (h : s.ip + n < s.al) : (s.advanced n).ip = s.ip + n :=
  s.ip_setReg_IP (h.trans s.al_lt)

/-- Settles O6. -/
theorem instructionPointerGate : Obligations.InstructionPointerGate := by
  refine fun s n => ⟨fun h => ?_, fun h => ?_⟩
  · have hip := State.ip_advanced h
    exact ⟨s.advanced n, State.advanceIp_some.mpr ⟨h, rfl, rfl⟩, hip, by rwa [hip, State.al_setReg_IP],
      WritesOnly.setReg s _ _⟩
  · have hgate := State.advanceIp_none.mpr h
    exact ⟨hgate, by rw [State.fetchField, hgate]⟩

section StackGate
variable {s : State} {p : Nat}

theorem State.checkStack_b2 (n : Nat) (h : p < (s.reg s.crmap.ss).toNat) : s.checkStack p n = some .b2 := if_pos h

theorem State.checkStack_b3 (n : Nat) (hss : (s.reg s.crmap.ss).toNat ≤ p) (h : p < (s.reg s.crmap.sb).toNat) :
    s.checkStack p n = some .b3 := by
  rw [State.checkStack, if_neg (Nat.not_lt.mpr hss), if_pos h]

theorem State.checkStack_b4 {n : Nat} (hss : (s.reg s.crmap.ss).toNat ≤ p) (hsb : (s.reg s.crmap.sb).toNat ≤ p)
    (h : s.al ≤ p + n) : s.checkStack p n = some .b4 := by
  rw [State.checkStack, if_neg (Nat.not_lt.mpr hss), if_neg (Nat.not_lt.mpr hsb), if_pos h]

end StackGate

/-- Settles O7. -/
theorem stackGateTestsInOrder : Obligations.StackGateTestsInOrder := fun _ _ n =>
  ⟨State.checkStack_b2 n, State.checkStack_b3 n, State.checkStack_b4,
    fun hss hsb h => State.checkStack_none.mpr ⟨hss, hsb, h⟩⟩

/-- Settles O8. -/
theorem dataGateAndSafeAddressGate : Obligations.DataGateAndSafeAddressGate := fun _ =>
  ⟨fun _ _ h => State.checkData_some.mpr ⟨rfl, h⟩, fun _ _ h => State.checkData_none.mpr h, fun _ h => if_pos h,
    fun _ h => if_neg (Nat.not_le.mpr h)⟩

end Sys2Proof.Machine
end

section
/-! PROOF of O59, O60 (49_host_io_data_misc.md R240 to R244): what FIN and FOUT do with a buffer that passed its gate. -/

namespace Sys2Proof.Machine

/-! ### A handle the host does not know (R244) -/

section UnknownHandle
variable {s : State} {h : Word}

theorem State.hostRead_unknown (hh : s.handleKnown h = false) (max : Nat) : s.hostRead h max = [] := by
  simp [State.hostRead, hh]

theorem State.hostWrite_unknown (hh : s.handleKnown h = false) (bytes : List Byte) : s.hostWrite h bytes = 0 := by
  simp [State.hostWrite, hh]

end UnknownHandle

/-! ### FIN -/

/-- What the host delivers to a FIN. -/
abbrev State.delivered (s : State) (h o c : RegId) : List Byte := s.hostRead (s.reg h) (s.regNat o * s.regNat c)

/-- The state after a FIN that stored what was delivered. -/
abbrev State.afterFin (s : State) (d h b o c : RegId) : State :=
  let bytes := s.delivered h o c
  ((s.logHost (.read (s.reg h) (s.regNat o * s.regNat c) bytes)).storeBytes (s.regNat b) bytes).setReg d
    (completeElements (s.regNat o) bytes.length)

section Fin
variable {s : State} {b l o c : RegId}

theorem exec_fin_overrun (d h : RegId) (hg : s.regNat b + s.regNat l < s.al) (hl : s.regNat l < s.regNat o * s.regNat c) :
    exec (.fin d h b l o c) s = .refused .finOverrun := by
  change s.gated (s.checkData (s.regNat b) (s.regNat l)) _ = _
  rw [State.gated_checkData _ hg, if_pos hl]

/-- The delivered bytes alone decide, since they are at most the requested ones (log 10). -/
theorem exec_fin_of_request_le (d h : RegId) (hg : s.regNat b + s.regNat l < s.al)
    (hl : s.regNat o * s.regNat c ≤ s.regNat l) :
    exec (.fin d h b l o c) s =
      if s.inArena (s.regNat b) (s.delivered h o c).length then .next (s.afterFin d h b o c)
      else .refused .outsidePhysicalArena := by
  change s.gated (s.checkData (s.regNat b) (s.regNat l)) _ = _
  rw [State.gated_checkData _ hg, if_neg (Nat.not_lt.mpr hl)]
  exact if_congr ⟨State.inArena_hostRead, Or.inr⟩ rfl rfl

end Fin

/-- Settles O59. -/
theorem finStoresWhatIsDelivered : Obligations.FinStoresWhatIsDelivered := by
  intro s d h b l o c total bytes hg
  refine ⟨fun hl hin => ⟨s.afterFin d h b o c, ?_, s.length_hostRead_le _ _, fun h3 hn => ?_, ?_, fun a ha => ?_,
    State.reg_setReg_same _ _ _, (RegsKept.refl [d] s).setReg (.head _) _, rfl, LaunchKept.refl s, rfl⟩, ?_⟩
  · exact (exec_fin_of_request_le d h hg hl).trans (if_pos hin)
  · exact State.hostRead_unknown (State.handleKnown_eq_false h3 hn) total
  · exact Memory.readBytes_writeBytes s.mem (s.regNat b) bytes
  · exact Memory.read_writeBytes_outside s.mem (s.regNat b) a bytes ha
  · exact exec_fin_overrun d h hg

/-! ### FOUT -/

/-- The bytes a FOUT gives the host. -/
abbrev State.given (s : State) (b o c : RegId) : List Byte := s.mem.readBytes (s.regNat b) (s.regNat o * s.regNat c)

/-- The state after a FOUT that gave the host its bytes. -/
abbrev State.afterFout (s : State) (d h b o c : RegId) : State :=
  let k := s.hostWrite (s.reg h) (s.given b o c)
  (s.logHost (.wrote (s.reg h) (s.given b o c) k)).setReg d (completeElements (s.regNat o) k)

section Fout
variable {s : State} {b l o c : RegId}

theorem exec_fout_overrun (d h : RegId) (hg : s.regNat b + s.regNat l < s.al)
    (hl : s.regNat l < s.regNat o * s.regNat c) : exec (.fout d h b l o c) s = s.result d 0#64 := by
  change s.gated (s.checkData (s.regNat b) (s.regNat l)) _ = _
  rw [State.gated_checkData _ hg, if_pos hl]

theorem exec_fout_of_request_le (d h : RegId) (hg : s.regNat b + s.regNat l < s.al)
    (hl : s.regNat o * s.regNat c ≤ s.regNat l) :
    exec (.fout d h b l o c) s =
      s.access (s.regNat b) (s.regNat o * s.regNat c) (.next (s.afterFout d h b o c)) := by
  change s.gated (s.checkData (s.regNat b) (s.regNat l)) _ = _
  rw [State.gated_checkData _ hg, if_neg (Nat.not_lt.mpr hl)]
  rfl

/-- The host takes at most the bytes it is given (R240). -/
theorem State.hostWrite_given_le (s : State) (h b o c : RegId) :
    s.hostWrite (s.reg h) (s.given b o c) ≤ s.regNat o * s.regNat c :=
  (s.hostWrite_le _ _).trans_eq (Memory.length_readBytes _ _ _)

end Fout

/-- Settles O60. -/
theorem foutCountsWhatIsTaken : Obligations.FoutCountsWhatIsTaken := by
  intro s d h b l o c total given k hg
  refine ⟨fun hl hin => ⟨s.afterFout d h b o c, ?_, s.hostWrite_given_le h b o c, fun h3 hn => ?_,
    State.reg_setReg_same _ _ _, (RegsKept.refl [d] s).setReg (.head _) _, fun _ => rfl, rfl, LaunchKept.refl s, rfl⟩,
    fun hl => ?_⟩
  · rw [exec_fout_of_request_le d h hg hl, State.access_of _ hin]
  · exact State.hostWrite_unknown (State.handleKnown_eq_false h3 hn) given
  · exact ComputesInto.of_result (exec_fout_overrun d h hg hl)

end Sys2Proof.Machine
end

section
/-! PROOF of O5, O25 (20_memory.md R68): which accesses and which fetched fields are refused, and that none is
while `AL` is at most `NPHYS`. -/

namespace Sys2Proof.Machine

/-! ### Bytes that pass a gate and that the arena does not have -/

section Absent
variable {s : State} {p n : Nat}

theorem State.withData_absent (k : Result) (hg : p + n < s.al) (h0 : n ≠ 0) (h : s.nphys < p + n) :
    s.withData p n k = .refused .outsidePhysicalArena := by
  rw [State.withData, State.gated_checkData _ hg, State.access_absent k h0 h]

theorem State.withStack_absent (k : Result) (hg : s.checkStack p n = none) (h0 : n ≠ 0) (h : s.nphys < p + n) :
    s.withStack p n k = .refused .outsidePhysicalArena := by
  rw [State.withStack, hg, State.gated_none, State.access_absent k h0 h]

theorem State.push_absent {v : Word} (k : State → Result) (hg : s.checkStack (s.reg s.crmap.st).toNat n = none)
    (h0 : n ≠ 0) (h : s.nphys < (s.reg s.crmap.st).toNat + n) : s.push n v k = .refused .outsidePhysicalArena :=
  State.withStack_absent _ hg h0 h

theorem State.pop_absent (k : State → Word → Result)
    (hg : s.checkStack (s.reg s.crmap.st - BitVec.ofNat 64 n).toNat n = none) (h0 : n ≠ 0)
    (h : s.nphys < (s.reg s.crmap.st - BitVec.ofNat 64 n).toNat + n) : s.pop n k = .refused .outsidePhysicalArena :=
  State.withStack_absent _ (by rwa [State.checkStack_setReg_ST]) h0 h

/-- The two-range forms gate both ranges before they touch either. -/
theorem State.twoRanges_absent {q m : Nat} (k : Result) (hp : p + n < s.al) (hq : q + m < s.al)
    (h : (n ≠ 0 ∧ s.nphys < p + n) ∨ (m ≠ 0 ∧ s.nphys < q + m)) :
    s.gated (s.checkData p n) (s.gated (s.checkData q m) (s.access p n (s.access q m k))) =
      .refused .outsidePhysicalArena := by
  rw [State.gated_checkData _ hp, State.gated_checkData _ hq]
  by_cases hin : s.inArena p n
  · obtain ⟨h0, habsent⟩ := h.resolve_left (by omega)
    rw [State.access_of _ hin, State.access_absent k h0 habsent]
  · exact if_neg hin

end Absent

/-! ### The instructions that touch one range, and those of the stack -/

theorem sized_absent (s : State) (w : Width) (d a : RegId) (hg : s.regNat a + w.bytes < s.al)
    (h : s.nphys < s.regNat a + w.bytes) :
    RefusesAbsentBytes (w.get d a) s ∧ RefusesAbsentBytes (w.wrt a d) s ∧ RefusesAbsentBytes (w.xchg d a) s := by
  have h0 : w.bytes ≠ 0 := w.bytes_pos.ne'
  simp only [RefusesAbsentBytes, exec_get, exec_wrt, exec_xchg]
  exact ⟨State.withData_absent _ hg h0 h, State.withData_absent _ hg h0 h, State.withData_absent _ hg h0 h⟩

theorem scas_absent (s : State) (w : Width) (d a n v : RegId) (hg : s.regNat a + s.regNat n * w.bytes < s.al)
    (hn : s.regNat n ≠ 0) (h : s.nphys < s.regNat a + s.regNat n * w.bytes) : RefusesAbsentBytes (w.scas d a n v) s :=
  (exec_scas w d a n v s).trans (State.withData_absent _ hg (Nat.mul_ne_zero hn w.bytes_pos.ne') h)

theorem psh_absent {s : State} {w : Width} (r : RegId) (hg : s.checkStack (s.reg s.crmap.st).toNat w.bytes = none)
    (h : s.nphys < (s.reg s.crmap.st).toNat + w.bytes) : RefusesAbsentBytes (w.psh r) s :=
  (exec_psh w r s).trans (State.push_absent _ hg w.bytes_pos.ne' h)

theorem pop_absent {s : State} {w : Width} (r : RegId)
    (hg : s.checkStack (s.reg s.crmap.st - BitVec.ofNat 64 w.bytes).toNat w.bytes = none)
    (h : s.nphys < (s.reg s.crmap.st - BitVec.ofNat 64 w.bytes).toNat + w.bytes) : RefusesAbsentBytes (w.pop r) s :=
  (exec_pop w r s).trans (State.pop_absent _ hg w.bytes_pos.ne' h)

theorem call_absent {s : State} (t : RegId) (hg : s.checkStack (s.reg s.crmap.st).toNat 8 = none)
    (h : s.nphys < (s.reg s.crmap.st).toNat + 8) : RefusesAbsentBytes (.call t) s :=
  (exec_call t s).trans (State.push_absent _ hg (by decide) h)

theorem ret_absent {s : State} (hg : s.checkStack (s.reg s.crmap.st - BitVec.ofNat 64 8).toNat 8 = none)
    (h : s.nphys < (s.reg s.crmap.st - BitVec.ofNat 64 8).toNat + 8) : RefusesAbsentBytes .ret s :=
  (exec_ret s).trans (State.pop_absent _ hg (by decide) h)

/-! ### The bytes exchanged with the host (log 10) -/

section HostRange
variable {s : State} {b l o c : RegId}

theorem fin_absent_iff (d h : RegId) (hg : s.regNat b + s.regNat l < s.al)
    (hl : s.regNat o * s.regNat c ≤ s.regNat l) :
    RefusesAbsentBytes (.fin d h b l o c) s ↔
      s.delivered h o c ≠ [] ∧ s.nphys < s.regNat b + (s.delivered h o c).length := by
  rw [RefusesAbsentBytes, exec_fin_of_request_le d h hg hl, ← List.length_pos_iff]
  split
  · simp only [reduceCtorEq, false_iff]
    omega
  · simp only [true_iff]
    omega

theorem fout_absent (d h : RegId) (hg : s.regNat b + s.regNat l < s.al) (hl : s.regNat o * s.regNat c ≤ s.regNat l)
    (h0 : s.regNat o * s.regNat c ≠ 0) (hn : s.nphys < s.regNat b + s.regNat o * s.regNat c) :
    RefusesAbsentBytes (.fout d h b l o c) s :=
  (exec_fout_of_request_le d h hg hl).trans (State.access_absent _ h0 hn)

end HostRange

/-! ### The fetch -/

section Fetch
variable {s : State} {w : Nat}

theorem State.fetchField_absent (hg : s.ip + w < s.al) (h0 : w ≠ 0) (h : s.nphys < s.ip + w) :
    s.fetchField w = .stopped (.refused .outsidePhysicalArena) := by
  rcases s.fetchField_cases w with ⟨hfail, -⟩ | ⟨-, hin, -⟩ | ⟨-, -, hfetch⟩
  · omega
  · omega
  · exact hfetch

/-- The fields before the absent one are fetched, so that `IP` reaches it. -/
theorem State.fetchFields_absent {ws : List Nat} (tail : List Nat) (hg : s.ip + ws.sum + w < s.al)
    (hin : s.ip + ws.sum ≤ s.nphys) (h : s.nphys < s.ip + ws.sum + w) :
    s.fetchFields (ws ++ w :: tail) = .stopped (.refused .outsidePhysicalArena) := by
  induction ws generalizing s with
  | nil =>
    rw [List.sum_nil, Nat.add_zero] at hg hin h
    rw [List.nil_append, State.fetchFields, State.fetchField_absent hg (by omega) h]
  | cons v ws ih =>
    rw [List.sum_cons, ← Nat.add_assoc] at hg hin h
    have hv : s.ip + v < s.al := by omega
    have hrest := ih (s := s.advanced v) (by rwa [State.ip_advanced hv, State.al_setReg_IP])
      (by rwa [State.ip_advanced hv]) (by rwa [State.ip_advanced hv])
    rw [List.cons_append, State.fetchFields, State.fetchField_of hv (Or.inr (by omega))]
    dsimp only
    rw [hrest]

theorem State.fetchInstr_opcode_absent (hg : s.ip + 1 < s.al) (h : s.nphys < s.ip + 1) :
    s.fetchInstr = .stopped (.refused .outsidePhysicalArena) := by
  rw [State.fetchInstr, State.fetchField_absent hg one_ne_zero h]

theorem State.fetchInstr_field_absent {f : Form} {ws tail : List Nat} (hf : formOf s.opmap (s.mem.read s.ip) = some f)
    (hws : f.widths = ws ++ w :: tail) (hg : s.ip + 1 + ws.sum + w < s.al) (hin : s.ip + 1 + ws.sum ≤ s.nphys)
    (h : s.nphys < s.ip + 1 + ws.sum + w) : s.fetchInstr = .stopped (.refused .outsidePhysicalArena) := by
  have h1 : s.ip + 1 < s.al := by omega
  have hfields := State.fetchFields_absent (s := s.advanced 1) tail (by rwa [State.ip_advanced h1, State.al_setReg_IP])
    (by rwa [State.ip_advanced h1]) (by rwa [State.ip_advanced h1])
  rw [State.fetchInstr, State.fetchField_of h1 (Or.inr (by omega))]
  simp only [State.load_one, BitVec.ofNat_toNat, BitVec.setWidth_eq, hf, hws, hfields]

theorem step_of_fetch_stopped {o : Result} (hs : s.status = .running) (hip : s.ip < s.al)
    (h : s.fetchInstr = .stopped o) : step s = o := by
  rw [step_of_running hs, State.runningStep, if_pos hip, h]

end Fetch

/-- Settles O5. -/
theorem accessOutsideTheArenaIsRefused : Obligations.AccessOutsideTheArenaIsRefused := by
  refine ⟨fun s w d a n v => ⟨sized_absent s w d a, scas_absent s w d a n v⟩,
    fun s w r => ⟨psh_absent r, call_absent r, pop_absent r, ret_absent⟩,
    fun s d a b n m => ⟨fun ha hb hn habsent => ?ranges, fun ha hb habsent => State.twoRanges_absent _ ha hb habsent⟩,
    ?host, fun s hs hg hn => ?opcode, fun s f ws w tail hs hf hws hg hin hn => ?field⟩
  case ranges =>
    have hboth : (s.regNat n ≠ 0 ∧ s.nphys < s.regNat a + s.regNat n) ∨
        (s.regNat n ≠ 0 ∧ s.nphys < s.regNat b + s.regNat n) := habsent.imp (⟨hn, ·⟩) (⟨hn, ·⟩)
    exact ⟨State.twoRanges_absent _ hb ha hboth.symm, State.twoRanges_absent _ ha hb hboth⟩
  case host =>
    intro s d h b l o c total bytes hg hl hn
    exact ⟨fin_absent_iff d h hg hl, fun h0 => fout_absent d h hg hl h0 hn⟩
  case opcode => exact step_of_fetch_stopped hs (by omega) (State.fetchInstr_opcode_absent hg hn)
  case field => exact step_of_fetch_stopped hs (by omega) (State.fetchInstr_field_absent hf hws hg hin hn)

/-! ### While only bytes the arena has pass a gate, no access is refused -/

section Inside
variable {s : State} {k : Result} {p n : Nat}

theorem State.inArena_mono {m : Nat} (hmn : m ≤ n) (h : s.inArena p n) : s.inArena p m := by omega

theorem NotRefused.next (s : State) : NotRefused (.next s) := nofun

theorem NotRefused.result (s : State) (d : RegId) (v : Word) : NotRefused (s.result d v) := nofun

theorem NotRefused.access (hin : s.inArena p n) (hk : NotRefused k) : NotRefused (s.access p n k) := by
  rwa [State.access_of k hin]

theorem NotRefused.gated {g : Option FaultCode} (hk : g = none → NotRefused k) : NotRefused (s.gated g k) := by
  intro r h
  obtain ⟨hg, hrefused⟩ := State.gated_refused h
  exact hk hg r hrefused

/-- The data gate passes only where the bytes exist. -/
theorem NotRefused.checkedData (hs : GatesInsideArena s) (hk : s.inArena p n → NotRefused k) :
    NotRefused (s.gated (s.checkData p n) k) :=
  .gated fun hg => hk (Or.inr ((State.checkData_none.mp hg).le.trans hs))

theorem NotRefused.withData (hs : GatesInsideArena s) (hk : NotRefused k) : NotRefused (s.withData p n k) :=
  .checkedData hs fun hin => .access hin hk

theorem NotRefused.withStack (hs : GatesInsideArena s) (hk : NotRefused k) : NotRefused (s.withStack p n k) :=
  .gated fun hg =>
    have ⟨_, _, hlt⟩ := State.checkStack_none.mp hg
    .access (Or.inr (hlt.le.trans hs)) hk

theorem NotRefused.push {w : Nat} {v : Word} {f : State → Result} (hs : GatesInsideArena s)
    (hk : NotRefused (f (s.pushed w v))) : NotRefused (s.push w v f) := .withStack hs hk

theorem GatesInsideArena.lowered (hs : GatesInsideArena s) (w : Nat) : GatesInsideArena (s.lowered w) := by
  rwa [GatesInsideArena, State.al_setReg_ST]

theorem GatesInsideArena.setReg_ip (hs : GatesInsideArena s) (v : Word) :
    GatesInsideArena (s.setReg s.crmap.ip v) := by
  rwa [GatesInsideArena, State.al_setReg_IP]

theorem NotRefused.pop {w : Nat} {f : State → Word → Result} (hs : GatesInsideArena s)
    (hk : ∀ v, NotRefused (f (s.lowered w) v)) : NotRefused (s.pop w f) := .withStack (hs.lowered w) (hk _)

theorem NotRefused.divide (q r : RegId) (y quo rem : Word) : NotRefused (s.divide q r y quo rem) := by
  unfold State.divide
  split
  · exact .next _
  · exact .next _

end Inside

section Instructions
variable {s : State}

theorem popReg_notRefused (hs : GatesInsideArena s) (w : Nat) (d : RegId) : NotRefused (s.popReg w d) :=
  .pop hs fun v => .result (s.lowered w) d v

theorem execData_notRefused (d : RegId) (len : Word) (s : State) : NotRefused (execData d len s) := by
  unfold execData
  split
  · exact .next _
  · exact .result _ _ _

theorem execMovs_notRefused (hs : GatesInsideArena s) (d a n : RegId) : NotRefused (execMovs d a n s) :=
  .checkedData hs fun hsrc => .checkedData hs fun hdst => .access hsrc (.access hdst (.next _))

theorem execCmps_notRefused (hs : GatesInsideArena s) (d a b n : RegId) : NotRefused (execCmps d a b n s) :=
  .checkedData hs fun ha => .checkedData hs fun hb => .access ha (.access hb (.result _ _ _))

theorem execFopen_notRefused (hs : GatesInsideArena s) (d pa pl ma ml : RegId) :
    NotRefused (execFopen d pa pl ma ml s) :=
  .checkedData hs fun hpath => .checkedData hs fun hmode => .access hpath (.access hmode (.next _))

/-- The bytes FOUT gives lie in the declared buffer. -/
theorem execFout_notRefused (hs : GatesInsideArena s) (d h b l o c : RegId) : NotRefused (execFout d h b l o c s) := by
  refine .checkedData hs fun hin => ?_
  split
  · exact .result _ _ _
  · exact .access (State.inArena_mono (Nat.le_of_not_lt ‹_›) hin) (.result _ _ _)

theorem exec_notRefused (hs : GatesInsideArena s) {i : Instr} (hi : ∀ d h b l o c, i ≠ .fin d h b l o c) :
    NotRefused (exec i s) := by
  cases i with
  | nop | exit | htl | goto | ifGo | ifNG | loop | swap | signF => exact .next _
  | call t =>
    rw [exec_call]
    exact .push hs (.next _)
  | ret =>
    rw [exec_ret]
    exact .pop hs fun _ => .next _
  | data d len => exact execData_notRefused d len s
  | div | iDiv => exact .divide _ _ _ _ _
  | svIp d | add d | sub d | mul d | inc d | dec d | iMul d | iThan d | iLess d | iMore d | iLMov d | iRMov d | than d
  | less d | more d | not d | and d | or d | xor d | lMov d | rMov d | rol d | ror d | complement d | toBool d
  | mov1 d | mov2 d | mov4 d | mov8 d | set1 d | set2 d | set4 d | set8 d | lea d | bcdT d | bcdF d | signT d =>
    exact .result s d _
  | get1 | get2 | get4 | get8 | scas1 | scas2 | scas4 | scas8 => exact .withData hs (.result _ _ _)
  | wrt1 | wrt2 | wrt4 | wrt8 | xchg1 | xchg2 | xchg4 | xchg8 => exact .withData hs (.next _)
  | psh1 | psh2 | psh4 | psh8 => exact .push hs (.next _)
  | pop1 | pop2 | pop4 | pop8 => exact popReg_notRefused hs _ _
  | movs d a n => exact execMovs_notRefused hs d a n
  | cmps d a b n => exact execCmps_notRefused hs d a b n
  | fopen d pa pl ma ml => exact execFopen_notRefused hs d pa pl ma ml
  | fout d h b l o c => exact execFout_notRefused hs d h b l o c
  | fin d h b l o c => exact absurd rfl (hi d h b l o c)

/-- The bytes the host delivers lie in the declared buffer, so a refused FIN is one that asked for more. -/
theorem exec_fin_refused (hs : GatesInsideArena s) {d h b l o c : RegId} {r : Refusal}
    (hr : exec (.fin d h b l o c) s = .refused r) : r = .finOverrun ∧ s.regNat l < s.regNat o * s.regNat c := by
  obtain ⟨hgate, -⟩ := State.gated_refused hr
  have hg := State.checkData_none.mp hgate
  rcases Nat.lt_or_ge (s.regNat l) (s.regNat o * s.regNat c) with hl | hl
  · rw [exec_fin_overrun d h hg hl] at hr
    exact ⟨(Host.Outcome.refused.inj hr).symm, hl⟩
  · have hlen := (s.length_hostRead_le (s.reg h) _).trans hl
    have hin : s.inArena (s.regNat b) (s.delivered h o c).length :=
      State.inArena_mono hlen (Or.inr (hg.le.trans hs))
    rw [exec_fin_of_request_le d h hg hl, if_pos hin] at hr
    cases hr

theorem exec_refused (hs : GatesInsideArena s) {i : Instr} {r : Refusal} (hr : exec i s = .refused r) :
    r = .finOverrun ∧ ∃ d h b l o c, i = .fin d h b l o c ∧ s.regNat l < s.regNat o * s.regNat c := by
  by_cases hi : ∃ d h b l o c, i = .fin d h b l o c
  · obtain ⟨d, h, b, l, o, c, rfl⟩ := hi
    obtain ⟨hover, hl⟩ := exec_fin_refused hs hr
    exact ⟨hover, d, h, b, l, o, c, rfl, hl⟩
  · push Not at hi
    exact absurd hr (exec_notRefused hs hi r)

end Instructions

/-- Settles O25: by `step_refused` the fetch met an absent byte, which `AL` at most `NPHYS` rules out, or the instruction was
refused. -/
theorem stepsInsideTheArenaAreNotRefused : Obligations.StepsInsideTheArenaAreNotRefused := by
  intro s r hs h
  obtain ⟨-, -, ⟨-, hlt⟩ | ⟨i, ip, hfetch, hexec⟩⟩ := step_refused h
  · exact absurd hs (Nat.not_le.mpr hlt)
  · obtain ⟨hr, d, hd, b, l, o, c, rfl, hl⟩ := exec_refused (hs.setReg_ip ip) hexec
    exact ⟨hr, d, hd, b, l, o, c, ip, hfetch, hl⟩

end Sys2Proof.Machine
end

section
/-! PROOF of O14, O15, O16 (30_encoding.md R90 to R100): each format of R92 as a relation between operand bytes and
instructions. The field reader reads exactly what the relation lays out, and every row of the table of R97 encodes by it. -/

namespace Sys2Proof

open Machine

/-! ### The layout of the formats -/

/-- The bytes after the opcode byte, and the instruction of this format that they stand for (R92, R94, R95). -/
inductive Form.Lays : Form → List Byte → Instr → Prop
  | z (i : Instr) : Lays (.z i) [] i
  | r1 (g : RegId → Instr) (a : RegId) : Lays (.r1 g) [a] (g a)
  | r2 (g : RegId → RegId → Instr) (a b : RegId) : Lays (.r2 g) [a, b] (g a b)
  | r3 (g : RegId → RegId → RegId → Instr) (a b c : RegId) : Lays (.r3 g) [a, b, c] (g a b c)
  | r4 (g : RegId → RegId → RegId → RegId → Instr) (a b c d : RegId) : Lays (.r4 g) [a, b, c, d] (g a b c d)
  | r5 (g : RegId → RegId → RegId → RegId → RegId → Instr) (a b c d e : RegId) :
      Lays (.r5 g) [a, b, c, d, e] (g a b c d e)
  | r6 (g : RegId → RegId → RegId → RegId → RegId → RegId → Instr) (a b c d e k : RegId) :
      Lays (.r6 g) [a, b, c, d, e, k] (g a b c d e k)
  | lit {w : Nat} (g : RegId → Word → Instr) (d : RegId) {v : Word} (hv : LiteralFits w v) :
      Lays (.lit w g) (d :: beBytes w v.toNat) (g d v)
  | block (g : RegId → Word → Instr) (d : RegId) (len : Word) :
      Lays (.block g) (d :: beBytes 8 len.toNat) (g d len)

/-! ### The field reader and the layout -/

/-- The reader takes any number of registers, one byte each (R91). -/
theorem takeFields_registers (rs rest : List Byte) :
    takeFields (List.replicate rs.length 1) (rs ++ rest) = some (rs.map BitVec.toNat, rest) := by
  induction rs with
  | nil => rfl
  | cons r rs ih =>
    rw [List.length_cons, List.replicate_succ, List.cons_append, takeFields_byte, ih]
    rfl

theorem takeFields_register_literal {w : Nat} (d : RegId) {v : Word} (hv : LiteralFits w v) (rest : List Byte) :
    takeFields [1, w] (d :: (beBytes w v.toNat ++ rest)) = some ([d.toNat, v.toNat], rest) := by
  rw [takeFields_byte, takeFields_literal, Nat.mod_eq_of_lt hv]
  rfl

/-- The reader reads what the format lays out, and leaves what follows it (R100). -/
theorem Form.Lays.read {f : Form} {bytes : List Byte} {i : Instr} (h : f.Lays bytes i) (rest : List Byte) :
    ∃ vs, takeFields f.widths (bytes ++ rest) = some (vs, rest) ∧ f.build vs = i := by
  cases h with
  | z i => exact ⟨[], rfl, rfl⟩
  | r1 g a => exact ⟨_, takeFields_registers [a] rest, by simp [build, regField]⟩
  | r2 g a b => exact ⟨_, takeFields_registers [a, b] rest, by simp [build, regField]⟩
  | r3 g a b c => exact ⟨_, takeFields_registers [a, b, c] rest, by simp [build, regField]⟩
  | r4 g a b c d => exact ⟨_, takeFields_registers [a, b, c, d] rest, by simp [build, regField]⟩
  | r5 g a b c d e => exact ⟨_, takeFields_registers [a, b, c, d, e] rest, by simp [build, regField]⟩
  | r6 g a b c d e k => exact ⟨_, takeFields_registers [a, b, c, d, e, k] rest, by simp [build, regField]⟩
  | lit g d hv => exact ⟨_, takeFields_register_literal d hv rest, by simp [build, regField, litField]⟩
  | block g d len => exact ⟨_, takeFields_register_literal d len.isLt rest, by simp [build, regField, litField]⟩

/-- What a first field takes is the written-out bytes of its value. -/
theorem takeFields_cons_some {w : Nat} {ws vs : List Nat} {bs rest : List Byte}
    (h : takeFields (w :: ws) bs = some (vs, rest)) :
    ∃ v us tail, v < 256 ^ w ∧ vs = v :: us ∧ bs = beBytes w v ++ tail ∧ takeFields ws tail = some (us, rest) := by
  rw [takeFields] at h
  split at h
  case isFalse => cases h
  case isTrue hw =>
    have hlen : (bs.take w).length = w := List.length_take_of_le hw
    split at h
    case h_2 => cases h
    case h_1 us rest' htail =>
      cases h
      have hlt := beNat_lt (bs.take w)
      have hbytes := beBytes_beNat (bs.take w)
      rw [hlen] at hlt hbytes
      exact ⟨_, us, bs.drop w, hlt, rfl, by rw [hbytes, List.take_append_drop], htail⟩

theorem takeFields_nil_some {vs : List Nat} {bs rest : List Byte} (h : takeFields [] bs = some (vs, rest)) :
    vs = [] ∧ bs = rest := by
  cases h
  exact ⟨rfl, rfl⟩

theorem takeFields_registers_some {n : Nat} {vs : List Nat} {bs rest : List Byte}
    (h : takeFields (List.replicate n 1) bs = some (vs, rest)) :
    ∃ rs : List RegId, rs.length = n ∧ vs = rs.map BitVec.toNat ∧ bs = rs ++ rest := by
  induction n generalizing vs bs with
  | zero =>
    obtain ⟨rfl, rfl⟩ := takeFields_nil_some h
    exact ⟨[], rfl, rfl, rfl⟩
  | succ n ih =>
    obtain ⟨v, us, tail, hv, rfl, rfl, htail⟩ := takeFields_cons_some h
    obtain ⟨rs, rfl, rfl, rfl⟩ := ih htail
    refine ⟨BitVec.ofNat 8 v :: rs, rfl, ?_, by simp [beBytes_succ]⟩
    rw [List.map_cons, BitVec.toNat_ofNat]
    exact congrArg (· :: _) (Nat.mod_eq_of_lt hv).symm

theorem takeFields_register_literal_some {w : Nat} {vs : List Nat} {bs rest : List Byte} (hw : w ≤ 8)
    (h : takeFields [1, w] bs = some (vs, rest)) :
    ∃ (d : RegId) (v : Word), LiteralFits w v ∧ vs = [d.toNat, v.toNat] ∧ bs = d :: beBytes w v.toNat ++ rest := by
  obtain ⟨d, us, tail, hd, rfl, rfl, hlit⟩ := takeFields_cons_some h
  obtain ⟨v, us, tail, hv, rfl, rfl, hnil⟩ := takeFields_cons_some hlit
  obtain ⟨rfl, rfl⟩ := takeFields_nil_some hnil
  have hword : (BitVec.ofNat 64 v).toNat = v :=
    (BitVec.toNat_ofNat v 64).trans (Nat.mod_eq_of_lt (hv.trans_le (Nat.pow_le_pow_right (by decide) hw)))
  refine ⟨BitVec.ofNat 8 d, BitVec.ofNat 64 v, by rwa [LiteralFits, hword], ?_, by simp [beBytes_succ, hword]⟩
  rw [hword, BitVec.toNat_ofNat]
  exact congrArg (· :: _) (Nat.mod_eq_of_lt hd).symm

/-- What the reader takes is laid out by the format, and no byte is dropped (R99, R100). -/
theorem Form.lays_of_read {f : Form} {vs : List Nat} {bs rest : List Byte} (hw : ∀ w ∈ f.widths, w ≤ 8)
    (h : takeFields f.widths bs = some (vs, rest)) :
    ∃ bytes, f.Lays bytes (f.build vs) ∧ bs = bytes ++ rest := by
  cases f with
  | z i =>
    obtain ⟨rfl, rfl⟩ := takeFields_nil_some h
    exact ⟨[], .z i, rfl⟩
  | r1 g =>
    obtain ⟨rs, hn, rfl, rfl⟩ := takeFields_registers_some (n := 1) h
    match rs, hn with
    | [a], _ => exact ⟨_, by simpa [build, regField] using .r1 g a, rfl⟩
  | r2 g =>
    obtain ⟨rs, hn, rfl, rfl⟩ := takeFields_registers_some (n := 2) h
    match rs, hn with
    | [a, b], _ => exact ⟨_, by simpa [build, regField] using .r2 g a b, rfl⟩
  | r3 g =>
    obtain ⟨rs, hn, rfl, rfl⟩ := takeFields_registers_some (n := 3) h
    match rs, hn with
    | [a, b, c], _ => exact ⟨_, by simpa [build, regField] using .r3 g a b c, rfl⟩
  | r4 g =>
    obtain ⟨rs, hn, rfl, rfl⟩ := takeFields_registers_some (n := 4) h
    match rs, hn with
    | [a, b, c, d], _ => exact ⟨_, by simpa [build, regField] using .r4 g a b c d, rfl⟩
  | r5 g =>
    obtain ⟨rs, hn, rfl, rfl⟩ := takeFields_registers_some (n := 5) h
    match rs, hn with
    | [a, b, c, d, e], _ => exact ⟨_, by simpa [build, regField] using .r5 g a b c d e, rfl⟩
  | r6 g =>
    obtain ⟨rs, hn, rfl, rfl⟩ := takeFields_registers_some (n := 6) h
    match rs, hn with
    | [a, b, c, d, e, k], _ => exact ⟨_, by simpa [build, regField] using .r6 g a b c d e k, rfl⟩
  | lit w g =>
    obtain ⟨d, v, hv, rfl, rfl⟩ := takeFields_register_literal_some (hw w (by simp [widths])) h
    exact ⟨_, by simpa [build, regField, litField] using .lit g d hv, rfl⟩
  | block g =>
    obtain ⟨d, v, -, rfl, rfl⟩ := takeFields_register_literal_some le_rfl h
    exact ⟨_, by simpa [build, regField, litField] using .block g d v, rfl⟩

/-! ### The rows of the table -/

/-- Each instruction of the row is well-formed and encodes as the row's byte before the layout of the row's format. -/
def RowEncodes (row : Byte × Form) : Prop :=
  ∀ (m : Opmap) (bytes : List Byte) (i : Instr), row.2.Lays bytes i → i.WF ∧ encode m i = m.codeOf row.1 :: bytes

/-- Row by row the encoder writes what the table says (R97). -/
theorem opcodeTable_encodes : ∀ row ∈ opcodeTable, RowEncodes row := by
  simp only [opcodeTable, opcodesLow, opcodesHigh, List.cons_append, List.nil_append, List.forall_mem_cons,
    List.not_mem_nil, false_imp_iff, implies_true, and_true]
  and_intros
  all_goals
    rintro m _ _ ⟨⟩
    exact ⟨by simp only [Instr.WF, Instr.wellFormed, decide_eq_true_eq, *], rfl⟩

/-- Each well-formed instruction stands in the table, with operand bytes laid out by its format. -/
theorem exists_form_of_wf {i : Instr} (h : i.WF) : ∃ f ∈ opcodeTable.map Prod.snd, ∃ bytes, f.Lays bytes i := by
  cases i with
  | nop | exit | ret | htl => exact ⟨_, by simp [opcodeTable, opcodesLow], _, .z _⟩
  | goto | svIp | call | inc | dec => exact ⟨_, by simp [opcodeTable, opcodesLow], _, .r1 _ _⟩
  | ifGo | ifNG | loop | not | complement | toBool => exact ⟨_, by simp [opcodeTable, opcodesLow], _, .r2 _ _ _⟩
  | add | sub | mul | iMul | iThan | iLess | iMore | iLMov | iRMov | than | less | more | and | or | xor | lMov | rMov | rol
  | ror => exact ⟨_, by simp [opcodeTable, opcodesLow], _, .r3 _ _ _ _⟩
  | div | iDiv => exact ⟨_, by simp [opcodeTable, opcodesLow], _, .r4 _ _ _ _ _⟩
  | data => exact ⟨_, by simp [opcodeTable, opcodesLow], _, .block _ _ _⟩
  | psh1 | psh2 | psh4 | psh8 | pop1 | pop2 | pop4 | pop8 =>
    exact ⟨_, by simp [opcodeTable, opcodesHigh], _, .r1 _ _⟩
  | mov1 | mov2 | mov4 | mov8 | get1 | get2 | get4 | get8 | wrt1 | wrt2 | wrt4 | wrt8 | xchg1 | xchg2 | xchg4 | xchg8 | swap
  | bcdT | bcdF => exact ⟨_, by simp [opcodeTable, opcodesHigh], _, .r2 _ _ _⟩
  | movs | signT | signF => exact ⟨_, by simp [opcodeTable, opcodesHigh], _, .r3 _ _ _ _⟩
  | lea | cmps | scas1 | scas2 | scas4 | scas8 => exact ⟨_, by simp [opcodeTable, opcodesHigh], _, .r4 _ _ _ _ _⟩
  | fopen => exact ⟨_, by simp [opcodeTable, opcodesHigh], _, .r5 _ _ _ _ _ _⟩
  | fin | fout => exact ⟨_, by simp [opcodeTable, opcodesHigh], _, .r6 _ _ _ _ _ _ _⟩
  | set1 d v => exact ⟨.lit 1 .set1, by simp [opcodeTable, opcodesHigh], _, .lit _ d (of_decide_eq_true h)⟩
  | set2 d v => exact ⟨.lit 2 .set2, by simp [opcodeTable, opcodesHigh], _, .lit _ d (of_decide_eq_true h)⟩
  | set4 d v => exact ⟨.lit 4 .set4, by simp [opcodeTable, opcodesHigh], _, .lit _ d (of_decide_eq_true h)⟩
  | set8 d v => exact ⟨.lit 8 .set8, by simp [opcodeTable, opcodesHigh], _, .lit _ d v.isLt⟩

/-- A row of the table is what its byte looks up, since no two rows share a byte. -/
theorem lookup_of_mem_opcodeTable {row : Byte × Form} (h : row ∈ opcodeTable) :
    opcodeTable.lookup row.1 = some row.2 := by
  obtain ⟨i, hi, rfl⟩ := List.getElem_of_mem h
  have hlookup := lookup_zip_getElem (ys := opcodeTable.map Prod.snd) Opmap.default.injective (i := i)
    (by rwa [Opmap.default.complete, ← length_opcodeTable]) (by rwa [List.length_map])
  rw [zip_opcodeTable, List.getElem_map] at hlookup
  rwa [← List.getElem_map Prod.fst]

/-- A literal is never wider than a word. -/
theorem opcodeTable_widths_le : ∀ row ∈ opcodeTable, ∀ w ∈ row.2.widths, w ≤ 8 := by decide

/-! ### Decoding a row's bytes, and what decodes is such bytes -/

theorem decode_of_lays {row : Byte × Form} (hrow : row ∈ opcodeTable) {bytes : List Byte} {i : Instr}
    (h : row.2.Lays bytes i) (m : Opmap) (rest : List Byte) :
    decode m (m.codeOf row.1 :: (bytes ++ rest)) = .ok (i, rest) := by
  obtain ⟨vs, hread, rfl⟩ := h.read rest
  rw [decode, formOf_codeOf m (lookup_of_mem_opcodeTable hrow)]
  dsimp only
  rw [hread]

/-- Everything a decoding that succeeds has found. -/
theorem decode_ok {m : Opmap} {i : Instr} {bs rest : List Byte} (h : decode m bs = .ok (i, rest)) :
    ∃ row ∈ opcodeTable, ∃ bytes, row.2.Lays bytes i ∧ bs = m.codeOf row.1 :: (bytes ++ rest) := by
  cases bs with
  | nil => cases h
  | cons op bs =>
    rw [decode] at h
    split at h
    case h_1 => cases h
    case h_2 f hform =>
      split at h
      case h_1 => cases h
      case h_2 vs rest' hread =>
        cases h
        obtain ⟨std, hrow, rfl⟩ := formOf_some hform
        obtain ⟨bytes, hlays, rfl⟩ := Form.lays_of_read (opcodeTable_widths_le _ hrow) hread
        exact ⟨_, hrow, bytes, hlays, rfl⟩

/-- Settles O14: a well-formed instruction is laid out by a row, and encodes to bytes that decode by that row. -/
theorem decodeOfEncodeIsTheInstruction : Obligations.DecodeOfEncodeIsTheInstruction := by
  intro m i rest h
  obtain ⟨f, hf, bytes, hlays⟩ := exists_form_of_wf h
  obtain ⟨row, hrow, rfl⟩ := List.mem_map.mp hf
  obtain ⟨-, hencode⟩ := opcodeTable_encodes row hrow m bytes i hlays
  rw [hencode, List.cons_append, decode_of_lays hrow hlays]

/-- Settles O15: what decodes is laid out by a row, and so encodes to the same bytes. -/
theorem encodeOfDecodeIsTheBytes : Obligations.EncodeOfDecodeIsTheBytes := by
  intro m i bs rest h
  obtain ⟨row, hrow, bytes, hlays, rfl⟩ := decode_ok h
  obtain ⟨hwf, hencode⟩ := opcodeTable_encodes row hrow m bytes i hlays
  exact ⟨hwf, by rw [hencode, List.cons_append]⟩

/-- Settles O16: on closed words the decoder computes. -/
theorem wordsOfTheSpecDecode : Obligations.WordsOfTheSpecDecode :=
  ⟨rfl, rfl, rfl, rfl, rfl, rfl, rfl, rfl, rfl, rfl, rfl, rfl, rfl, rfl, rfl⟩

end Sys2Proof
end

section
/-! PROOF of O11, O12, O13 (30_encoding.md R98, R101, R104): what a step does with bytes that decode, with an unknown opcode
byte, and with an instruction that `AL` cuts off. -/

namespace Sys2Proof.Machine

/-! ### An instruction's bytes are as many as its size -/

theorem length_encode (m : Opmap) (i : Instr) : (encode m i).length = i.size := by
  cases i with
  | data d len => exact Laws.EncodeLength.data d len m
  | set1 d lit => exact Laws.EncodeLength.set1 d lit m
  | set2 d lit => exact Laws.EncodeLength.set2 d lit m
  | set4 d lit => exact Laws.EncodeLength.set4 d lit m
  | set8 d lit => exact Laws.EncodeLength.set8 d lit m
  | _ => rfl

theorem length_eq_size_of_decode {m : Opmap} {i : Instr} {bs : List Byte} (h : decode m bs = .ok (i, [])) :
    bs.length = i.size := by
  obtain ⟨-, hbytes⟩ := encodeOfDecodeIsTheBytes m i bs [] h
  rw [← hbytes, List.append_nil, length_encode]

/-- Settles O13. -/
theorem stepRunsTheDecodedInstruction : Obligations.StepRunsTheDecodedInstruction := by
  intro s n i hs hd hg hin
  obtain ⟨hwf, -⟩ := encodeOfDecodeIsTheBytes _ _ _ _ hd
  have hsize : n = i.size := by rw [← length_eq_size_of_decode hd, Memory.length_readBytes]
  have hip : s.ip < s.al := by omega
  refine ⟨hwf, hsize, ?_⟩
  rw [step_of_running hs, State.runningStep, if_pos hip, State.fetchInstr_of_decode hd hg hin]

/-! ### Bytes that decode to nothing -/

section Fetch
variable {s : State} {w : Nat}

theorem State.advanced_zero (s : State) : s.advanced 0 = s := by
  rw [State.advanced, Nat.add_zero, State.ip, BitVec.ofNat_toNat, BitVec.setWidth_eq, State.setReg_self]

/-- Passing one field and then more is passing all of them at once. -/
theorem State.advanced_advanced {v n : Nat} (h : s.ip + v < s.al) : (s.advanced v).advanced n = s.advanced (v + n) := by
  rw [State.advanced, State.ip_advanced h, State.setReg_crmap, State.setReg_setReg, Nat.add_assoc]

theorem State.fetchInstr_unknown (hg : s.ip + 1 < s.al) (hin : s.ip + 1 ≤ s.nphys)
    (hf : formOf s.opmap (s.mem.read s.ip) = none) :
    s.fetchInstr = .stopped (.next ((s.advanced 1).raise .c1)) := by
  rw [State.fetchInstr, State.fetchField_of hg (Or.inr hin)]
  simp only [State.load_one, BitVec.ofNat_toNat, BitVec.setWidth_eq, hf]

theorem State.fetchField_fault (h : s.al ≤ s.ip + w) : s.fetchField w = .stopped (.next (s.raise .b5)) :=
  ((instructionPointerGate s w).2 h).2

/-- The fields before the one that `AL` cuts off are fetched, so that the fault leaves `IP` at that one (R101, R265). -/
theorem State.fetchFields_truncated {ws : List Nat} (tail : List Nat) (hn : s.al ≤ s.nphys)
    (hg : s.ip + ws.sum < s.al) (h : s.al ≤ s.ip + ws.sum + w) :
    s.fetchFields (ws ++ w :: tail) = .stopped (.next ((s.advanced ws.sum).raise .b5)) := by
  induction ws generalizing s with
  | nil =>
    rw [List.sum_nil, Nat.add_zero] at h
    rw [List.sum_nil, State.advanced_zero, List.nil_append, State.fetchFields, State.fetchField_fault h]
  | cons v ws ih =>
    rw [List.sum_cons, ← Nat.add_assoc] at hg h
    have hv : s.ip + v < s.al := by omega
    have hrest := ih (s := s.advanced v) (by rwa [State.al_setReg_IP]) (by rwa [State.ip_advanced hv, State.al_setReg_IP])
      (by rwa [State.ip_advanced hv, State.al_setReg_IP])
    rw [State.advanced_advanced hv] at hrest
    rw [List.cons_append, State.fetchFields, State.fetchField_of hv (Or.inr (by omega))]
    dsimp only
    rw [hrest, List.sum_cons]

theorem State.fetchInstr_truncated {f : Form} {ws tail : List Nat} (hn : s.al ≤ s.nphys) (h1 : s.ip + 1 < s.al)
    (hf : formOf s.opmap (s.mem.read s.ip) = some f) (hws : f.widths = ws ++ w :: tail)
    (hg : s.ip + 1 + ws.sum < s.al) (h : s.al ≤ s.ip + 1 + ws.sum + w) :
    s.fetchInstr = .stopped (.next ((s.advanced (1 + ws.sum)).raise .b5)) := by
  have hfields := State.fetchFields_truncated (s := s.advanced 1) tail (by rwa [State.al_setReg_IP])
    (by rwa [State.ip_advanced h1, State.al_setReg_IP]) (by rwa [State.ip_advanced h1, State.al_setReg_IP])
  rw [State.advanced_advanced h1] at hfields
  rw [State.fetchInstr, State.fetchField_of h1 (Or.inr (by omega))]
  simp only [State.load_one, BitVec.ofNat_toNat, BitVec.setWidth_eq, hf, hws, hfields]

end Fetch

/-- Settles O12. -/
theorem truncatedInstructionFaults : Obligations.TruncatedInstructionFaults := by
  intro s f ws w tail hs hn h1 hf hws hg h
  rw [step_of_fetch_stopped hs (by omega) (State.fetchInstr_truncated hn h1 hf hws hg h), Nat.add_assoc]

/-- Settles O11: under the default map by running through the 256 bytes. -/
theorem unknownOpcodeFaults : Obligations.UnknownOpcodeFaults := by
  refine ⟨fun _ _ => formOf_none, ?_, fun s hs hg hin hf => ?_⟩
  · simp only [formOf_none]
    decide +kernel
  · exact step_of_fetch_stopped hs (by omega) (State.fetchInstr_unknown hg hin hf)

end Sys2Proof.Machine
end

section
/-! PROOF of O27 to O32 (40_control.md R111 to R121): what the control instructions write, what a Call and a Ret do where
the stack gate admits their 8 bytes, and that a Ret undoes its Call. -/

namespace Sys2Proof.Machine

/-! ### Jumps on a condition -/

theorem truthy_iff {v : Word} : truthy v = true ↔ v ≠ 0#64 := bne_iff_ne

theorem State.jumpIf_truthy (s : State) (v target : Word) :
    s.jumpIf (truthy v) target = if v ≠ 0#64 then s.jump target else s := if_congr truthy_iff rfl rfl

theorem State.jumpIf_not_truthy (s : State) (v target : Word) :
    s.jumpIf (!truthy v) target = if v = 0#64 then s.jump target else s :=
  if_congr (by rw [Bool.not_eq_true', ← Bool.not_eq_true, truthy_iff, not_not]) rfl rfl

/-- Settles O27: the conditional jumps by what `truthy` tests, all 64 bits of the condition. -/
theorem jumpsWriteTheInstructionPointer : Obligations.JumpsWriteTheInstructionPointer := fun s c t _ =>
  ⟨rfl, rfl, congrArg _ (s.jumpIf_truthy (s.reg c) (s.reg t)), congrArg _ (s.jumpIf_not_truthy (s.reg c) (s.reg t)),
    ComputesInto.of_result rfl⟩

/-! ### Loop -/

/-- Loop tests the decremented count (D15, log 20). -/
theorem exec_loop (c t : RegId) (s : State) :
    exec (.loop c t) s =
      .next (if s.reg c - 1#64 ≠ 0#64 then (s.setReg c (s.reg c - 1#64)).jump (s.reg t)
        else s.setReg c (s.reg c - 1#64)) :=
  congrArg _ (State.jumpIf_truthy _ _ _)

/-- Settles O28: the new count is zero exactly where the old one is 1. -/
theorem loopDecrementsThenTests : Obligations.LoopDecrementsThenTests := by
  refine fun s c t => ⟨fun h => ?_, fun h => ?_⟩
  · rw [exec_loop, h, BitVec.sub_self, if_neg (not_not.mpr rfl)]
  · have hcount : s.reg c - 1#64 ≠ 0#64 := fun h0 => h (by bv_omega)
    rw [exec_loop, if_pos hcount, sub_eq_ofInt]
    rfl

/-- Settles O29: each is one update of the status. -/
theorem exitHaltsAndHtlParks : Obligations.ExitHaltsAndHtlParks := fun _ => ⟨rfl, rfl, rfl, rfl⟩

/-! ### Call -/

/-- The state after a Call that pushed the return address. -/
abbrev State.afterCall (s : State) (t : RegId) : State := (s.pushed 8 (s.reg s.crmap.ip)).jump (s.reg t)

section Call
variable {s : State} (t : RegId)

theorem exec_call_of (hg : s.checkStack (s.reg s.crmap.st).toNat 8 = none)
    (hin : s.inArena (s.reg s.crmap.st).toNat 8) : exec (.call t) s = .next (s.afterCall t) :=
  (exec_call t s).trans (State.push_of _ hg hin)

/-- A Call that leaves the core running passed the gate and found its bytes. -/
theorem exec_call_running {t : RegId} {u : State} (h : exec (.call t) s = .next u) (hu : u.status = .running) :
    s.checkStack (s.reg s.crmap.st).toNat 8 = none ∧ s.inArena (s.reg s.crmap.st).toNat 8 ∧ u = s.afterCall t := by
  rw [exec_call] at h
  rcases State.push_next h with ⟨c, -, rfl⟩ | ⟨hg, hin, hnext⟩
  · cases hu
  · exact ⟨hg, hin, (Host.Outcome.next.inj hnext).symm⟩

theorem State.afterCall_reg_st : (s.afterCall t).reg s.crmap.st = s.reg s.crmap.st + 8#64 :=
  (State.reg_setReg_ne _ _ s.crmap.ip_ne_st.symm).trans (State.reg_setReg_same _ _ _)

theorem State.afterCall_reg_ip : (s.afterCall t).reg s.crmap.ip = s.reg t := State.reg_setReg_same _ _ _

theorem State.afterCall_load : (s.afterCall t).load (s.reg s.crmap.st).toNat 8 = s.ip :=
  (s.load_store_same _ 8 _).trans (Nat.mod_eq_of_lt (s.reg s.crmap.ip).isLt)

theorem State.afterCall_storesOnly :
    StoresOnly [s.crmap.st, s.crmap.ip] (s.reg s.crmap.st).toNat 8 s (s.afterCall t) :=
  ((StoresOnly.store _ s _ 8 _).andSetReg (.head _) _).andSetReg (.tail _ (.head _)) _

end Call

/-- Settles O30: below `AL` the raised `ST` does not wrap. -/
theorem callPushesTheReturnAddress : Obligations.CallPushesTheReturnAddress := by
  intro s t p hss hsb hal hin
  refine ⟨s.afterCall t, exec_call_of t (State.checkStack_none.mpr ⟨hss, hsb, hal⟩) (Or.inr hin), ?_,
    State.afterCall_reg_ip t, State.afterCall_load t, State.afterCall_storesOnly t⟩
  rw [State.afterCall_reg_st]
  exact BitVec.toNat_add_of_lt (hal.trans s.al_lt)

/-! ### Ret -/

/-- The state after a Ret that popped its return address. -/
abbrev State.afterRet (s : State) : State :=
  (s.lowered 8).jump (BitVec.ofNat 64 (s.load (s.reg s.crmap.st - 8#64).toNat 8))

section Ret
variable {s : State}

theorem exec_ret_of (hg : s.checkStack (s.reg s.crmap.st - 8#64).toNat 8 = none)
    (hin : s.inArena (s.reg s.crmap.st - 8#64).toNat 8) : exec .ret s = .next s.afterRet :=
  (exec_ret s).trans (State.pop_of _ hg hin)

theorem State.afterRet_reg_st : s.afterRet.reg s.crmap.st = s.reg s.crmap.st - 8#64 :=
  (State.reg_setReg_ne _ _ s.crmap.ip_ne_st.symm).trans (State.reg_setReg_same _ _ _)

theorem State.afterRet_reg_ip :
    s.afterRet.reg s.crmap.ip = BitVec.ofNat 64 (s.load (s.reg s.crmap.st - 8#64).toNat 8) :=
  State.reg_setReg_same _ _ _

theorem State.afterRet_writesOnly : WritesOnly [s.crmap.st, s.crmap.ip] s s.afterRet :=
  ((WritesOnly.refl _ s).andSetReg (.head _) _).andSetReg (.tail _ (.head _)) _

end Ret

/-- Settles O31: eight bytes are a word, so `IP` holds all that was read. -/
theorem retPopsTheReturnAddress : Obligations.RetPopsTheReturnAddress := by
  intro s p hss hsb hal hin
  refine ⟨s.afterRet, exec_ret_of (State.checkStack_none.mpr ⟨hss, hsb, hal⟩) (Or.inr hin), State.afterRet_reg_st, ?_,
    State.afterRet_writesOnly⟩
  calc s.afterRet.ip
      = (BitVec.ofNat 64 (s.load p 8)).toNat := congrArg BitVec.toNat State.afterRet_reg_ip
    _ = s.load p 8 := (BitVec.toNat_ofNat _ _).trans (Nat.mod_eq_of_lt (s.load_lt p 8))

/-! ### A Ret behind its Call -/

section CallRet
variable {s r : State} {t : RegId}

/-- The stack gate reads `SS`, `SB` and `AL` only. -/
theorem State.checkStack_congr (hc : r.crmap = s.crmap)
    (hr : ∀ q ∈ [s.crmap.ss, s.crmap.sb, s.crmap.al], r.reg q = s.reg q) (p n : Nat) :
    r.checkStack p n = s.checkStack p n := by
  simp only [List.forall_mem_cons] at hr
  obtain ⟨hss, hsb, hal, -⟩ := hr
  rw [State.checkStack, State.checkStack, State.al, State.al, hc, hss, hsb, hal]

theorem State.checkStack_jump (s : State) (v : Word) (p n : Nat) : (s.jump v).checkStack p n = s.checkStack p n := by
  have hbounds : ∀ q ∈ [s.crmap.ss, s.crmap.sb, s.crmap.al], (s.jump v).reg q = s.reg q :=
    List.forall_mem_cons.mpr ⟨State.reg_setReg_ne s v s.crmap.ss_ne_ip, List.forall_mem_cons.mpr
      ⟨State.reg_setReg_ne s v s.crmap.sb_ne_ip, List.forall_mem_singleton.mpr (State.reg_setReg_ne s v s.crmap.al_ne_ip)⟩⟩
  exact State.checkStack_congr (State.jump_crmap s v) hbounds p n

/-- A Call moves none of the bounds that the stack gate reads. -/
theorem State.checkStack_afterCall (p n : Nat) : (s.afterCall t).checkStack p n = s.checkStack p n :=
  (State.checkStack_jump _ _ p n).trans (State.checkStack_setReg_ST _ _ p n)

end CallRet

/-- Settles O32: the Call passed the gate at the old `ST`, where the callee's Ret finds the same bounds, so it passes too and
reads the pushed bytes. -/
theorem retReturnsBehindItsCall : Obligations.RetReturnsBehindItsCall := by
  intro s u r t _ hcall hu hregs hmem hnphys hcrmap
  obtain ⟨hg, hin, rfl⟩ := exec_call_running hcall hu
  have hc : r.crmap = s.crmap := hcrmap
  have htop : r.reg r.crmap.st - 8#64 = s.reg s.crmap.st := by
    rw [hc, hregs _ (.head _), State.afterCall_reg_st, BitVec.add_sub_cancel]
  have hload : r.load (s.reg s.crmap.st).toNat 8 = s.ip := (State.load_congr hmem).trans (State.afterCall_load t)
  refine ⟨r.afterRet, exec_ret_of ?_ ?_, ?_, ?_, ?_⟩
  · rwa [htop, State.checkStack_congr hcrmap fun q hq => hregs q (.tail _ hq), State.checkStack_afterCall]
  · rw [htop]
    exact hin.imp_right hnphys.symm.subst
  · rw [← hc, State.afterRet_reg_ip, htop, hload, hc, State.ip, BitVec.ofNat_toNat, BitVec.setWidth_eq]
  · rw [← hc, State.afterRet_reg_st, htop, hc]
  · rw [← hc]
    exact State.afterRet_writesOnly

end Sys2Proof.Machine
end

section
/-! PROOF of O33 and O34 (41_arith_unsigned.md R130 to R136): the word operations compute the exact result modulo `2^64`, and a
division by a nonzero word stores the quotient, then the remainder. -/

namespace Sys2Proof.Machine

/-! ### Word operations on exact numbers -/

/-- Multiplication of words on natural numbers. -/
theorem mul_eq_ofNat (x y : Word) : x * y = BitVec.ofNat 64 (x.toNat * y.toNat) :=
  BitVec.eq_of_toNat_eq ((BitVec.toNat_mul x y).trans (BitVec.toNat_ofNat _ _).symm)

/-- Division of words on natural numbers. -/
theorem udiv_eq_ofNat (x y : Word) : x / y = BitVec.ofNat 64 (x.toNat / y.toNat) := by
  rw [← BitVec.toNat_udiv, BitVec.ofNat_toNat, BitVec.setWidth_eq]

/-- The remainder of words on natural numbers. -/
theorem umod_eq_ofNat (x y : Word) : x % y = BitVec.ofNat 64 (x.toNat % y.toNat) := by
  rw [← BitVec.toNat_umod, BitVec.ofNat_toNat, BitVec.setWidth_eq]

/-- Settles O33: each instruction writes one word, its operation on the exact numbers. -/
theorem unsignedArithmeticWraps : Obligations.UnsignedArithmeticWraps := fun s d a b =>
  have hadd := BitVec.add_def (s.reg a) (s.reg b)
  have hsub := sub_eq_ofInt (s.reg a) (s.reg b)
  have hmul := mul_eq_ofNat (s.reg a) (s.reg b)
  have hinc := BitVec.add_def (s.reg d) 1#64
  have hdec := sub_eq_ofInt (s.reg d) 1#64
  ⟨.of_result (congrArg (s.result d) hadd), .of_result (congrArg (s.result d) hsub),
    .of_result (congrArg (s.result d) hmul), .of_result (congrArg (s.result d) hinc),
    .of_result (congrArg (s.result d) hdec)⟩

/-! ### A division that does not fault -/

/-- The state after a division, the quotient written first (R134, R142). -/
abbrev State.divided (s : State) (q r : RegId) (quo rem : Word) : State := (s.setReg q quo).setReg r rem

section Divided
variable {s : State} {q r : RegId} {quo rem : Word}

theorem State.divide_of {y : Word} (h : y ≠ 0#64) : s.divide q r y quo rem = .next (s.divided q r quo rem) := if_neg h

theorem State.divided_reg_rem : (s.divided q r quo rem).reg r = rem := State.reg_setReg_same _ _ _

theorem State.divided_reg_quo (h : q ≠ r) : (s.divided q r quo rem).reg q = quo :=
  (State.reg_setReg_ne _ _ h).trans (State.reg_setReg_same _ _ _)

theorem State.divided_writesOnly : WritesOnly [q, r] s (s.divided q r quo rem) :=
  ((WritesOnly.refl _ s).andSetReg (.head _) _).andSetReg (.tail _ (.head _)) _

end Divided

/-- Div by a nonzero word stores the quotient and the remainder of words. -/
theorem exec_div_of {s : State} {b : RegId} (q r a : RegId) (h : s.reg b ≠ 0#64) :
    exec (.div q r a b) s = .next (s.divided q r (s.reg a / s.reg b) (s.reg a % s.reg b)) := by
  rw [udiv_eq_ofNat, umod_eq_ofNat]
  exact State.divide_of h

/-- Settles O34: a remainder is smaller than its divisor, and quotient and remainder make up the dividend. -/
theorem divStoresQuotientAndRemainder : Obligations.DivStoresQuotientAndRemainder := by
  intro s q r a b hb
  have hpos : 0 < s.regNat b := Nat.pos_of_ne_zero (BitVec.toNat_ne.mp hb)
  refine ⟨_, exec_div_of q r a hb, State.divided_writesOnly, ?_, fun hqr => ?_, ?_⟩
  · rw [State.divided_reg_rem, BitVec.toNat_umod]
    exact Nat.mod_lt _ hpos
  · rw [State.divided_reg_quo hqr, State.divided_reg_rem, BitVec.toNat_udiv, BitVec.toNat_umod]
    exact (Nat.div_add_mod _ _).symm
  · rw [State.divided_reg_rem]
    exact BitVec.toNat_umod

end Sys2Proof.Machine
end

section
/-! PROOF of O35 and O37 (42_arith_signed.md R140 to R142, R146, R147): the signed operations of the model are the signed word
operations of the library, whose laws give the rounding of a division and the bits of a shift. -/

namespace Sys2Proof.Machine

/-! ### Signed word operations on exact integers -/

/-- A word is the wrapped form of its signed reading (R8). -/
theorem ofSigned_signed (v : Word) : Word.ofSigned v.signed = v := BitVec.ofInt_toInt

/-- The exact signed product wraps to the product of words (R141, D11). -/
theorem ofSigned_mul (x y : Word) : Word.ofSigned (x.signed * y.signed) = x * y :=
  (BitVec.ofInt_mul _ _).trans (congrArg₂ _ (ofSigned_signed x) (ofSigned_signed y))

/-- The quotient rounded toward zero wraps to the signed quotient of words (R142, D12). -/
theorem iDivQuotient_eq_sdiv (x y : Word) : iDivQuotient x y = x.sdiv y :=
  BitVec.eq_of_toInt_eq ((BitVec.toInt_ofInt _).trans (BitVec.toInt_sdiv x y).symm)

/-- What that quotient leaves of the dividend is the signed remainder of words (R142, D12). -/
theorem iDivRemainder_eq_srem (x y : Word) : iDivRemainder x y = x.srem y := by
  have hrem : x.signed - x.signed.tdiv y.signed * y.signed = (x.srem y).toInt := by
    rw [BitVec.toInt_srem, Int.tmod_def, Int.mul_comm]
  rw [iDivRemainder, hrem, ofSigned_signed]

/-- Multiplying by a power of two shifts left (R146, R165). -/
theorem shiftLeft_eq (x : Word) (k : Nat) : shiftLeft x k = x <<< k := by
  rw [shiftLeft, ← Nat.shiftLeft_eq]
  rfl

/-- The floor of the signed quotient by a power of two is the arithmetic right shift (R147). -/
theorem shiftRightSigned_eq_sshiftRight (x : Word) (k : Nat) : shiftRightSigned x k = x.sshiftRight k := by
  have hfloor : x.signed.fdiv (2 ^ k) = (x.sshiftRight k).toInt := by
    rw [BitVec.toInt_sshiftRight, Int.shiftRight_eq_div_pow, Int.fdiv_eq_ediv_of_nonneg _ (by positivity)]
    norm_cast
  rw [shiftRightSigned, hfloor, ofSigned_signed]

/-! ### Bits of an arithmetic right shift -/

/-- Bits moved in from above are copies of the sign bit (R147). -/
theorem getLsbD_shiftRightSigned (x : Word) (k : Nat) {i : Nat} (hi : i < 64) :
    (shiftRightSigned x k).getLsbD i = if i + k < 64 then x.getLsbD (i + k) else x.getLsbD 63 := by
  rw [shiftRightSigned_eq_sshiftRight, BitVec.getLsbD_sshiftRight, BitVec.msb_eq_getLsbD_last, Nat.add_comm k i,
    decide_eq_false (Nat.not_le.mpr hi), Bool.not_false, Bool.true_and]

/-- Settles O37: each instruction writes one word, the library's signed operation on the operands. -/
theorem signedMultiplyAndShifts : Obligations.SignedMultiplyAndShifts := fun s d a b =>
  have hmul := ofSigned_mul (s.reg a) (s.reg b)
  have hleft := shiftLeft_eq (s.reg a) (shiftAmount (s.reg b))
  ⟨.of_result rfl, .of_result (congrArg (s.result d) hmul), .of_result (congrArg (s.result d) hleft),
    s.setReg d (shiftRightSigned (s.reg a) (shiftAmount (s.reg b))), rfl, WritesOnly.setReg s d _, fun i hi => by
      rw [State.reg_setReg_same]
      exact getLsbD_shiftRightSigned _ _ hi⟩

/-! ### Signed quotient and remainder -/

/-- IDiv by a nonzero word stores the signed quotient and the signed remainder of words. -/
theorem exec_iDiv_of {s : State} {b : RegId} (q r a : RegId) (h : s.reg b ≠ 0#64) :
    exec (.iDiv q r a b) s = .next (s.divided q r ((s.reg a).sdiv (s.reg b)) ((s.reg a).srem (s.reg b))) := by
  rw [← iDivQuotient_eq_sdiv, ← iDivRemainder_eq_srem]
  exact State.divide_of h

/-- The remainder is smaller than the divisor in magnitude. -/
theorem natAbs_srem_lt (x : Word) {y : Word} (h : y ≠ 0#64) : (x.srem y).toInt.natAbs < y.toInt.natAbs := by
  have hy : y.toInt ≠ 0 := fun h0 => h (BitVec.eq_of_toInt_eq h0)
  rw [BitVec.toInt_srem, Int.natAbs_tmod]
  exact Nat.mod_lt _ (Int.natAbs_pos.mpr hy)

/-- A nonzero remainder has the sign of the dividend. -/
theorem srem_neg_iff {x y : Word} (h : (x.srem y).toInt ≠ 0) : (x.srem y).toInt < 0 ↔ x.toInt < 0 := by
  rw [BitVec.toInt_srem] at h ⊢
  have hsign : (x.toInt.tmod y.toInt).sign = x.toInt.sign := by
    rw [Int.sign_tmod, if_neg fun hd => h (Int.tmod_eq_zero_of_dvd hd)]
  rw [← Int.sign_eq_neg_one_iff_neg, hsign, Int.sign_eq_neg_one_iff_neg]

/-- Quotient and remainder make up the dividend, but for `-2^63 / -1`, whose quotient wraps. -/
theorem sdiv_mul_add_srem {x y : Word} (h : ¬ (x = 0x8000000000000000#64 ∧ y = 0xFFFFFFFFFFFFFFFF#64)) :
    (x.sdiv y).toInt * y.toInt + (x.srem y).toInt = x.toInt := by
  rw [BitVec.toInt_sdiv_of_ne_or_ne x y (not_and_or.mp h), BitVec.toInt_srem]
  exact Int.tdiv_mul_add_tmod _ _

/-- Settles O35: the laws of the signed quotient and remainder; the one wrapped quotient is computed. -/
theorem iDivTruncatesTowardZero : Obligations.IDivTruncatesTowardZero := by
  intro s q r a b hb hqr
  refine ⟨_, exec_iDiv_of q r a hb, State.divided_writesOnly, ?_⟩
  rw [State.divided_reg_quo hqr, State.divided_reg_rem]
  refine ⟨natAbs_srem_lt _ hb, or_iff_not_imp_left.mpr srem_neg_iff, fun ha hm => ?_, fun hne => ?_⟩
  · rw [ha, hm]
    decide
  · exact (sdiv_mul_add_srem hne).symm

end Sys2Proof.Machine
end

section
/-! PROOF of O38 and O39 (43_compare.md R150 to R153, 42_arith_signed.md R143 to R145): a comparison word is read off the order of
the operands' readings, unsigned or signed, and exchanging the operands of a three-way comparison negates the word. -/

namespace Sys2Proof.Machine

/-! ### Comparison words on an order -/

theorem boolWord_decide (p : Prop) [Decidable p] : boolWord (decide p) = if p then 1#64 else 0#64 := by
  simp only [boolWord, decide_eq_true_eq]

theorem threeWay_decide (gt eq : Prop) [Decidable gt] [Decidable eq] :
    threeWay (decide gt) (decide eq) = if gt then 1#64 else if eq then 0#64 else 0xFFFFFFFFFFFFFFFF#64 := by
  simp only [threeWay, decide_eq_true_eq]
  rfl

/-- The words of greater and less are each other's negation, the word of equal is its own (R153). -/
theorem threeWay_swap {α : Type} [LinearOrder α] (m n : α) :
    threeWay (decide (n < m)) (decide (m = n)) = -threeWay (decide (m < n)) (decide (n = m)) := by
  rcases lt_trichotomy m n with hlt | rfl | hgt
  · rw [decide_eq_false hlt.not_gt, decide_eq_false hlt.ne, decide_eq_true hlt]
    rfl
  · rw [decide_eq_false (lt_irrefl m), decide_eq_true (rfl : m = m)]
    rfl
  · rw [decide_eq_true hgt, decide_eq_false hgt.not_gt, decide_eq_false hgt.ne]
    rfl

/-! ### Than and IThan as three-way words of readings -/

/-- Words are equal as their unsigned readings are. -/
theorem thanWord_eq_threeWay (x y : Word) :
    thanWord x y = threeWay (decide (y.toNat < x.toNat)) (decide (x.toNat = y.toNat)) := by
  simp only [thanWord, BitVec.toNat_inj]

/-- Words are equal as their signed readings are. -/
theorem iThanWord_eq_threeWay (x y : Word) :
    iThanWord x y = threeWay (decide (y.signed < x.signed)) (decide (x.signed = y.signed)) := by
  simp only [iThanWord, Word.signed, BitVec.toInt_inj]

theorem thanWord_swap (x y : Word) : thanWord x y = -thanWord y x := by
  rw [thanWord_eq_threeWay, thanWord_eq_threeWay]
  exact threeWay_swap x.toNat y.toNat

theorem iThanWord_swap (x y : Word) : iThanWord x y = -iThanWord y x := by
  rw [iThanWord_eq_threeWay, iThanWord_eq_threeWay]
  exact threeWay_swap x.signed y.signed

theorem thanWord_self (x : Word) : thanWord x x = 0#64 := by
  rw [thanWord, decide_eq_false (lt_irrefl _), decide_eq_true rfl]
  rfl

theorem iThanWord_self (x : Word) : iThanWord x x = 0#64 := by
  rw [iThanWord, decide_eq_false (lt_irrefl _), decide_eq_true rfl]
  rfl

/-- Settles O38: each instruction writes one word, the comparison of the two readings. -/
theorem comparisonsWriteTheOrder : Obligations.ComparisonsWriteTheOrder := fun s d a b =>
  have hthan := (thanWord_eq_threeWay (s.reg a) (s.reg b)).trans (threeWay_decide _ _)
  have hiThan := (iThanWord_eq_threeWay (s.reg a) (s.reg b)).trans (threeWay_decide _ _)
  ⟨.of_result (congrArg (s.result d) hthan), .of_result (congrArg (s.result d) (boolWord_decide _)),
    .of_result (congrArg (s.result d) (boolWord_decide _)), .of_result (congrArg (s.result d) hiThan),
    .of_result (congrArg (s.result d) (boolWord_decide _)), .of_result (congrArg (s.result d) (boolWord_decide _))⟩

/-! ### Exchanged operands -/

/-- Negating the signed reading of a word and wrapping negates the word. -/
theorem ofInt_neg_toInt (v : Word) : BitVec.ofInt 64 (-v.toInt) = -v := by
  rw [BitVec.ofInt_neg, BitVec.ofInt_toInt]

/-- Two instructions that write `f x y` and `f y x` write words negated to each other, both 0 for equal operands, when `f` is
such an operation. -/
theorem negated_of_result {s : State} {d a b : RegId} {i j : Instr} {f : Word → Word → Word}
    (hswap : ∀ x y, f x y = -f y x) (hself : ∀ x, f x x = 0#64) (hi : exec i s = s.result d (f (s.reg a) (s.reg b)))
    (hj : exec j s = s.result d (f (s.reg b) (s.reg a))) :
    ∃ t u, exec i s = .next t ∧ exec j s = .next u ∧ t.reg d = BitVec.ofInt 64 (-(u.reg d).toInt) ∧
      (s.reg a = s.reg b → t.reg d = 0#64 ∧ u.reg d = 0#64) := by
  refine ⟨_, _, hi, hj, ?_, fun hab => ?_⟩
  · rw [ofInt_neg_toInt, State.reg_setReg_same, State.reg_setReg_same]
    exact hswap _ _
  · rw [State.reg_setReg_same, State.reg_setReg_same, hab]
    exact ⟨hself _, hself _⟩

/-- Settles O39. -/
theorem thanIsAntisymmetric : Obligations.ThanIsAntisymmetric := fun _ _ _ _ =>
  ⟨negated_of_result thanWord_swap thanWord_self rfl rfl, negated_of_result iThanWord_swap iThanWord_self rfl rfl⟩

end Sys2Proof.Machine
end

section
/-! PROOF of O40 and O41 (44_bitwise_shift.md R160 to R170): the shifts and rotates of the model, given as products and quotients
by powers of two, are shifts of bits, and each instruction writes one word whose bits are known. -/

namespace Sys2Proof.Machine

/-- An instruction that writes one word of known bits: bit `pos n` of its destination is `bit n`, and nothing else changes. -/
theorem bits_of_result {i : Instr} {s : State} {d : RegId} {v : Word} {pos : Nat → Nat} {bit : Nat → Bool}
    (h : exec i s = s.result d v) (hbits : ∀ n, n < 64 → v.getLsbD (pos n) = bit n) :
    ∃ t, exec i s = .next t ∧ WritesOnly [d] s t ∧ ∀ n, n < 64 → (t.reg d).getLsbD (pos n) = bit n := by
  refine ⟨s.setReg d v, h, WritesOnly.setReg s d v, fun n hn => ?_⟩
  rw [State.reg_setReg_same]
  exact hbits n hn

/-! ### Shifts -/

/-- The quotient by a power of two shifts right (R166). -/
theorem shiftRight_eq (x : Word) (k : Nat) : shiftRight x k = x >>> k := by
  rw [shiftRight, ← Nat.shiftRight_eq_div_pow, ← BitVec.toNat_ushiftRight, BitVec.ofNat_toNat, BitVec.setWidth_eq]

/-- Below the amount a left shift leaves zeros (R165). -/
theorem getLsbD_shiftLeft (x : Word) (k : Nat) {i : Nat} (hi : i < 64) :
    (shiftLeft x k).getLsbD i = (decide (k ≤ i) && x.getLsbD (i - k)) := by
  rw [shiftLeft_eq, BitVec.getLsbD_shiftLeft, decide_eq_true hi, Bool.true_and, ← decide_not]
  simp only [Nat.not_lt]

theorem getLsbD_shiftRight (x : Word) (k i : Nat) : (shiftRight x k).getLsbD i = x.getLsbD (i + k) := by
  rw [shiftRight_eq, BitVec.getLsbD_ushiftRight, Nat.add_comm]

/-! ### Rotates -/

/-- The bits shifted up and the bits shifted out do not overlap, so their sum is bitwise (R167). -/
theorem rotateLeft_eq_or (x : Word) {k : Nat} (hk : k ≤ 64) :
    rotateLeft x k = shiftLeft x k ||| shiftRight x (64 - k) := by
  have hup : BitVec.ofNat 64 (x.toNat * 2 ^ k % 2 ^ 64) = shiftLeft x k := BitVec.eq_of_toNat_eq (Nat.mod_mod _ _)
  have hsum : rotateLeft x k = shiftLeft x k + shiftRight x (64 - k) := by
    rw [rotateLeft, BitVec.ofNat_add, hup, shiftRight]
  rw [hsum]
  refine BitVec.add_eq_or_of_and_eq_zero _ _ (BitVec.eq_of_getLsbD_eq fun i hi => ?_)
  rw [BitVec.getLsbD_and, getLsbD_shiftLeft x k hi, getLsbD_shiftRight, BitVec.getLsbD_zero]
  by_cases hki : k ≤ i
  · rw [BitVec.getLsbD_of_ge x (i + (64 - k)) (by omega), Bool.and_false]
  · rw [decide_eq_false hki, Bool.false_and, Bool.false_and]

/-- A left rotate moves bit `i` up by `k`, around the end of the word (R167). -/
theorem getLsbD_rotateLeft (x : Word) {k i : Nat} (hk : k ≤ 64) (hi : i < 64) :
    (rotateLeft x k).getLsbD ((i + k) % 64) = x.getLsbD i := by
  rw [rotateLeft_eq_or x hk, BitVec.getLsbD_or, getLsbD_shiftLeft x k (Nat.mod_lt _ (by decide)), getLsbD_shiftRight]
  by_cases hwrap : i + k < 64
  · rw [Nat.mod_eq_of_lt hwrap, decide_eq_true (Nat.le_add_left k i), Nat.add_sub_cancel, Bool.true_and,
      BitVec.getLsbD_of_ge x (i + k + (64 - k)) (by omega), Bool.or_false]
  · have hpos : (i + k) % 64 = i + k - 64 := by omega
    have hback : i + k - 64 + (64 - k) = i := by omega
    rw [hpos, hback, decide_eq_false (by omega), Bool.false_and, Bool.false_or]

/-- Rotating right by `k` is rotating left by what is left of the word (R167, R168). -/
theorem rotateRight_eq_rotateLeft (x : Word) {k : Nat} (hk : k ≤ 64) : rotateRight x k = rotateLeft x (64 - k) := by
  rw [rotateRight, rotateLeft, Nat.sub_sub_self hk, Nat.add_comm]

/-- A right rotate moves bit `i + k`, counted around the end of the word, down to bit `i` (R168). -/
theorem getLsbD_rotateRight (x : Word) {k i : Nat} (hk : k ≤ 64) (hi : i < 64) :
    (rotateRight x k).getLsbD i = x.getLsbD ((i + k) % 64) := by
  have hround : ((i + k) % 64 + (64 - k)) % 64 = i := by omega
  have hmove := getLsbD_rotateLeft x (Nat.sub_le 64 k) (Nat.mod_lt (i + k) (by decide))
  rwa [hround, ← rotateRight_eq_rotateLeft x hk] at hmove

theorem shiftAmount_le (v : Word) : shiftAmount v ≤ 64 := (Nat.mod_lt _ (by decide)).le

/-- Settles O41: where a shift or a rotate by the amount moves each bit. -/
theorem shiftsAndRotatesMoveBits : Obligations.ShiftsAndRotatesMoveBits := fun s _ a b =>
  have hk := shiftAmount_le (s.reg b)
  ⟨bits_of_result rfl fun _ => getLsbD_shiftLeft (s.reg a) _,
    bits_of_result rfl fun i _ => getLsbD_shiftRight (s.reg a) _ i,
    bits_of_result rfl fun _ => getLsbD_rotateLeft (s.reg a) hk,
    bits_of_result rfl fun _ => getLsbD_rotateRight (s.reg a) hk⟩

/-! ### Bitwise operations and truth values -/

/-- Exclusive or with the word of ones inverts every bit (R169, D14). -/
theorem getLsbD_xor_ones (x : Word) {i : Nat} (hi : i < 64) :
    (x ^^^ 0xFFFFFFFFFFFFFFFF#64).getLsbD i = !x.getLsbD i := by
  have hnot : x ^^^ 0xFFFFFFFFFFFFFFFF#64 = ~~~x := BitVec.xor_allOnes
  rw [hnot, BitVec.getLsbD_not, decide_eq_true hi, Bool.true_and]

/-- The truth value of a word is 0 for the zero word only (R170). -/
theorem boolWord_truthy (v : Word) : boolWord (truthy v) = if v = 0#64 then 0#64 else 1#64 :=
  (if_congr truthy_iff rfl rfl).trans (ite_not _ _ _)

/-- The negated truth value (R161). -/
theorem boolWord_not_truthy (v : Word) : boolWord (!truthy v) = if v = 0#64 then 1#64 else 0#64 := by
  have hnot : (!truthy v) = decide (v = 0#64) := Bool.not_not (decide (v = 0#64))
  rw [hnot, boolWord_decide]

/-- Settles O40: each instruction writes one word, given by its bits or as a truth value. -/
theorem bitwiseOperationsBitByBit : Obligations.BitwiseOperationsBitByBit := fun s d a _ =>
  have hnot := boolWord_not_truthy (s.reg a)
  have hbool := boolWord_truthy (s.reg a)
  ⟨bits_of_result rfl fun _ _ => BitVec.getLsbD_and, bits_of_result rfl fun _ _ => BitVec.getLsbD_or,
    bits_of_result rfl fun _ _ => BitVec.getLsbD_xor, bits_of_result rfl fun _ => getLsbD_xor_ones (s.reg a),
    .of_result (congrArg (s.result d) hnot), .of_result (congrArg (s.result d) hbool)⟩

end Sys2Proof.Machine
end

section
/-! PROOF of O42, O43, O44, O46 and O48 (45_move_memory.md R180 to R197, 46_stack_exchange.md R205 to R208): what the moves,
loads, stores and pops leave in their destination, for the four widths at once, and the address LEA computes. -/

namespace Sys2Proof.Machine

/-! ### Words of `w` bytes -/

/-- Truncation in the spec's powers of two (R7). -/
theorem truncTo_eq (w : Nat) (v : Word) : truncTo w v = BitVec.ofNat 64 (v.toNat % 2 ^ (8 * w)) := by
  rw [truncTo, pow256_eq]

theorem truncTo_of_fits {w : Nat} {v : Word} (h : LiteralFits w v) : truncTo w v = v := by
  rw [truncTo, Nat.mod_eq_of_lt h, BitVec.ofNat_toNat, BitVec.setWidth_eq]

/-- Every word is a literal of eight bytes. -/
theorem literalFits_eight (v : Word) : LiteralFits 8 v := v.isLt

/-- The well-formedness of a Set is that its literal fits, in the width of eight bytes too, where it is not tested. -/
theorem literalFits_of_set_wf {w : Width} {d : RegId} {lit : Word} (h : (w.set d lit).WF) : LiteralFits w.bytes lit := by
  cases w with
  | w1 => exact of_decide_eq_true h
  | w2 => exact of_decide_eq_true h
  | w4 => exact of_decide_eq_true h
  | w8 => exact literalFits_eight lit

/-- The bytes of a width are at most a word's, so the word that holds them loses none (R180). -/
theorem State.toNat_ofNat_load (s : State) (p : Nat) (w : Width) :
    (BitVec.ofNat 64 (s.load p w.bytes)).toNat = s.load p w.bytes :=
  (BitVec.toNat_ofNat _ _).trans (Nat.mod_eq_of_lt ((s.load_lt p w.bytes).trans_le
    (Nat.pow_le_pow_right (by decide) w.bytes_le : 256 ^ w.bytes ≤ 256 ^ 8)))

/-! ### Moves and literals -/

/-- Set stores its literal truncated; in eight bytes that is the literal itself (log 30). -/
theorem exec_set (w : Width) (d : RegId) (lit : Word) (s : State) :
    exec (w.set d lit) s = s.result d (truncTo w.bytes lit) := by
  cases w with
  | w1 => rfl
  | w2 => rfl
  | w4 => rfl
  | w8 => exact congrArg (s.result d) (truncTo_of_fits (literalFits_eight lit)).symm

/-- Settles O42: each form writes its source truncated, which leaves a literal that fits as it is. -/
theorem movesAndLiteralsZeroExtend : Obligations.MovesAndLiteralsZeroExtend := by
  refine fun s w d r lit => ⟨?_, ?_, fun hwf => ?_⟩
  · rw [State.regNat, ← truncTo_eq]
    exact .of_result (exec_mov w d r s)
  · rw [← truncTo_eq]
    exact .of_result (exec_set w d lit s)
  · have hset := exec_set w d lit s
    rw [truncTo_of_fits (literalFits_of_set_wf hwf)] at hset
    exact .of_result hset

/-! ### Loads and stores -/

section Data
variable {s : State} {w : Width} {a : RegId}

theorem exec_get_of (d : RegId) (hg : s.regNat a + w.bytes < s.al) (hin : s.inArena (s.regNat a) w.bytes) :
    exec (w.get d a) s = s.result d (BitVec.ofNat 64 (s.load (s.regNat a) w.bytes)) :=
  (exec_get w d a s).trans (State.withData_of _ hg hin)

theorem exec_wrt_of (v : RegId) (hg : s.regNat a + w.bytes < s.al) (hin : s.inArena (s.regNat a) w.bytes) :
    exec (w.wrt a v) s = .next (s.store (s.regNat a) w.bytes (s.regNat v)) :=
  (exec_wrt w a v s).trans (State.withData_of _ hg hin)

end Data

/-- Settles O43: the register holds all that was loaded, and `w` bytes are below `2^(8w)`. -/
theorem getLoadsBigEndian : Obligations.GetLoadsBigEndian := by
  intro s w d a hg hin
  obtain ⟨t, hexec, hval, hframe⟩ := ComputesInto.of_result (exec_get_of d hg (Or.inr hin))
  have hload : (t.reg d).toNat = s.load (s.regNat a) w.bytes := by rw [hval, s.toNat_ofNat_load]
  refine ⟨t, hexec, hframe, hload, ?_⟩
  rw [hload, ← pow256_eq]
  exact s.load_lt (s.regNat a) w.bytes

/-- Settles O44: the next state is the store itself, and reading it back truncates. -/
theorem wrtStoresTheLowBytes : Obligations.WrtStoresTheLowBytes := by
  intro s w a v hg hin
  refine ⟨_, exec_wrt_of v hg (Or.inr hin), StoresOnly.store [] s _ _ _, ?_⟩
  rw [State.load_store_same, pow256_eq]

/-! ### LEA -/

/-- Reducing the product before the sum does not show in the wrapped address (R197, D21). -/
theorem leaAddress_eq_ofNat (base index scale : Word) :
    leaAddress base index scale = BitVec.ofNat 64 ((base.toNat + index.toNat * scale.toNat) % 2 ^ 64) := by
  refine BitVec.eq_of_toNat_eq ?_
  rw [leaAddress, BitVec.toNat_add, BitVec.toNat_mul, Nat.add_mod_mod, BitVec.toNat_ofNat, Nat.mod_mod]

/-- The safe-address gate on a number below `2^64` (R72). -/
theorem State.checkSafe_ofNat (s : State) {n : Nat} (hn : n < 2 ^ 64) :
    s.checkSafe (BitVec.ofNat 64 n) = if s.al ≤ n then 0#64 else BitVec.ofNat 64 n := by
  rw [State.checkSafe, BitVec.toNat_ofNat, Nat.mod_eq_of_lt hn]

theorem exec_lea (d b i k : RegId) (s : State) :
    exec (.lea d b i k) s = s.result d
      (if s.al ≤ (s.regNat b + s.regNat i * s.regNat k) % 2 ^ 64 then 0#64
        else BitVec.ofNat 64 ((s.regNat b + s.regNat i * s.regNat k) % 2 ^ 64)) := by
  have haddr := leaAddress_eq_ofNat (s.reg b) (s.reg i) (s.reg k)
  have hsafe := s.checkSafe_ofNat (Nat.mod_lt (s.regNat b + s.regNat i * s.regNat k) (Nat.two_pow_pos 64))
  exact congrArg (s.result d) ((congrArg s.checkSafe haddr).trans hsafe)

/-- Settles O46: the two sides of the safe-address gate. -/
theorem leaClampsOutOfRangeToZero : Obligations.LeaClampsOutOfRangeToZero := by
  refine fun s d b i k => ⟨fun h => .of_result ?_, fun h => .of_result ?_⟩
  · rw [exec_lea, if_neg (Nat.not_le.mpr h)]
  · rw [exec_lea, if_pos h]

/-! ### Pop -/

/-- The state after a pop of `w` bytes into `d`: `ST` is lowered before `d` is written (R200, R205). -/
abbrev State.popped (s : State) (w : Nat) (d : RegId) : State :=
  (s.lowered w).setReg d (BitVec.ofNat 64 (s.load (s.reg s.crmap.st - BitVec.ofNat 64 w).toNat w))

theorem exec_pop_of {s : State} {w : Width} (d : RegId)
    (hg : s.checkStack (s.reg s.crmap.st - BitVec.ofNat 64 w.bytes).toNat w.bytes = none)
    (hin : s.inArena (s.reg s.crmap.st - BitVec.ofNat 64 w.bytes).toNat w.bytes) :
    exec (w.pop d) s = .next (s.popped w.bytes d) :=
  (exec_pop w d s).trans (State.pop_of _ hg hin)

theorem State.toNat_popped_reg (s : State) (w : Width) (d : RegId) :
    ((s.popped w.bytes d).reg d).toNat = s.load (s.reg s.crmap.st - BitVec.ofNat 64 w.bytes).toNat w.bytes := by
  rw [State.reg_setReg_same, s.toNat_ofNat_load]

theorem State.popped_reg_st (s : State) (w : Nat) {d : RegId} (h : d ≠ s.crmap.st) :
    (s.popped w d).reg s.crmap.st = s.reg s.crmap.st - BitVec.ofNat 64 w :=
  (State.reg_setReg_ne _ _ h.symm).trans (State.reg_setReg_same _ _ _)

theorem State.popped_writesOnly (s : State) (w : Nat) (d : RegId) :
    WritesOnly [s.crmap.st, d] s (s.popped w d) :=
  ((WritesOnly.refl _ s).andSetReg (.head _) _).andSetReg (.tail _ (.head _)) _

/-- Settles O48: the destination is written last, so it holds the popped value even where it is `ST`. -/
theorem popLoadsBelowTheTop : Obligations.PopLoadsBelowTheTop := by
  intro s w d p hss hsb hal hin
  exact ⟨s.popped w.bytes d, exec_pop_of d (State.checkStack_none.mpr ⟨hss, hsb, hal⟩) (Or.inr hin),
    s.toNat_popped_reg w d, s.popped_reg_st w.bytes, s.popped_writesOnly w.bytes d⟩

end Sys2Proof.Machine
end

section
/-! PROOF of O47, O50, O51 and O52 (46_stack_exchange.md R200 to R214, 49_host_io_data_misc.md R245): what a push, an exchange
and a Data leave behind for the four widths at once, and that a run of pops takes back what a run of pushes stored. -/

namespace Sys2Proof.Machine

/-! ### Psh -/

section Push
variable {s : State} {w : Width}

theorem exec_psh_of (r : RegId) (hg : s.checkStack (s.reg s.crmap.st).toNat w.bytes = none)
    (hin : s.inArena (s.reg s.crmap.st).toNat w.bytes) : exec (w.psh r) s = .next (s.pushed w.bytes (s.reg r)) :=
  (exec_psh w r s).trans (State.push_of _ hg hin)

theorem State.pushed_reg_st (s : State) (n : Nat) (v : Word) :
    (s.pushed n v).reg s.crmap.st = s.reg s.crmap.st + BitVec.ofNat 64 n := State.reg_setReg_same _ _ _

/-- Below `AL` the raised `ST` does not wrap. -/
theorem State.toNat_pushed_reg_st {n : Nat} (v : Word) (h : (s.reg s.crmap.st).toNat + n < s.al) :
    ((s.pushed n v).reg s.crmap.st).toNat = (s.reg s.crmap.st).toNat + n := by
  have := s.al_lt
  rw [State.pushed_reg_st, BitVec.toNat_add, BitVec.toNat_ofNat]
  omega

theorem State.pushed_load (s : State) (n : Nat) (v : Word) :
    (s.pushed n v).load (s.reg s.crmap.st).toNat n = v.toNat % 2 ^ (8 * n) :=
  pow256_eq n ▸ s.load_store_same _ n v.toNat

theorem State.pushed_storesOnly (s : State) (n : Nat) (v : Word) :
    StoresOnly [s.crmap.st] (s.reg s.crmap.st).toNat n s (s.pushed n v) :=
  (StoresOnly.store _ s _ n _).andSetReg (.head _) _

/-- A push moves none of the bounds that the stack gate reads. -/
theorem State.checkStack_pushed (s : State) (m : Nat) (v : Word) (p n : Nat) :
    (s.pushed m v).checkStack p n = s.checkStack p n := State.checkStack_setReg_ST _ _ p n

end Push

/-- Settles O47: the register is read before `ST` is raised, so pushing `ST` stores its old value. -/
theorem pshStoresAtTheTop : Obligations.PshStoresAtTheTop := by
  intro s w r p hss hsb hal hin
  exact ⟨s.pushed w.bytes (s.reg r), exec_psh_of r (State.checkStack_none.mpr ⟨hss, hsb, hal⟩) (Or.inr hin),
    State.toNat_pushed_reg_st _ hal, s.pushed_load w.bytes (s.reg r), s.pushed_storesOnly w.bytes (s.reg r)⟩

/-! ### XCHG -/

/-- The merged value does not overflow: the upper bits are a multiple of `256^w`, which divides `2^64`. -/
theorem toNat_mergeLow {w : Nat} (hw : w ≤ 8) (v : Word) {cell : Nat} (hcell : cell < 256 ^ w) :
    (mergeLow w v cell).toNat = cell + 256 ^ w * (v.toNat / 256 ^ w) := by
  have hdvd : 256 ^ w ∣ 2 ^ 64 := pow_dvd_pow 256 hw
  have hupper : v.toNat / 256 ^ w + 1 ≤ 2 ^ 64 / 256 ^ w := Nat.div_lt_div_of_lt_of_dvd hdvd v.isLt
  have hfits : 256 ^ w * (v.toNat / 256 ^ w + 1) ≤ 2 ^ 64 := (Nat.mul_le_mul_left _ hupper).trans (Nat.mul_div_le _ _)
  have hsplit : v.toNat % 256 ^ w + 256 ^ w * (v.toNat / 256 ^ w) = v.toNat := Nat.mod_add_div _ _
  have hsum : v.toNat - v.toNat % 256 ^ w + cell = cell + 256 ^ w * (v.toNat / 256 ^ w) := by omega
  rw [Nat.mul_succ] at hfits
  rw [mergeLow, BitVec.toNat_ofNat, hsum, Nat.mod_eq_of_lt (by omega)]

/-- The state after an exchange that its gate admitted. -/
abbrev State.exchanged (s : State) (w : Nat) (x a : RegId) : State :=
  (s.store (s.regNat a) w (s.regNat x)).setReg x (mergeLow w (s.reg x) (s.load (s.regNat a) w))

section Exchange
variable {s : State} {w : Width} (x : RegId) {a : RegId}

theorem exec_xchg_of (hg : s.regNat a + w.bytes < s.al) (hin : s.inArena (s.regNat a) w.bytes) :
    exec (w.xchg x a) s = .next (s.exchanged w.bytes x a) :=
  (exec_xchg w x a s).trans (State.withData_of _ hg hin)

theorem State.toNat_exchanged_reg (s : State) (w : Width) (x a : RegId) :
    ((s.exchanged w.bytes x a).reg x).toNat =
      s.load (s.regNat a) w.bytes + 2 ^ (8 * w.bytes) * (s.regNat x / 2 ^ (8 * w.bytes)) := by
  rw [State.reg_setReg_same, toNat_mergeLow w.bytes_le _ (s.load_lt _ _), pow256_eq]
  rfl

end Exchange

/-- Settles O51: what was loaded is the remainder of the new register by `2^(8w)`, its old upper bits the quotient. -/
theorem xchgExchangesLowBits : Obligations.XchgExchangesLowBits := by
  intro s w x a hg hin
  have hcell : s.load (s.regNat a) w.bytes < 2 ^ (8 * w.bytes) := pow256_eq w.bytes ▸ s.load_lt _ _
  refine ⟨s.exchanged w.bytes x a, exec_xchg_of x hg (Or.inr hin), (StoresOnly.store _ s _ _ _).andSetReg (.head _) _,
    ?_, ?_, ?_⟩
  · exact pow256_eq w.bytes ▸ s.load_store_same _ _ _
  · rw [State.toNat_exchanged_reg, Nat.add_mul_mod_self_left, Nat.mod_eq_of_lt hcell]
  · rw [State.toNat_exchanged_reg, Nat.add_mul_div_left _ _ (Nat.two_pow_pos _), Nat.div_eq_of_lt hcell, Nat.zero_add]

/-! ### Swap and Data -/

/-- The state after `Swap x, y`: both registers are read before either is written. -/
abbrev State.swapped (s : State) (x y : RegId) : State := (s.setReg x (s.reg y)).setReg y (s.reg x)

theorem exec_swap (x y : RegId) (s : State) : exec (.swap x y) s = .next (s.swapped x y) := rfl

theorem State.swapped_reg_left (s : State) (x y : RegId) : (s.swapped x y).reg x = s.reg y := by
  by_cases h : x = y
  · rw [h, State.reg_setReg_same]
  · rw [State.reg_setReg_ne _ _ h, State.reg_setReg_same]

theorem exec_data (d : RegId) (len : Word) (s : State) : exec (.data d len) s = execData d len s := rfl

theorem exec_data_of {s : State} (d : RegId) {len : Word} (h : s.ip + len.toNat < s.al) :
    exec (.data d len) s = (s.advanced len.toNat).result d (s.reg s.crmap.ip) := by
  have hgate := State.advanceIp_some.mpr ⟨h, rfl, rfl⟩
  rw [exec_data, execData, hgate]

theorem exec_data_fault {s : State} (d : RegId) {len : Word} (h : s.al ≤ s.ip + len.toNat) :
    FaultsWith (.data d len) s .b5 := by
  have hgate := State.advanceIp_none.mpr h
  rw [FaultsWith, exec_data, execData, hgate]

/-- Settles O52: Data writes its register after the skip, so `IP` itself may take the payload's address. -/
theorem swapAndInlineData : Obligations.SwapAndInlineData := by
  refine ⟨fun s x y => ⟨s.swapped x y, exec_swap x y s, s.swapped_reg_left x y, State.reg_setReg_same _ _ _, ?_⟩,
    fun s d len => ⟨fun h => ?_, exec_data_fault d⟩⟩
  · exact ((WritesOnly.refl _ s).andSetReg (.head _) _).andSetReg (.tail _ (.head _)) _
  · refine ⟨(s.advanced len.toNat).setReg d (s.reg s.crmap.ip), exec_data_of d h, State.reg_setReg_same _ _ _, ?_,
      ((WritesOnly.refl _ s).andSetReg (.head _) _).andSetReg (.tail _ (.head _)) _⟩
    intro hd
    exact (congrArg BitVec.toNat (State.reg_setReg_ne _ _ hd.symm)).trans (State.ip_advanced h)

/-! ### Runs of instructions -/

section Run
variable {s t : State}

theorem execAll_cons_of {i : Instr} (h : exec i s = .next t) (is : List Instr) : execAll (i :: is) s = execAll is t := by
  rw [execAll, h]

theorem execAll_append_of {is : List Instr} (h : execAll is s = .next t) (js : List Instr) :
    execAll (is ++ js) s = execAll js t := by
  induction is generalizing s with
  | nil => exact congrArg (execAll js) (Host.Outcome.next.inj h)
  | cons i is ih =>
    cases hi : exec i s with
    | next u =>
      rw [execAll_cons_of hi] at h
      rw [List.cons_append, execAll_cons_of hi, ih h]
    | fault e => simp [execAll, hi] at h
    | refused e => simp [execAll, hi] at h

end Run

/-! ### Pops behind their pushes -/

/-- Pushes of `n` bytes in all pass the stack gate and find their bytes in the arena. -/
structure State.StackRoom (s : State) (n : Nat) : Prop where
  ss_le : (s.reg s.crmap.ss).toNat ≤ (s.reg s.crmap.st).toNat
  sb_le : (s.reg s.crmap.sb).toNat ≤ (s.reg s.crmap.st).toNat
  lt_al : (s.reg s.crmap.st).toNat + n < s.al
  le_nphys : (s.reg s.crmap.st).toNat + n ≤ s.nphys

/-- The registers `ds` took the low bytes of what `rs` held, the last first; nothing else changed but the bytes at the top. -/
structure StackReversed (w : Width) (rs ds : List RegId) (s t : State) : Prop where
  values : ds.map t.regNat = rs.reverse.map fun r => s.regNat r % 2 ^ (8 * w.bytes)
  regs : RegsKept ds s t
  mem : MemKeptOutside (s.reg s.crmap.st).toNat (rs.length * w.bytes) s t
  rest : RestKept s t

section Room
variable {s : State} {n m : Nat}

theorem State.StackRoom.checkStack (h : s.StackRoom (n + m)) : s.checkStack (s.reg s.crmap.st).toNat n = none :=
  State.checkStack_none.mpr ⟨h.ss_le, h.sb_le, have := h.lt_al; by omega⟩

theorem State.StackRoom.inArena (h : s.StackRoom (n + m)) : s.inArena (s.reg s.crmap.st).toNat n :=
  Or.inr (have := h.le_nphys; by omega)

theorem State.StackRoom.toNat_pushed_reg_st (h : s.StackRoom (n + m)) (v : Word) :
    ((s.pushed n v).reg s.crmap.st).toNat = (s.reg s.crmap.st).toNat + n :=
  State.toNat_pushed_reg_st v (have := h.lt_al; by omega)

/-- A push uses up its part of the room. -/
theorem State.StackRoom.pushed (h : s.StackRoom (n + m)) (v : Word) : (s.pushed n v).StackRoom m := by
  have hst := h.toNat_pushed_reg_st v
  obtain ⟨hss, hsb, hal, hin⟩ := h
  have hss' : (s.pushed n v).reg s.crmap.ss = s.reg s.crmap.ss := State.reg_setReg_ne _ _ s.crmap.ss_ne_st
  have hsb' : (s.pushed n v).reg s.crmap.sb = s.reg s.crmap.sb := State.reg_setReg_ne _ _ s.crmap.sb_ne_st
  have hal' : (s.pushed n v).al = s.al := State.al_setReg_ST _ _
  constructor <;> rw [State.setReg_crmap, State.store_crmap, hst]
  · rw [hss']; omega
  · rw [hsb']; omega
  · rw [hal']; omega
  · rw [State.setReg_nphys, State.store_nphys]; omega

end Room

section Bracket
variable {s t : State} {w : Width} {n : Nat} {r d : RegId} {rs ds : List RegId}

/-- Lowering `ST` again finds the place of the push. -/
theorem StackReversed.top (h : StackReversed w rs ds (s.pushed w.bytes (s.reg r)) t) (hst : s.crmap.st ∉ ds) :
    t.reg s.crmap.st - BitVec.ofNat 64 w.bytes = s.reg s.crmap.st := by
  rw [h.regs _ hst, State.pushed_reg_st, BitVec.add_sub_cancel]

/-- The pushed bytes lie below everything that was pushed later. -/
theorem StackReversed.load (h : StackReversed w rs ds (s.pushed w.bytes (s.reg r)) t) (hroom : s.StackRoom (w.bytes + n)) :
    t.load (s.reg s.crmap.st).toNat w.bytes = s.regNat r % 2 ^ (8 * w.bytes) := by
  have hread : ∀ x, (s.reg s.crmap.st).toNat ≤ x → x < (s.reg s.crmap.st).toNat + w.bytes →
      t.mem.read x = (s.pushed w.bytes (s.reg r)).mem.read x := fun x _ hx =>
    h.mem x (Or.inl (hx.trans_eq (hroom.toNat_pushed_reg_st _).symm))
  rw [State.load_congr hread, State.pushed_load, State.regNat]

/-- The pop passes the gate where the push passed it. -/
theorem StackReversed.exec_pop (h : StackReversed w rs ds (s.pushed w.bytes (s.reg r)) t)
    (hroom : s.StackRoom (w.bytes + n)) (hds : ∀ q ∈ ds, q ∉ [s.crmap.st, s.crmap.ss, s.crmap.sb, s.crmap.al]) :
    exec (w.pop d) t = .next (t.popped w.bytes d) := by
  have hkept : ∀ q ∈ [s.crmap.st, s.crmap.ss, s.crmap.sb, s.crmap.al], t.reg q = (s.pushed w.bytes (s.reg r)).reg q :=
    fun q hq => h.regs q fun hqd => hds q hqd hq
  obtain ⟨⟨-, hcrmap, hnphys, -⟩, -⟩ := h.rest
  have htop := h.top fun hst => hds _ hst (.head _)
  refine exec_pop_of d ?_ ?_
  · rw [State.checkStack_congr hcrmap fun q hq => hkept q (.tail _ hq), State.checkStack_pushed, hcrmap]
    exact (congrArg (s.checkStack ·.toNat w.bytes) htop).trans hroom.checkStack
  · rw [hcrmap]
    exact (congrArg (t.inArena ·.toNat w.bytes) htop).mpr (hroom.inArena.imp_right hnphys.symm.subst)

/-- The popped register takes the value that was pushed first, and keeps what the pops before it loaded. -/
theorem StackReversed.values_bracket (h : StackReversed w rs ds (s.pushed w.bytes (s.reg r)) t)
    (hroom : s.StackRoom (w.bytes + n)) (hrs : s.crmap.st ∉ rs) (hds : s.crmap.st ∉ ds) (hnew : d ∉ ds) :
    (ds ++ [d]).map (t.popped w.bytes d).regNat = (r :: rs).reverse.map fun q => s.regNat q % 2 ^ (8 * w.bytes) := by
  have hcrmap : t.crmap = s.crmap := h.rest.1.2.1
  have hpop : ∀ q ∈ ds, (t.popped w.bytes d).regNat q = t.regNat q := fun q hq =>
    congrArg BitVec.toNat ((t.popped_writesOnly w.bytes d).1 q (by grind))
  have hpush : ∀ q ∈ rs.reverse, (s.pushed w.bytes (s.reg r)).regNat q % 2 ^ (8 * w.bytes) =
      s.regNat q % 2 ^ (8 * w.bytes) := fun q hq =>
    congrArg (·.toNat % 2 ^ (8 * w.bytes)) ((s.pushed_storesOnly w.bytes (s.reg r)).1 q (by grind))
  have hlast : (t.popped w.bytes d).regNat d = s.regNat r % 2 ^ (8 * w.bytes) := by
    rw [State.regNat, State.toNat_popped_reg, hcrmap, h.top hds, h.load hroom]
  rw [List.map_append, List.map_singleton, List.map_congr_left hpop, h.values, hlast, List.reverse_cons, List.map_append,
    List.map_singleton, List.map_congr_left hpush]

/-- One more push in front and one more pop behind. -/
theorem StackReversed.bracket (h : StackReversed w rs ds (s.pushed w.bytes (s.reg r)) t)
    (hroom : s.StackRoom (w.bytes + n)) (hrs : s.crmap.st ∉ rs) (hds : s.crmap.st ∉ ds) (hd : d ≠ s.crmap.st)
    (hnew : d ∉ ds) :
    StackReversed w (r :: rs) (ds ++ [d]) s (t.popped w.bytes d) := by
  have hcrmap : t.crmap = s.crmap := h.rest.1.2.1
  obtain ⟨hpushRegs, hpushMem, hpushRest⟩ := s.pushed_storesOnly w.bytes (s.reg r)
  obtain ⟨hpopRegs, hpopMem, hpopRest⟩ := t.popped_writesOnly w.bytes d
  refine ⟨h.values_bracket hroom hrs hds hnew, fun q hq => ?_, fun a ha => ?_, (hpushRest.trans h.rest).trans hpopRest⟩
  · by_cases hst : q = s.crmap.st
    · have htop := t.popped_reg_st w.bytes (hcrmap ▸ hd)
      rwa [hcrmap, h.top hds, ← hst] at htop
    · rw [hpopRegs q (by grind), h.regs q (by grind), hpushRegs q (by grind)]
  · rw [List.length_cons, Nat.succ_mul] at ha
    have hinner := h.mem a
    rw [State.setReg_crmap, State.store_crmap, hroom.toNat_pushed_reg_st] at hinner
    rw [hpopMem a, hinner (by omega), hpushMem a (by omega)]

end Bracket

/-- The first push is undone by the last pop, around a run of one push and one pop less. -/
theorem execAll_pushes_pops (w : Width) {rs ds : List RegId} {s : State} (hlen : ds.length = rs.length) (hnodup : ds.Nodup)
    (hds : ∀ d ∈ ds, d ∉ [s.crmap.st, s.crmap.ss, s.crmap.sb, s.crmap.al]) (hrs : s.crmap.st ∉ rs)
    (hroom : s.StackRoom (rs.length * w.bytes)) :
    ∃ t, execAll (rs.map w.psh ++ ds.map w.pop) s = .next t ∧ StackReversed w rs ds s t := by
  induction rs generalizing ds s with
  | nil =>
    rw [List.length_nil, List.length_eq_zero_iff] at hlen
    subst hlen
    exact ⟨s, rfl, rfl, RegsKept.refl [] s, fun _ _ => rfl, RestKept.refl s⟩
  | cons r rs ih =>
    obtain rfl | ⟨ds, d, rfl⟩ := ds.eq_nil_or_concat'
    · cases hlen
    rw [List.length_cons, Nat.succ_mul, Nat.add_comm] at hroom
    obtain ⟨hinner, hlast⟩ := List.forall_mem_append.mp hds
    have hd : d ≠ s.crmap.st := fun h => hlast d (.head _) (h ▸ .head _)
    obtain ⟨hnew, hnodup⟩ := List.nodup_cons.mp (List.nodup_append_comm.mp hnodup)
    have hrs' : s.crmap.st ∉ rs := fun h => hrs (.tail _ h)
    obtain ⟨t, hrun, hrev⟩ := ih (s := s.pushed w.bytes (s.reg r)) (by simpa using hlen) hnodup hinner hrs'
      (hroom.pushed (s.reg r))
    refine ⟨t.popped w.bytes d, ?_, hrev.bracket hroom hrs' (fun hst => hinner _ hst (.head _)) hd hnew⟩
    calc execAll ((r :: rs).map w.psh ++ (ds ++ [d]).map w.pop) s
        = execAll (w.psh r :: ((rs.map w.psh ++ ds.map w.pop) ++ [w.pop d])) s := by simp
      _ = execAll ((rs.map w.psh ++ ds.map w.pop) ++ [w.pop d]) (s.pushed w.bytes (s.reg r)) :=
          execAll_cons_of (exec_psh_of r hroom.checkStack hroom.inArena) _
      _ = execAll [w.pop d] t := execAll_append_of hrun _
      _ = .next (t.popped w.bytes d) := execAll_cons_of (hrev.exec_pop hroom hinner) _

/-- Settles O50, by induction on the pushed registers; `ST` is among the registers kept. -/
theorem pushesThenPopsReverse : Obligations.PushesThenPopsReverse := by
  intro s w rs ds hlen hnodup hds hrs hss hsb hal hin
  obtain ⟨t, hrun, hvalues, hregs, hmem, hrest⟩ := execAll_pushes_pops w hlen hnodup hds hrs ⟨hss, hsb, hal, hin⟩
  exact ⟨t, hrun, hregs _ fun hst => hds _ hst (.head _), hvalues, hregs, hmem, hrest⟩

end Sys2Proof.Machine
end

section
/-! PROOF of O23, O24, O9 (60_exceptions.md R260 to R272, R280): which fault each instruction may take, in which state it takes
it, and that nothing but the status differs in that state. -/

namespace Sys2Proof.Machine

/-! ### The status as before, or a fault taken -/

/-- The status is as in `s`, or `t` is the state `b` after one of the faults `cs` was taken in it. -/
def StatusKeptOrRaised (cs : List FaultCode) (b s t : State) : Prop := t.status = s.status ∨ ∃ c ∈ cs, t = b.raise c

/-- The state in which an instruction takes its fault: a pop has lowered `ST` by then (R269). -/
def faultBase (i : Instr) (s : State) : State :=
  match popWidth i with
  | none => s
  | some w => s.lowered w

theorem faultBase_of_none {i : Instr} (h : popWidth i = none) (s : State) : faultBase i s = s := by
  rw [faultBase, h]

theorem faultBase_of_some {i : Instr} {w : Nat} (h : popWidth i = some w) (s : State) : faultBase i s = s.lowered w := by
  rw [faultBase, h]

theorem State.jumpIf_status (s : State) (taken : Bool) (v : Word) : (s.jumpIf taken v).status = s.status := by
  rcases s.jumpIf_cases taken v with h | h
  · rw [h, State.jump_status]
  · rw [h]

section Shapes
variable {cs : List FaultCode} {b s : State} {k : Result} {p n : Nat}

theorem statusKept_next {t : State} (h : t.status = s.status) : EveryNext (StatusKeptOrRaised cs b s) (.next t) :=
  .next (Or.inl h)

theorem statusKept_result (d : RegId) (v : Word) : EveryNext (StatusKeptOrRaised cs b s) (s.result d v) :=
  statusKept_next rfl

/-- The data gate raises 0xb1 only (R261). -/
theorem statusKept_checkedData (hk : EveryNext (StatusKeptOrRaised [.b1] s s) k) :
    EveryNext (StatusKeptOrRaised [.b1] s s) (s.gated (s.checkData p n) k) := by
  intro t h
  rcases State.gated_next h with ⟨c, hgate, rfl⟩ | ⟨-, hnext⟩
  · exact Or.inr ⟨c, List.mem_singleton.mpr (State.checkData_some.mp hgate).1, rfl⟩
  · exact hk t hnext

theorem statusKept_withData (hk : EveryNext (StatusKeptOrRaised [.b1] s s) k) :
    EveryNext (StatusKeptOrRaised [.b1] s s) (s.withData p n k) := statusKept_checkedData (.access hk)

/-- The stack gate raises 0xb2, 0xb3 or 0xb4 only, in the state it is asked in (R262 to R264). -/
theorem statusKept_withStack (hk : EveryNext (StatusKeptOrRaised [.b2, .b3, .b4] b s) k) :
    EveryNext (StatusKeptOrRaised [.b2, .b3, .b4] b s) (b.withStack p n k) := by
  intro t h
  rcases State.withStack_next h with ⟨c, hgate, rfl⟩ | ⟨-, -, hnext⟩
  · exact Or.inr ⟨c, State.checkStack_some_mem hgate, rfl⟩
  · exact hk t hnext

theorem statusKept_pushReg (w : Nat) (r : RegId) :
    EveryNext (StatusKeptOrRaised [.b2, .b3, .b4] s s) (s.pushReg w r) := statusKept_withStack (statusKept_next rfl)

theorem statusKept_popReg (w : Nat) (d : RegId) :
    EveryNext (StatusKeptOrRaised [.b2, .b3, .b4] (s.lowered w) s) (s.popReg w d) :=
  statusKept_withStack (statusKept_next rfl)

/-- A division raises 0xc2 only (R267). -/
theorem statusKept_divide (q r : RegId) (y quo rem : Word) :
    EveryNext (StatusKeptOrRaised [.c2] s s) (s.divide q r y quo rem) := by
  intro t h
  rcases State.divide_next h with ⟨-, rfl⟩ | ⟨-, rfl⟩
  · exact Or.inr ⟨.c2, .head _, rfl⟩
  · exact Or.inl rfl

end Shapes

/-! ### The instructions with a shape of their own -/

theorem statusKept_execData (d : RegId) (len : Word) (s : State) :
    EveryNext (StatusKeptOrRaised [.b5] s s) (execData d len s) := by
  unfold execData
  split
  case h_1 => exact .next (Or.inr ⟨.b5, .head _, rfl⟩)
  case h_2 addr s' hadv =>
    obtain ⟨-, -, rfl⟩ := State.advanceIp_some.mp hadv
    exact statusKept_next rfl

theorem statusKept_execFin (d h b l o c : RegId) (s : State) :
    EveryNext (StatusKeptOrRaised [.b1] s s) (execFin d h b l o c s) := by
  refine statusKept_checkedData ?_
  split
  · exact .refused _
  · dsimp only
    split
    · exact statusKept_next rfl
    · exact .refused _

theorem statusKept_execFout (d h b l o c : RegId) (s : State) :
    EveryNext (StatusKeptOrRaised [.b1] s s) (execFout d h b l o c s) := by
  refine statusKept_checkedData ?_
  split
  · exact statusKept_result d _
  · exact .access (statusKept_next rfl)

/-! ### Every instruction -/

/-- But for Exit and HTL an instruction keeps the status or takes one of the faults of its rule, a pop with `ST` lowered. -/
theorem exec_statusKeptOrRaised {i : Instr} (hexit : i ≠ .exit) (hhtl : i ≠ .htl) (s : State) :
    EveryNext (StatusKeptOrRaised (mayRaise i) (faultBase i s) s) (exec i s) := by
  cases i with
  | exit => exact absurd rfl hexit
  | htl => exact absurd rfl hhtl
  | nop | goto | swap | signF => exact statusKept_next rfl
  | ifGo | ifNG | loop => exact statusKept_next (State.jumpIf_status _ _ _)
  | call | ret => exact statusKept_withStack (statusKept_next rfl)
  | data d len => exact statusKept_execData d len s
  | div q r | iDiv q r => exact statusKept_divide q r _ _ _
  | svIp d | add d | sub d | mul d | inc d | dec d | iMul d | iThan d | iLess d | iMore d | iLMov d | iRMov d | than d
  | less d | more d | not d | and d | or d | xor d | lMov d | rMov d | rol d | ror d | complement d | toBool d
  | mov1 d | mov2 d | mov4 d | mov8 d | set1 d | set2 d | set4 d | set8 d | lea d | bcdT d | bcdF d | signT d =>
    exact statusKept_result d _
  | get1 | get2 | get4 | get8 | scas1 | scas2 | scas4 | scas8 => exact statusKept_withData (statusKept_result _ _)
  | wrt1 | wrt2 | wrt4 | wrt8 | xchg1 | xchg2 | xchg4 | xchg8 => exact statusKept_withData (statusKept_next rfl)
  | psh1 | psh2 | psh4 | psh8 => exact statusKept_pushReg _ _
  | pop1 | pop2 | pop4 | pop8 => exact statusKept_popReg _ _
  | movs | cmps | fopen => exact statusKept_checkedData (statusKept_checkedData (.access (.access (statusKept_next rfl))))
  | fin d h b l o c => exact statusKept_execFin d h b l o c s
  | fout d h b l o c => exact statusKept_execFout d h b l o c s

/-- Settles O23: Exit and HTL by what they write, the others by `exec_statusKeptOrRaised`. -/
theorem statusChangesOnlyForItsCauses : Obligations.StatusChangesOnlyForItsCauses := by
  intro i s t h
  rcases eq_or_ne i .exit with rfl | hexit
  · cases h
    exact Or.inr (Or.inl ⟨rfl, rfl⟩)
  rcases eq_or_ne i .htl with rfl | hhtl
  · cases h
    exact Or.inr (Or.inr (Or.inl ⟨rfl, rfl⟩))
  rcases exec_statusKeptOrRaised hexit hhtl s t h with hkept | ⟨c, hc, rfl⟩
  · exact Or.inl hkept
  · exact Or.inr (Or.inr (Or.inr ⟨c, hc, rfl⟩))

/-! ### The state a fault leaves -/

/-- An instruction of a running core that ends `faulted` took a fault of its rule, since Exit and HTL end otherwise. -/
theorem exec_faulted {i : Instr} {s t : State} {c : FaultCode} (hs : s.status = .running) (h : exec i s = .next t)
    (ht : t.status = .faulted c) : ∃ c', t = (faultBase i s).raise c' := by
  have hexit : i ≠ .exit := by
    rintro rfl
    cases h
    cases ht
  have hhtl : i ≠ .htl := by
    rintro rfl
    cases h
    cases ht
  rcases exec_statusKeptOrRaised hexit hhtl s t h with hkept | ⟨c', -, ht'⟩
  · rw [hkept, hs] at ht
    cases ht
  · exact ⟨c', ht'⟩

/-- Lowering `ST`, which pops alone do, is the whole difference between `s` and the state a fault is taken in. -/
theorem faultBase_writesOnly (i : Instr) (s : State) : WritesOnly [s.crmap.st] s (faultBase i s) := by
  unfold faultBase
  split
  · exact WritesOnly.refl _ s
  · exact WritesOnly.setReg s _ _

/-- Settles O24. -/
theorem faultLeavesOnlyALoweredTop : Obligations.FaultLeavesOnlyALoweredTop := by
  intro i s t c hs h ht
  obtain ⟨c', rfl⟩ := exec_faulted hs h ht
  obtain ⟨hregs, hmem, hlaunch, -, hlog⟩ := faultBase_writesOnly i s
  refine ⟨hmem, hlaunch, hlog, hregs, fun hnone => ?_, fun w hsome => ?_⟩
  · rw [faultBase_of_none hnone, State.raise_reg]
  · rw [faultBase_of_some hsome, State.raise_reg, State.reg_setReg_same]

/-- Settles O9: `faulted` is a terminal status (R272). -/
theorem faultEntryChangesOnlyTheStatus : Obligations.FaultEntryChangesOnlyTheStatus := by
  intro s c
  obtain ⟨hlaunch, hlog⟩ := hostKept_raise s c
  refine ⟨s.raise_status c, fun r _ => s.raise_reg c r, fun _ => rfl, hlaunch, hlog, fun t h => ?_⟩
  have hterminal : (s.raise c).status ≠ .running := by simp
  rw [step_of_terminal hterminal] at h
  cases h

end Sys2Proof.Machine
end

section
/-! PROOF of O36, O45, O49 (60_exceptions.md R261 to R264, R267, R269): a zero divisor and a failing gate take the fault in the
state the operation found, a pop in the one with `ST` lowered. -/

namespace Sys2Proof.Machine

/-! ### Division -/

theorem State.divide_zero (s : State) (q r : RegId) {y : Word} (quo rem : Word) (h : y = 0#64) :
    s.divide q r y quo rem = .next (s.raise .c2) := if_pos h

/-- The remainder rounded toward zero is the signed remainder of words (R142). -/
theorem srem_eq_ofInt (x y : Word) : x.srem y = BitVec.ofInt 64 (x.toInt.tmod y.toInt) := by
  rw [← BitVec.toInt_srem, BitVec.ofInt_toInt]

/-- Settles O36: of two writes to one register the second, the remainder, stays. -/
theorem divisionByZeroFaults : Obligations.DivisionByZeroFaults := by
  refine fun s q r a b => ⟨fun hb => ⟨s.divide_zero q r _ _ hb, s.divide_zero q r _ _ hb⟩, fun hb => .of_result ?_⟩
  rw [exec_iDiv_of q q a hb, State.divided, State.setReg_setReg, srem_eq_ofInt]
  rfl

/-! ### The data gate -/

section DataGate
variable {s : State} {p n : Nat}

theorem State.gated_checkData_fault (k : Result) (h : s.al ≤ p + n) :
    s.gated (s.checkData p n) k = .next (s.raise .b1) := by
  rw [State.checkData_some.mpr ⟨rfl, h⟩, State.gated_some]

/-- The two-range forms take the same fault whichever range is refused. -/
theorem State.twoRanges_fault {q m : Nat} (k : Result) (h : s.al ≤ p + n ∨ s.al ≤ q + m) :
    s.gated (s.checkData p n) (s.gated (s.checkData q m) k) = .next (s.raise .b1) := by
  rcases Nat.lt_or_ge (p + n) s.al with hpass | hfail
  · rw [State.gated_checkData _ hpass]
    exact State.gated_checkData_fault k (h.resolve_left (Nat.not_le.mpr hpass))
  · exact State.gated_checkData_fault _ hfail

end DataGate

theorem sized_fault (s : State) (w : Width) (x a : RegId) (h : s.al ≤ s.regNat a + w.bytes) :
    FaultsWith (w.get x a) s .b1 ∧ FaultsWith (w.wrt a x) s .b1 ∧ FaultsWith (w.xchg x a) s .b1 := by
  simp only [FaultsWith, exec_get, exec_wrt, exec_xchg]
  exact ⟨State.withData_fault _ h, State.withData_fault _ h, State.withData_fault _ h⟩

theorem scas_fault (s : State) (w : Width) (x a n v : RegId) (h : s.al ≤ s.regNat a + s.regNat n * w.bytes) :
    FaultsWith (w.scas x a n v) s .b1 :=
  (exec_scas w x a n v s).trans (State.withData_fault _ h)

/-- Settles O45: MOVS gates its source first, CMPS and FOPEN their ranges in operand order. -/
theorem dataGateFailureFaults : Obligations.DataGateFailureFaults := by
  refine fun s w x a b _ n v => ⟨sized_fault s w x a, fun h => ?twoRanges, scas_fault s w x a n v, fun h => ?host⟩
  case twoRanges => exact ⟨State.twoRanges_fault _ h.symm, State.twoRanges_fault _ h⟩
  case host =>
    exact ⟨State.twoRanges_fault _ (Or.inl h), State.twoRanges_fault _ (Or.inr h), State.gated_checkData_fault _ h,
      State.gated_checkData_fault _ h⟩

/-! ### The stack gate -/

/-- Settles O49: the gate of a pop is asked in the state with `ST` lowered, which moves none of its bounds. -/
theorem stackGateFailureFaults : Obligations.StackGateFailureFaults := by
  refine fun s w r c => ⟨fun h => ?psh, fun h => ?call, fun h => ?pop, fun h => ?ret⟩
  case psh => exact (exec_psh w r s).trans (State.push_fault _ h)
  case call => exact (exec_call r s).trans (State.push_fault _ h)
  case pop => exact (exec_pop w r s).trans (State.pop_fault _ h)
  case ret => exact (exec_ret s).trans (State.pop_fault _ h)

end Sys2Proof.Machine
end

section
/-! PROOF of O53, O54, O55 (47_block.md R220 to R226): the forward copy and the scan by induction on the count, the comparison
by the common part before the first difference. -/

namespace Sys2Proof.Machine

/-! ### Two ranges that pass the gate -/

/-- The two-range forms go on where both ranges pass the gate and exist. -/
theorem State.twoRanges_of {s : State} {p n q m : Nat} (k : Result) (hp : p + n < s.al) (hq : q + m < s.al)
    (hpin : s.inArena p n) (hqin : s.inArena q m) :
    s.gated (s.checkData p n) (s.gated (s.checkData q m) (s.access p n (s.access q m k))) = k := by
  rw [State.gated_checkData _ hp, State.gated_checkData _ hq, State.access_of _ hpin, State.access_of _ hqin]

/-! ### MOVS -/

/-- A destination not above its source is written only where the source was read before. -/
theorem Memory.read_copyForward_of_le (m : Memory) {dst src n i : Nat} (h : dst ≤ src) (hi : i < n) :
    (m.copyForward dst src n).read (dst + i) = m.read (src + i) := by
  induction n generalizing m dst src i with
  | zero => omega
  | succ n ih =>
    rw [Memory.copyForward]
    cases i with
    | zero =>
      rw [Memory.read_copyForward_outside _ _ _ _ _ (by omega)]
      exact Memory.read_write_same _ _ _
    | succ i =>
      rw [show dst + (i + 1) = dst + 1 + i by omega, ih _ (Nat.succ_le_succ h) (by omega),
        Memory.read_write_ne _ _ (by omega), show src + 1 + i = src + (i + 1) by omega]

/-- A destination `k` bytes above its source repeats the first `k` bytes: the byte at the destination was copied from the
source before it is read in its turn. -/
theorem Memory.read_copyForward_add (m : Memory) (src : Nat) {k n i : Nat} (hk : 0 < k) (hi : i < n) :
    (m.copyForward (src + k) src n).read (src + k + i) = m.read (src + i % k) := by
  induction n generalizing m src i with
  | zero => omega
  | succ n ih =>
    rw [Memory.copyForward]
    cases i with
    | zero =>
      rw [Memory.read_copyForward_outside _ _ _ _ _ (by omega), Nat.zero_mod]
      exact Memory.read_write_same _ _ _
    | succ i =>
      rw [show src + k + (i + 1) = src + 1 + k + i by omega, show src + k + 1 = src + 1 + k by omega, ih _ _ (by omega)]
      have hlt := Nat.mod_lt i hk
      rcases Nat.lt_or_ge (i % k + 1) k with hinside | hwrap
      · have hmod : (i + 1) % k = i % k + 1 := by rw [← Nat.mod_add_mod, Nat.mod_eq_of_lt hinside]
        rw [hmod, Memory.read_write_ne _ _ (by omega), show src + 1 + i % k = src + (i % k + 1) by omega]
      · have hend : i % k + 1 = k := by omega
        have hmod : (i + 1) % k = 0 := by rw [← Nat.mod_add_mod, hend, Nat.mod_self]
        rw [hmod, show src + 1 + i % k = src + k by omega, Memory.read_write_same, Nat.add_zero]

/-- The state after a MOVS. -/
abbrev State.copied (s : State) (d r n : RegId) : State :=
  { s with mem := s.mem.copyForward (s.regNat d) (s.regNat r) (s.regNat n) }

theorem State.copied_storesOnly (s : State) (d r n : RegId) :
    StoresOnly [] (s.regNat d) (s.regNat n) s (s.copied d r n) :=
  ⟨fun _ _ => rfl, fun _ ha => Memory.read_copyForward_outside _ _ _ _ _ ha, RestKept.refl s⟩

/-- Settles O53: the two orders of the ranges. -/
theorem movsCopiesForward : Obligations.MovsCopiesForward := by
  intro s d r n dst src cnt hsrc hdst hsrcIn hdstIn
  have hexec : exec (.movs d r n) s = .next (s.copied d r n) :=
    State.twoRanges_of _ hsrc hdst (Or.inr hsrcIn) (Or.inr hdstIn)
  refine ⟨s.copied d r n, hexec, s.copied_storesOnly d r n, fun h i hi => ?_, fun h i hi => ?_⟩
  · exact s.mem.read_copyForward_of_le h hi
  · have hcopy := s.mem.read_copyForward_add src (Nat.sub_pos_of_lt h) hi
    rwa [Nat.add_sub_cancel' h.le] at hcopy

/-! ### CMPS -/

/-- An equal part before the rest decides nothing (R222). -/
theorem compareBytes_append (xs us vs : List Byte) : compareBytes (xs ++ us) (xs ++ vs) = compareBytes us vs := by
  induction xs with
  | nil => rfl
  | cons x xs ih =>
    rw [List.cons_append, List.cons_append, compareBytes, if_neg (lt_irrefl _), if_neg (lt_irrefl _), ih]

theorem compareBytes_self (xs : List Byte) : compareBytes xs xs = 0#64 := by
  have happend := compareBytes_append xs [] []
  rwa [List.append_nil] at happend

theorem compareBytes_of_lt {x y : Byte} (xs ys : List Byte) (h : x.toNat < y.toNat) :
    compareBytes (x :: xs) (y :: ys) = 0xFFFFFFFFFFFFFFFF#64 := if_pos h

theorem compareBytes_of_gt {x y : Byte} (xs ys : List Byte) (h : y.toNat < x.toNat) :
    compareBytes (x :: xs) (y :: ys) = 1#64 := (if_neg h.not_gt).trans (if_pos h)

section Compare
variable {m : Memory} {p q n j : Nat}

theorem Memory.readBytes_eq_of_reads (h : ∀ i, i < n → m.read (p + i) = m.read (q + i)) :
    m.readBytes p n = m.readBytes q n := by
  apply List.ext_getElem
  · rw [Memory.length_readBytes, Memory.length_readBytes]
  · intro i hi _
    rw [Memory.length_readBytes] at hi
    rw [Memory.getElem_readBytes, Memory.getElem_readBytes, h i hi]

theorem Memory.readBytes_split (m : Memory) (p : Nat) (hj : j < n) :
    m.readBytes p n = m.readBytes p j ++ m.read (p + j) :: m.readBytes (p + j + 1) (n - j - 1) := by
  obtain ⟨k, rfl⟩ := Nat.exists_eq_add_of_lt hj
  rw [show j + k + 1 - j - 1 = k by omega, Nat.add_assoc, Memory.readBytes_add, Memory.readBytes]

/-- Of two byte strings equal before `j` the bytes at `j` and what is behind them are compared. -/
theorem compareBytes_readBytes (hj : j < n) (h : ∀ i, i < j → m.read (p + i) = m.read (q + i)) :
    compareBytes (m.readBytes p n) (m.readBytes q n) =
      compareBytes (m.read (p + j) :: m.readBytes (p + j + 1) (n - j - 1))
        (m.read (q + j) :: m.readBytes (q + j + 1) (n - j - 1)) := by
  rw [m.readBytes_split p hj, m.readBytes_split q hj, Memory.readBytes_eq_of_reads h, compareBytes_append]

end Compare

theorem exec_cmps_of {s : State} {a b n : RegId} (d : RegId) (ha : s.regNat a + s.regNat n < s.al)
    (hb : s.regNat b + s.regNat n < s.al) (hain : s.inArena (s.regNat a) (s.regNat n))
    (hbin : s.inArena (s.regNat b) (s.regNat n)) :
    exec (.cmps d a b n) s = s.result d
      (compareBytes (s.mem.readBytes (s.regNat a) (s.regNat n)) (s.mem.readBytes (s.regNat b) (s.regNat n))) :=
  State.twoRanges_of _ ha hb hain hbin

/-- Settles O54: equal ranges are equal byte strings; else the bytes at the first difference decide. -/
theorem cmpsDecidesAtTheFirstDifference : Obligations.CmpsDecidesAtTheFirstDifference := by
  intro s d a b n pa pb cnt ha hb hain hbin
  obtain ⟨t, hexec, hval, hframe⟩ := ComputesInto.of_result (exec_cmps_of d ha hb (Or.inr hain) (Or.inr hbin))
  refine ⟨t, hexec, hframe, fun heq => ?_, fun j hj heq => ⟨fun hlt => ?_, fun hgt => ?_⟩⟩
  · rw [hval, Memory.readBytes_eq_of_reads heq, compareBytes_self]
  · rw [hval, compareBytes_readBytes hj heq, compareBytes_of_lt _ _ hlt]
  · rw [hval, compareBytes_readBytes hj heq, compareBytes_of_gt _ _ hgt]

/-! ### SCAS -/

section Scan
variable {s : State} {w key p n : Nat}

/-- One element of the scan: found at its index, or the scan goes on behind it (R223). -/
theorem scanFrom_succ (s : State) (w key p i n : Nat) :
    scanFrom s.mem w key p i (n + 1) =
      if s.load p w = key then BitVec.ofNat 64 i else scanFrom s.mem w key (p + w) (i + 1) n := rfl

theorem load_next_element (s : State) (p w k : Nat) : s.load (p + w + k * w) w = s.load (p + (k + 1) * w) w := by
  rw [Nat.succ_mul, Nat.add_assoc, Nat.add_comm w]

theorem scanFrom_of_absent (i : Nat) (h : ∀ k, k < n → s.load (p + k * w) w ≠ key) :
    scanFrom s.mem w key p i n = Word.minusOne := by
  induction n generalizing p i with
  | zero => rfl
  | succ n ih =>
    have hhead : s.load p w ≠ key := by simpa using h 0 (Nat.succ_pos n)
    rw [scanFrom_succ, if_neg hhead]
    exact ih _ fun k hk => load_next_element s p w k ▸ h (k + 1) (Nat.succ_lt_succ hk)

theorem scanFrom_of_first {j : Nat} (i : Nat) (hj : j < n) (hfound : s.load (p + j * w) w = key)
    (hbefore : ∀ k, k < j → s.load (p + k * w) w ≠ key) :
    scanFrom s.mem w key p i n = BitVec.ofNat 64 (i + j) := by
  induction n generalizing p i j with
  | zero => omega
  | succ n ih =>
    cases j with
    | zero =>
      rw [Nat.zero_mul, Nat.add_zero] at hfound
      rw [scanFrom_succ, if_pos hfound, Nat.add_zero]
    | succ j =>
      have hhead : s.load p w ≠ key := by simpa using hbefore 0 (Nat.succ_pos j)
      rw [← load_next_element] at hfound
      rw [scanFrom_succ, if_neg hhead, ih _ (Nat.lt_of_succ_lt_succ hj) hfound fun k hk =>
        load_next_element s p w k ▸ hbefore (k + 1) (Nat.succ_lt_succ hk), Nat.add_right_comm, Nat.add_assoc]

end Scan

theorem exec_scas_of {s : State} {w : Width} {a n : RegId} (d v : RegId)
    (hg : s.regNat a + s.regNat n * w.bytes < s.al) (hin : s.inArena (s.regNat a) (s.regNat n * w.bytes)) :
    exec (w.scas d a n v) s = s.result d
      (scanFrom s.mem w.bytes (s.regNat v % 2 ^ (8 * w.bytes)) (s.regNat a) 0 (s.regNat n)) := by
  rw [← pow256_eq]
  exact (exec_scas w d a n v s).trans (State.withData_of _ hg hin)

/-- Settles O55: an index below the count, a register's value, is read back from its word. -/
theorem scasFindsTheFirstMatch : Obligations.ScasFindsTheFirstMatch := by
  intro s w d a n v p cnt key hg hin
  obtain ⟨t, hexec, hval, hframe⟩ := ComputesInto.of_result (exec_scas_of d v hg (Or.inr hin))
  refine ⟨t, hexec, hframe, fun habsent => ?_, fun j hj hfound hbefore => ?_⟩
  · rw [hval, scanFrom_of_absent 0 habsent]
    rfl
  · rw [hval, scanFrom_of_first 0 hj hfound hbefore, Nat.zero_add, BitVec.toNat_ofNat,
      Nat.mod_eq_of_lt (hj.trans (s.reg n).isLt)]

end Sys2Proof.Machine
end

section
/-! PROOF of O56, O57 (48_convert.md R230 to R235): both BCD conversions are one change of base, digit by digit, whose sum and
inverse are proved once; the sign pair by the sign of the word. -/

namespace Sys2Proof.Machine

/-! ### The low digits of a number, read in another base -/

/-- The number that the low `n` digits of `x` in base `b` spell in base `c`. -/
def rebase (b c : Nat) : Nat → Nat → Nat
  | 0, _ => 0
  | n + 1, x => x % b + c * rebase b c n (x / b)

theorem bcdToNat_eq_rebase (n x : Nat) : bcdToNat n x = rebase 16 10 n x := by
  induction n generalizing x with
  | zero => rfl
  | succ n ih => rw [bcdToNat, rebase, ih]

theorem natToBcd_eq_rebase (n x : Nat) : natToBcd n x = rebase 10 16 n x := by
  induction n generalizing x with
  | zero => rfl
  | succ n ih => rw [natToBcd, rebase, ih]

theorem rebase_eq_sum (b c n x : Nat) : rebase b c n x = ∑ i ∈ Finset.range n, x / b ^ i % b * c ^ i := by
  induction n generalizing x with
  | zero => rfl
  | succ n ih =>
    have digit : ∀ i, c * (x / b / b ^ i % b * c ^ i) = x / b ^ (i + 1) % b * c ^ (i + 1) := fun i => by
      rw [Nat.div_div_eq_div_mul, ← pow_succ', pow_succ' c]
      ring
    rw [rebase, ih, Finset.mul_sum, Finset.sum_congr rfl fun i _ => digit i, Finset.sum_range_succ', pow_zero, pow_zero,
      Nat.div_one, Nat.mul_one, Nat.add_comm]

section Rebase
variable {b c n x : Nat}

/-- The digits behind the lowest one. -/
theorem digits_div (h : ∀ i, i < n + 1 → x / b ^ i % b < c) : x % b < c ∧ ∀ i, i < n → x / b / b ^ i % b < c := by
  refine ⟨by simpa using h 0 (Nat.succ_pos n), fun i hi => ?_⟩
  rw [Nat.div_div_eq_div_mul, ← pow_succ']
  exact h (i + 1) (Nat.succ_lt_succ hi)

/-- Digits below the new base spell a number of as many digits. -/
theorem rebase_lt (h : ∀ i, i < n → x / b ^ i % b < c) : rebase b c n x < c ^ n := by
  induction n generalizing x with
  | zero => exact Nat.one_pos
  | succ n ih =>
    obtain ⟨hlow, hrest⟩ := digits_div h
    have hscaled : c * (rebase b c n (x / b) + 1) ≤ c * c ^ n := Nat.mul_le_mul_left c (ih hrest)
    rw [Nat.mul_succ] at hscaled
    rw [rebase, pow_succ']
    omega

/-- Reading the digits back in the first base gives the low `n` digits again. -/
theorem rebase_rebase (h : ∀ i, i < n → x / b ^ i % b < c) : rebase c b n (rebase b c n x) = x % b ^ n := by
  induction n generalizing x with
  | zero => exact (Nat.mod_one x).symm
  | succ n ih =>
    obtain ⟨hlow, hrest⟩ := digits_div h
    rw [rebase, rebase, Nat.add_mul_mod_self_left, Nat.mod_eq_of_lt hlow, Nat.add_mul_div_left _ _ (by omega),
      Nat.div_eq_of_lt hlow, Nat.zero_add, ih hrest, pow_succ', Nat.mod_mul]

end Rebase

/-! ### BcdT and BcdF -/

theorem bcdToWord_eq (x : Word) : bcdToWord x = BitVec.ofNat 64 (rebase 16 10 16 x.toNat) := by
  rw [bcdToWord, bcdToNat_eq_rebase]

theorem wordToBcd_eq (x : Word) : wordToBcd x = BitVec.ofNat 64 (rebase 10 16 16 x.toNat) := by
  rw [wordToBcd, natToBcd_eq_rebase]

/-- A decimal digit is below 16. -/
theorem decimalDigit_lt (x i : Nat) : x / 10 ^ i % 10 < 16 := (Nat.mod_lt _ (by decide)).trans (by decide)

/-- Sixteen hexadecimal digits fill a word. -/
theorem toNat_wordToBcd (x : Word) : (wordToBcd x).toNat = rebase 10 16 16 x.toNat := by
  have hlt : rebase 10 16 16 x.toNat < 16 ^ 16 := rebase_lt fun i _ => decimalDigit_lt _ i
  rw [wordToBcd_eq, BitVec.toNat_ofNat]
  exact Nat.mod_eq_of_lt hlt

/-- Sixteen decimal digits fit a word. -/
theorem toNat_bcdToWord {x : Word} (h : ∀ i, i < 16 → x.toNat / 16 ^ i % 16 < 10) :
    (bcdToWord x).toNat = rebase 16 10 16 x.toNat := by
  have hlt : rebase 16 10 16 x.toNat < 10 ^ 16 := rebase_lt h
  rw [bcdToWord_eq, BitVec.toNat_ofNat, Nat.mod_eq_of_lt (hlt.trans (by decide))]

theorem toNat_bcdToWord_wordToBcd (x : Word) : (bcdToWord (wordToBcd x)).toNat = x.toNat % 10 ^ 16 := by
  have hback : rebase 16 10 16 (wordToBcd x).toNat = x.toNat % 10 ^ 16 := by
    rw [toNat_wordToBcd, rebase_rebase fun i _ => decimalDigit_lt _ i]
  have hlt : x.toNat % 10 ^ 16 < 2 ^ 64 := (Nat.mod_lt _ (by decide)).trans (by decide)
  rw [bcdToWord_eq, hback, BitVec.toNat_ofNat, Nat.mod_eq_of_lt hlt]

theorem wordToBcd_bcdToWord {x : Word} (h : ∀ i, i < 16 → x.toNat / 16 ^ i % 16 < 10) :
    wordToBcd (bcdToWord x) = x := by
  refine BitVec.eq_of_toNat_eq ?_
  rw [toNat_wordToBcd, toNat_bcdToWord h, rebase_rebase h]
  exact Nat.mod_eq_of_lt x.isLt

theorem exec_bcdT (d a : RegId) (s : State) : exec (.bcdT d a) s = s.result d (bcdToWord (s.reg a)) := rfl

theorem exec_bcdF (d a : RegId) (s : State) : exec (.bcdF d a) s = s.result d (wordToBcd (s.reg a)) := rfl

/-! ### SignT and SignF -/

theorem signToNative_eq (m f : Word) :
    signToNative m f = if f = 0#64 then BitVec.ofInt 64 (-(m.toNat : Int)) else m := by
  have hneg : 0#64 - m = BitVec.ofInt 64 (-(m.toNat : Int)) := by
    rw [sub_eq_ofInt]
    simp
  rw [signToNative, if_congr truthy_iff rfl rfl, ite_not, hneg]

/-- The magnitude of every word is a word, that of `-2^63` too (R234). -/
theorem toNat_nativeMagnitude (x : Word) : (nativeMagnitude x).toNat = x.toInt.natAbs := by
  have hx := x.isLt
  have hcond := BitVec.toInt_eq_toNat_cond x
  unfold nativeMagnitude Word.signed
  split at hcond
  · rw [if_pos (by omega)]
    omega
  · rw [if_neg (by omega), BitVec.toNat_sub]
    simp only [BitVec.toNat_ofNat]
    omega

/-- The flag is nonzero for zero and positive words (R234). -/
theorem truthy_nativeFlag (x : Word) : truthy (nativeFlag x) = decide (0 ≤ x.signed) := by
  unfold nativeFlag
  cases decide (0 ≤ x.signed) with
  | true => rfl
  | false => rfl

/-- The pair of magnitude and flag gives the word back, since negating twice does (R235). -/
theorem signToNative_native (x : Word) : signToNative (nativeMagnitude x) (nativeFlag x) = x := by
  unfold signToNative
  rw [truthy_nativeFlag]
  unfold nativeMagnitude
  by_cases h : 0 ≤ x.signed
  · simp only [h, decide_true, if_true]
  · simp only [h, decide_false, Bool.false_eq_true, if_false, BitVec.zero_sub, BitVec.neg_neg]

theorem exec_signT (d m f : RegId) (s : State) :
    exec (.signT d m f) s = s.result d (signToNative (s.reg m) (s.reg f)) := rfl

/-- The state after a SignF, the flag written last. -/
abbrev State.signSplit (s : State) (m f a : RegId) : State :=
  (s.setReg m (nativeMagnitude (s.reg a))).setReg f (nativeFlag (s.reg a))

theorem exec_signF (m f a : RegId) (s : State) : exec (.signF m f a) s = .next (s.signSplit m f a) := rfl

theorem State.signSplit_reg_flag (s : State) (m f a : RegId) : (s.signSplit m f a).reg f = nativeFlag (s.reg a) :=
  State.reg_setReg_same _ _ _

theorem State.signSplit_reg_magnitude (s : State) {m f : RegId} (a : RegId) (h : m ≠ f) :
    (s.signSplit m f a).reg m = nativeMagnitude (s.reg a) :=
  (State.reg_setReg_ne _ _ h).trans (State.reg_setReg_same _ _ _)

theorem State.signSplit_writesOnly (s : State) (m f a : RegId) : WritesOnly [m, f] s (s.signSplit m f a) :=
  ((WritesOnly.refl _ s).andSetReg (.head _) _).andSetReg (.tail _ (.head _)) _

/-! ### The obligations -/

/-- Settles O56: the sums by `rebase_eq_sum`. -/
theorem conversionsFollowTheirSums : Obligations.ConversionsFollowTheirSums := by
  intro s d a f
  refine ⟨.of_result ?toBinary, .of_result ?toBcd, .of_result ?toNative, s.signSplit d f a, exec_signF d f a s,
    s.signSplit_writesOnly d f a, fun hdf => ?magnitude, ?flag⟩
  case toBinary =>
    have hbase : ∀ i, 2 ^ (4 * i) = 16 ^ i := fun i => pow_mul 2 4 i
    simp only [exec_bcdT, bcdToWord_eq, rebase_eq_sum, hbase, State.regNat]
  case toBcd => rw [exec_bcdF, wordToBcd_eq, rebase_eq_sum, State.regNat]
  case toNative => rw [exec_signT, signToNative_eq, State.regNat]
  case magnitude => rw [s.signSplit_reg_magnitude a hdf, toNat_nativeMagnitude]
  case flag => rw [s.signSplit_reg_flag, nativeFlag, boolWord_decide]

/-- Settles O57: what the second instruction writes is the second conversion of the first one's results. -/
theorem conversionsRoundTrip : Obligations.ConversionsRoundTrip := by
  refine ⟨fun s d a e => ⟨_, _, rfl, rfl, ?_⟩, fun s d a e hdigits => ⟨_, _, rfl, rfl, ?_⟩,
    fun s m f a e hmf => ⟨_, _, exec_signF m f a s, rfl, ?_⟩⟩
  · rw [State.reg_setReg_same, State.reg_setReg_same, toNat_bcdToWord_wordToBcd, State.regNat]
  · rw [State.reg_setReg_same, State.reg_setReg_same, wordToBcd_bcdToWord fun i hi => Nat.lt_succ_of_le (hdigits i hi)]
  · rw [State.reg_setReg_same, s.signSplit_reg_magnitude a hmf, s.signSplit_reg_flag, signToNative_native]

end Sys2Proof.Machine
end

section
/-! PROOF of O58 (49_host_io_data_misc.md R240, R241): what FOPEN asks the host and where it stores the answer. -/

namespace Sys2Proof.Machine

/-- What the host answers to a FOPEN of the two byte strings. -/
abbrev State.opened (s : State) (pa pl ma ml : RegId) : Word × Word :=
  Config.hostOpen s.hostSeed s.hostLog (s.mem.readBytes (s.regNat pa) (s.regNat pl))
    (s.mem.readBytes (s.regNat ma) (s.regNat ml))

/-- The exchange of a FOPEN. -/
abbrev State.openExchange (s : State) (pa pl ma ml : RegId) : Config.HostExchange :=
  .opened (s.mem.readBytes (s.regNat pa) (s.regNat pl)) (s.mem.readBytes (s.regNat ma) (s.regNat ml))
    (s.opened pa pl ma ml).1 (s.opened pa pl ma ml).2

/-- The state after a FOPEN: the error code in `ER`, then the handle in `d`. -/
abbrev State.afterFopen (s : State) (d pa pl ma ml : RegId) : State :=
  ((s.logHost (s.openExchange pa pl ma ml)).setReg s.crmap.er (s.opened pa pl ma ml).1).setReg d (s.opened pa pl ma ml).2

theorem exec_fopen_of {s : State} {pa pl ma ml : RegId} (d : RegId) (hp : s.regNat pa + s.regNat pl < s.al)
    (hm : s.regNat ma + s.regNat ml < s.al) (hpin : s.inArena (s.regNat pa) (s.regNat pl))
    (hmin : s.inArena (s.regNat ma) (s.regNat ml)) :
    exec (.fopen d pa pl ma ml) s = .next (s.afterFopen d pa pl ma ml) := State.twoRanges_of _ hp hm hpin hmin

theorem State.afterFopen_regsKept (s : State) (d pa pl ma ml : RegId) :
    RegsKept [s.crmap.er, d] s (s.afterFopen d pa pl ma ml) :=
  ((RegsKept.refl [s.crmap.er, d] s).setReg (.head _) _).setReg (.tail _ (.head _)) _

/-- Settles O58: the handle is written last, so `ER` keeps the error code unless it is `d`. -/
theorem fopenStoresTheHostsAnswer : Obligations.FopenStoresTheHostsAnswer := by
  intro s d pa pl ma ml hp hm hpin hmin
  refine ⟨s.afterFopen d pa pl ma ml, (s.opened pa pl ma ml).1, (s.opened pa pl ma ml).2,
    exec_fopen_of d hp hm (Or.inr hpin) (Or.inr hmin), rfl, State.reg_setReg_same _ _ _, fun hd => ?_,
    s.afterFopen_regsKept d pa pl ma ml, fun _ => rfl, rfl, LaunchKept.refl s, rfl⟩
  exact (State.reg_setReg_ne _ _ hd.symm).trans (State.reg_setReg_same _ _ _)

end Sys2Proof.Machine
end

section
/-! PROOF of O19 (70_reset_and_hazards.md R290 to R293): the fields the Loader reads from an image are those its header was
laid out with, and the checks in the order of R292's table. -/

namespace Sys2Proof.Machine

/-! ### The fields of an image -/

/-- The 32 bytes before the code: magic, version, flag byte and the three sizes (R290). -/
def imageHeader (ver : List Byte) (flag : Byte) (c d st : Nat) : List Byte :=
  beBytes 4 Config.magic.toNat ++ ver ++ [flag] ++ beBytes 8 c ++ beBytes 8 d ++ beBytes 8 st

/-- A field of `n` bytes behind `offset` bytes is the number laid out there (R290). -/
theorem imageField_append {before : List Byte} {offset : Nat} (h : before.length = offset) (n v : Nat)
    (behind : List Byte) : imageField (before ++ beBytes n v ++ behind) offset n = v % 256 ^ n := by
  rw [imageField, List.append_assoc, List.drop_left' h, List.take_left' (length_beBytes n v), beNat_beBytes]

section Header
variable {ver : List Byte} (flag : Byte) (c d st : Nat) (rest : List Byte)

theorem take_magic (ver : List Byte) :
    (imageHeader ver flag c d st ++ rest).take 4 = beBytes 4 Config.magic.toNat := by
  simp only [imageHeader, List.append_assoc]
  exact List.take_left' (length_beBytes 4 _)

theorem length_imageHeader (h : ver.length = 3) : (imageHeader ver flag c d st).length = 32 := by
  simp [imageHeader, h]

theorem imageField_code (h : ver.length = 3) (hc : c < 2 ^ 64) :
    imageField (imageHeader ver flag c d st ++ rest) 8 8 = c := by
  have hbefore : (beBytes 4 Config.magic.toNat ++ ver ++ [flag]).length = 8 := by simp [h]
  rw [imageHeader, List.append_assoc _ _ rest, List.append_assoc _ _ (beBytes 8 st ++ rest), imageField_append hbefore]
  exact Nat.mod_eq_of_lt hc

theorem imageField_data (h : ver.length = 3) (hd : d < 2 ^ 64) :
    imageField (imageHeader ver flag c d st ++ rest) 16 8 = d := by
  have hbefore : (beBytes 4 Config.magic.toNat ++ ver ++ [flag] ++ beBytes 8 c).length = 16 := by simp [h]
  rw [imageHeader, List.append_assoc _ _ rest, imageField_append hbefore]
  exact Nat.mod_eq_of_lt hd

theorem imageField_stack (h : ver.length = 3) (hst : st < 2 ^ 64) :
    imageField (imageHeader ver flag c d st ++ rest) 24 8 = st := by
  have hbefore : (beBytes 4 Config.magic.toNat ++ ver ++ [flag] ++ beBytes 8 c ++ beBytes 8 d).length = 24 := by simp [h]
  rw [imageHeader, imageField_append hbefore]
  exact Nat.mod_eq_of_lt hst

end Header

/-! ### The checks of the Loader -/

section Checks
variable {img : List Byte} {setting : Setting}

theorem loadImage_badMagic (h : img.take 4 ≠ beBytes 4 Config.magic.toNat) :
    loadImage (.file img) setting = .error .a3 := if_pos h

theorem loadImage_shortHeader (hmagic : img.take 4 = beBytes 4 Config.magic.toNat) (h : img.length < 32) :
    loadImage (.file img) setting = .error .a5 := by
  rw [loadImage, if_neg (not_not.mpr hmagic), if_pos h]

/-- Behind a right magic and a whole header: first the allocation, then the code bytes (R292, D26). -/
theorem loadImage_of_header (hmagic : img.take 4 = beBytes 4 Config.magic.toNat) (h : 32 ≤ img.length) :
    loadImage (.file img) setting =
      if 2 ^ 64 ≤ imageArena img ∨ Config.canAllocate (imageArena img) = false then .error .a4
      else if img.length < 32 + imageField img 8 8 then .error .a5
      else .ok (State.boot (imageLaunch img setting)) := by
  rw [loadImage, if_neg (not_not.mpr hmagic), if_neg (Nat.not_lt.mpr h)]

end Checks

/-! ### An image laid out from its sizes -/

section Image
variable {ver : List Byte} (flag : Byte) {c d st : Nat} (rest : List Byte) (setting : Setting)

theorem imageArena_header (h : ver.length = 3) (hc : c < 2 ^ 64) (hd : d < 2 ^ 64) (hst : st < 2 ^ 64) :
    imageArena (imageHeader ver flag c d st ++ rest) = 16 + c + d + st := by
  rw [imageArena, imageField_code flag c d st rest h hc, imageField_data flag c d st rest h hd,
    imageField_stack flag c d st rest h hst]
  rfl

/-- The checks on an image whose sizes each fit their field. -/
theorem loadImage_header (h : ver.length = 3) (hc : c < 2 ^ 64) (hd : d < 2 ^ 64) (hst : st < 2 ^ 64) :
    loadImage (.file (imageHeader ver flag c d st ++ rest)) setting =
      if 2 ^ 64 ≤ 16 + c + d + st ∨ Config.canAllocate (16 + c + d + st) = false then .error .a4
      else if rest.length < c then .error .a5
      else .ok (State.boot (imageLaunch (imageHeader ver flag c d st ++ rest) setting)) := by
  have hlen : (imageHeader ver flag c d st ++ rest).length = 32 + rest.length := by
    rw [List.length_append, length_imageHeader flag c d st h]
  rw [loadImage_of_header (take_magic flag c d st rest ver) (by omega), imageArena_header flag rest h hc hd hst,
    imageField_code flag c d st rest h hc, hlen]
  simp only [Nat.add_lt_add_iff_left]

/-- The refusal that is left where the sizes fit a word. -/
theorem loadImage_header_of_fits (h : ver.length = 3) (hfits : 16 + c + d + st < 2 ^ 64) :
    loadImage (.file (imageHeader ver flag c d st ++ rest)) setting =
      if Config.canAllocate (16 + c + d + st) then
        if rest.length < c then .error .a5
        else .ok (State.boot (imageLaunch (imageHeader ver flag c d st ++ rest) setting))
      else .error .a4 := by
  rw [loadImage_header flag rest setting h (by omega) (by omega) (by omega)]
  cases Config.canAllocate (16 + c + d + st) with
  | true => exact if_neg (by simpa using hfits)
  | false => exact if_pos (Or.inr rfl)

/-- The launch of an image that holds its code bytes, whatever trails them. -/
theorem imageLaunch_header (h : ver.length = 3) (code trail : List Byte) (hfill : setting.stackFill.length ≤ st)
    (hfits : 16 + code.length + d + st < 2 ^ 64) :
    imageLaunch (imageHeader ver flag code.length d st ++ (code ++ trail)) setting =
      { setting with program := code, dataSize := d, stackSize := st } := by
  rw [imageLaunch, imageField_code flag _ d st _ h (by omega), imageField_data flag _ d st _ h (by omega),
    imageField_stack flag _ d st _ h (by omega), List.drop_left' (length_imageHeader flag _ d st h),
    List.take_left, List.take_of_length_le hfill]

end Image

/-- Settles O19: the checks by the lemmas above, the launch by the fields of the header. -/
theorem loaderBuildsTheResetState : Obligations.LoaderBuildsTheResetState := by
  refine fun setting => ⟨fun ver flag hver => ⟨fun code trail d st hfill hfits => ⟨?whole, fun short hshort => ?short⟩,
    fun c d st rest hc hd hst hover => ?oversized⟩, rfl, rfl, fun _ => loadImage_badMagic, fun _ => loadImage_shortHeader⟩
  case whole =>
    have hload := loadImage_header_of_fits flag (code ++ trail) setting hver hfits
    have hcode : ¬ (code ++ trail).length < code.length := by simp
    rw [imageLaunch_header flag setting hver code trail hfill hfits, if_neg hcode, ← List.append_assoc] at hload
    exact hload
  case short =>
    have hload := loadImage_header_of_fits flag short setting hver hfits
    rw [if_pos hshort] at hload
    exact hload
  case oversized =>
    exact (loadImage_header flag rest setting hver hc hd hst).trans (if_pos (Or.inl hover))

end Sys2Proof.Machine
end
